-- ==== Sys2Proof/Word.lean ====
section
/-! DEFINITION. The word types of the block (00_scope.md R6, 30_encoding.md R51, R64). All quantities are unsigned. -/

namespace Sys2Proof

/-- A byte: bit 0 is the least significant bit (R6). -/
abbrev Byte := BitVec 8

/-- A command word, `cmd[31:0]` (R51). -/
abbrev CmdWord := BitVec 32

/-- A Bit Serializer request word, `o vvvvvvvv` (R64). -/
abbrev SerWord := BitVec 9

/-- A Command Broadcaster request word, `kk tttt aaaaaaaa vvvvvvvv` (R64). -/
abbrev BcWord := BitVec 22

end Sys2Proof
end

