-- ==== Sys2Proof/Syntax.lean ====
section
/-! DEFINITION. The instructions: one constructor per row of spec/opcode_table.json, the twelve commands of
30_encoding.md R52 in the order of that table and the five micro-operations of R64. Operand widths: R53, R64. -/

namespace Sys2Proof

/-- The order in which the serializer sends the bits of a byte (20_memory.md R37; 10_state.md R19 `ord`). -/
inductive BitOrder where
  /-- Bit 7 first: the order of every byte a command sends. -/
  | msbFirst
  /-- Bit 0 first: reachable only at the serializer's request port. -/
  | lsbFirst
deriving DecidableEq, Repr

/-- One instruction. -/
inductive Instr where
  /-- `INIT` (R112). -/
  | init
  /-- `CLEAR` (R95). -/
  | clear
  /-- `SET_INTENSITY level` (R113). -/
  | setIntensity (level : Byte)
  /-- `SET_COLUMN col, value` (R93). -/
  | setColumn (col value : Byte)
  /-- `SET_COLUMN_ALL col, value` (R94): `col` is a local column. -/
  | setColumnAll (col value : Byte)
  /-- `UPDATE_BUFFER_AT col, row, val` (R91). -/
  | updateBufferAt (col row : Byte) (val : Bool)
  /-- `SET_DOT col, row, val` (R92). -/
  | setDot (col row : Byte) (val : Bool)
  /-- `SHIFT_LEFT rotate, fill_zero` (R101). -/
  | shiftLeft (rotate fillZero : Bool)
  /-- `SHIFT_RIGHT rotate, fill_zero` (R102). -/
  | shiftRight (rotate fillZero : Bool)
  /-- `SHIFT_UP rotate` (R103). -/
  | shiftUp (rotate : Bool)
  /-- `SHIFT_DOWN rotate` (R104). -/
  | shiftDown (rotate : Bool)
  /-- `RELOAD` (R111). -/
  | reload
  /-- `SER_MSB v` (R70), a serializer request. -/
  | serMsb (v : Byte)
  /-- `SER_LSB v` (R71), a serializer request. -/
  | serLsb (v : Byte)
  /-- `BC_SAME a, v` (R82), a broadcaster request. -/
  | bcSame (a v : Byte)
  /-- `BC_ADDR n, a, v` (R84), a broadcaster request for the chip index `n`. -/
  | bcAddr (n : BitVec 4) (a v : Byte)
  /-- `BC_BUF k` (R85), a broadcaster request, by its address byte `a = k + 1`. -/
  | bcBuf (a : Byte)
deriving DecidableEq, Repr

end Sys2Proof
end

