-- ==== Sys2Proof/WellFormed.lean ====
section
/-! DEFINITION. Well-formed instructions. Every operand of a command is a byte or a bit that its field holds
(30_encoding.md R53), so every command is well formed: a `col` or `row` out of range is no encoding error but the
fault `OperandRange` when the command runs (R122). The two checks are the operand ranges that 41_broadcaster.md gives
the broadcaster's requests. -/

namespace Sys2Proof

/-- The operands are in the ranges the rule of the instruction states for every configuration:
a target chip index below 10, the largest chain (R84 with 00_scope.md R5);
an address byte `k + 1` for a local column `k` from 0 to 7 (R85). -/
def Instr.wellFormed : Instr → Bool
  | .bcAddr n _ _ => decide (n.toNat < 10)
  | .bcBuf a => decide (1 ≤ a.toNat) && decide (a.toNat ≤ 8)
  | .init | .clear | .setIntensity _ | .setColumn _ _ | .setColumnAll _ _ => true
  | .updateBufferAt _ _ _ | .setDot _ _ _ | .shiftLeft _ _ | .shiftRight _ _ => true
  | .shiftUp _ | .shiftDown _ | .reload => true
  | .serMsb _ | .serLsb _ | .bcSame _ _ => true

end Sys2Proof
end

