-- ==== Sys2Proof/Decode.lean ====
section
/-! DEFINITION. Decoding and encoding, from 30_encoding.md R51, R52, R53, R60 (command words) and R64 (request words). -/

namespace Sys2Proof

/-- Why a word is no instruction. The first two are the illegal command words of R60; the others are words of the
broadcaster's port to which R64 gives no meaning. -/
inductive Reject where
  /-- `op = 0x00` or `op` from `0x0D` to `0xFF` (R60). -/
  | undefinedOp
  /-- A legal `op` with a must-be-zero bit set (R51, R60). -/
  | mustBeZero
  /-- `kk = 11`: "never issued by the sequencer and has no meaning" (R64). -/
  | requestKind
  /-- A field a request kind does not use is not zero (R64). -/
  | requestMustBeZero
deriving DecidableEq, Repr

/-- A word at one of the three ports (R50, R72, R64). -/
inductive PortWord where
  | cmd (w : CmdWord)
  | ser (w : SerWord)
  | bc (w : BcWord)
deriving DecidableEq, Repr

/-- The `op` field, bits 31:24 (R51). -/
def opField (w : CmdWord) : Byte := w.extractLsb' 24 8

/-- The `a` field, bits 23:16 (R51). -/
def aField (w : CmdWord) : Byte := w.extractLsb' 16 8

/-- The `b` field, bits 15:8 (R51). -/
def bField (w : CmdWord) : Byte := w.extractLsb' 8 8

/-- The `v` field, bits 7:0 (R51). -/
def vField (w : CmdWord) : Byte := w.extractLsb' 0 8

/-- A command word from its four byte fields (R51). -/
def cmdOf (op a b v : Byte) : CmdWord := op ++ a ++ b ++ v

/-- The instruction, if the bits that must be zero are. -/
def ifZero (zero : Bool) (i : Instr) : Except Reject Instr :=
  if zero then .ok i else .error .mustBeZero

/-- Decode a command word (R51, R52, R53, R60). -/
def decodeCommand (w : CmdWord) : Except Reject Instr :=
  let op := opField w
  let a := aField w
  let b := bField w
  let v := vField w
  if op = 0x01#8 then ifZero (a == 0 && b == 0 && v == 0) .init
  else if op = 0x02#8 then ifZero (a == 0 && b == 0 && v == 0) .clear
  else if op = 0x03#8 then ifZero (a == 0 && b == 0) (.setIntensity v)
  else if op = 0x04#8 then ifZero (b == 0) (.setColumn a v)
  else if op = 0x05#8 then ifZero (b == 0) (.setColumnAll a v)
  else if op = 0x06#8 then ifZero (v &&& 0xFE#8 == 0) (.updateBufferAt a b (v.getLsbD 0))
  else if op = 0x07#8 then ifZero (v &&& 0xFE#8 == 0) (.setDot a b (v.getLsbD 0))
  else if op = 0x08#8 then ifZero (a == 0 && b &&& 0xFC#8 == 0 && v == 0) (.shiftLeft (b.getLsbD 0) (b.getLsbD 1))
  else if op = 0x09#8 then ifZero (a == 0 && b &&& 0xFC#8 == 0 && v == 0) (.shiftRight (b.getLsbD 0) (b.getLsbD 1))
  else if op = 0x0A#8 then ifZero (a == 0 && b &&& 0xFE#8 == 0 && v == 0) (.shiftUp (b.getLsbD 0))
  else if op = 0x0B#8 then ifZero (a == 0 && b &&& 0xFE#8 == 0 && v == 0) (.shiftDown (b.getLsbD 0))
  else if op = 0x0C#8 then ifZero (a == 0 && b == 0 && v == 0) .reload
  else .error .undefinedOp

/-- Decode a serializer request: bit 8 is the order, bits 7:0 the byte (R64). Every word is a request. -/
def decodeSer (w : SerWord) : Except Reject Instr :=
  if w.getLsbD 8 then .ok (.serLsb (w.extractLsb' 0 8)) else .ok (.serMsb (w.extractLsb' 0 8))

/-- Decode a broadcaster request: bits 21:20 the kind, 19:16 the target, 15:8 the address, 7:0 the value (R64).
The target is 0 but for kind 01 and the value is 0 for kind 10. -/
def decodeBc (w : BcWord) : Except Reject Instr :=
  let kk : BitVec 2 := w.extractLsb' 20 2
  let t : BitVec 4 := w.extractLsb' 16 4
  let a : Byte := w.extractLsb' 8 8
  let v : Byte := w.extractLsb' 0 8
  if kk = 0#2 then (if t = 0 then .ok (.bcSame a v) else .error .requestMustBeZero)
  else if kk = 1#2 then .ok (.bcAddr t a v)
  else if kk = 2#2 then (if t = 0 ∧ v = 0 then .ok (.bcBuf a) else .error .requestMustBeZero)
  else .error .requestKind

/-- Decode the word of a port. -/
def decode : PortWord → Except Reject Instr
  | .cmd w => decodeCommand w
  | .ser w => decodeSer w
  | .bc w => decodeBc w

/-- A Boolean as the bit 0 of a byte (R51, R53). -/
def bitByte (b : Bool) : Byte := if b then 1 else 0

/-- The flag byte of the horizontal shifts: bit 0 is `rotate`, bit 1 is `fill_zero` (R51). -/
def flagByte (rotate fillZero : Bool) : Byte := (if rotate then 1 else 0) ||| (if fillZero then 2 else 0)

/-- A row of the opcode map (R52). -/
structure OpcodeRow where
  mnemonic : String
  bits : CmdWord
  mask : CmdWord
deriving DecidableEq, Repr

/-- The opcode map: mnemonic, `match` and `mask` of the twelve commands (R52). -/
def opcodeRows : List OpcodeRow :=
  [⟨"INIT", 0x01000000, 0xFFFFFFFF⟩, ⟨"CLEAR", 0x02000000, 0xFFFFFFFF⟩, ⟨"SET_INTENSITY", 0x03000000, 0xFFFFFF00⟩,
   ⟨"SET_COLUMN", 0x04000000, 0xFF00FF00⟩, ⟨"SET_COLUMN_ALL", 0x05000000, 0xFF00FF00⟩,
   ⟨"UPDATE_BUFFER_AT", 0x06000000, 0xFF0000FE⟩, ⟨"SET_DOT", 0x07000000, 0xFF0000FE⟩,
   ⟨"SHIFT_LEFT", 0x08000000, 0xFFFFFCFF⟩, ⟨"SHIFT_RIGHT", 0x09000000, 0xFFFFFCFF⟩,
   ⟨"SHIFT_UP", 0x0A000000, 0xFFFFFEFF⟩, ⟨"SHIFT_DOWN", 0x0B000000, 0xFFFFFEFF⟩, ⟨"RELOAD", 0x0C000000, 0xFFFFFFFF⟩]

/-- A word selects a row (R52): `(w & mask) = match`. -/
def OpcodeRow.selects (r : OpcodeRow) (w : CmdWord) : Bool := w &&& r.mask == r.bits

/-- The mnemonic of an instruction in spec/opcode_table.json. -/
def mnemonicOf : Instr → String
  | .init => "INIT"
  | .clear => "CLEAR"
  | .setIntensity _ => "SET_INTENSITY"
  | .setColumn _ _ => "SET_COLUMN"
  | .setColumnAll _ _ => "SET_COLUMN_ALL"
  | .updateBufferAt _ _ _ => "UPDATE_BUFFER_AT"
  | .setDot _ _ _ => "SET_DOT"
  | .shiftLeft _ _ => "SHIFT_LEFT"
  | .shiftRight _ _ => "SHIFT_RIGHT"
  | .shiftUp _ => "SHIFT_UP"
  | .shiftDown _ => "SHIFT_DOWN"
  | .reload => "RELOAD"
  | .serMsb _ => "SER_MSB"
  | .serLsb _ => "SER_LSB"
  | .bcSame _ _ => "BC_SAME"
  | .bcAddr _ _ _ => "BC_ADDR"
  | .bcBuf _ => "BC_BUF"

/-- The word of an instruction, at the port that takes it (R51, R52, R64). -/
def encode : Instr → PortWord
  | .init => .cmd (cmdOf 0x01 0 0 0)
  | .clear => .cmd (cmdOf 0x02 0 0 0)
  | .setIntensity level => .cmd (cmdOf 0x03 0 0 level)
  | .setColumn col value => .cmd (cmdOf 0x04 col 0 value)
  | .setColumnAll col value => .cmd (cmdOf 0x05 col 0 value)
  | .updateBufferAt col row val => .cmd (cmdOf 0x06 col row (bitByte val))
  | .setDot col row val => .cmd (cmdOf 0x07 col row (bitByte val))
  | .shiftLeft r f => .cmd (cmdOf 0x08 0 (flagByte r f) 0)
  | .shiftRight r f => .cmd (cmdOf 0x09 0 (flagByte r f) 0)
  | .shiftUp r => .cmd (cmdOf 0x0A 0 (flagByte r false) 0)
  | .shiftDown r => .cmd (cmdOf 0x0B 0 (flagByte r false) 0)
  | .reload => .cmd (cmdOf 0x0C 0 0 0)
  | .serMsb v => .ser (0#1 ++ v)
  | .serLsb v => .ser (1#1 ++ v)
  | .bcSame a v => .bc (0#2 ++ 0#4 ++ a ++ v)
  | .bcAddr n a v => .bc (1#2 ++ n ++ a ++ v)
  | .bcBuf a => .bc (2#2 ++ 0#4 ++ a ++ 0#8)

/-- The command word of an instruction; 0, which is no command, for a request of a sub-block. -/
def commandWord (i : Instr) : CmdWord :=
  match encode i with
  | .cmd w => w
  | .ser _ => 0
  | .bc _ => 0

/-- The port word of `nbits` bits of value `w`: the width says the port. The serializer's 9-bit requests are two
whole bytes, the broadcaster's 22-bit requests three, the command word four (log 19). -/
def portWord (nbits w : Nat) : Option PortWord :=
  if nbits ≤ 16 then (if w < 2 ^ 9 then some (.ser (BitVec.ofNat 9 w)) else none)
  else if nbits ≤ 24 then (if w < 2 ^ 22 then some (.bc (BitVec.ofNat 22 w)) else none)
  else if w < 2 ^ 32 then some (.cmd (BitVec.ofNat 32 w)) else none

/-- The instruction that the decoder reads from a word numbered as spec/opcode_table.json numbers it. -/
def decodeTableWord (nbits w : Nat) : Option Instr :=
  match portWord nbits w with
  | some p => (decode p).toOption
  | none => none

end Sys2Proof
end

