-- ==== Sys2Proof/Config.lean ====
section
/-! DEFINITION. The constants and the named parameters of the block (00_scope.md R4, R5, section 4), and the model's
one source of free values. The parameters stand in State as a field that no step changes (R24), so that a statement
about every state is a statement about every parameter value. -/

namespace Sys2Proof

/-- `BUF_LEN` (R4): the framebuffer is 80 bytes. -/
@[simp] abbrev bufLen : Nat := 80

/-- `COLS` (R4): columns per chip. -/
@[simp] abbrev colsPerChip : Nat := 8

/-- `ROWS` (R4): rows per column. -/
@[simp] abbrev rowsPerCol : Nat := 8

/-- The buffer index rule of `SET_COLUMN_ALL` (section 4 of 00_scope.md; 42_buffer_ops.md R94; 92_eei_decisions.md D11). -/
inductive ColumnAllIndexing where
  /-- `buf[col * i]`, the source's behaviour and the default. -/
  | legacyProduct
  /-- `buf[i * 8 + col]`, the flagged replacement. -/
  | consistent
deriving DecidableEq, Repr

/-- The parameters the source leaves open (00_scope.md section 4; 10_state.md R24). -/
structure Config where
  regDecodeMode : Byte
  regIntensity : Byte
  regScanLimit : Byte
  regShutdown : Byte
  regDisplayTest : Byte
  columnAllIndexing : ColumnAllIndexing
  pinCanFail : Bool
deriving DecidableEq, Repr

/-- The default parameters of the table of 00_scope.md section 4. PRESUMED: the five address bytes are general
knowledge and not in the source (D7, G1; log 1). -/
def Config.standard : Config where
  regDecodeMode := 0x09
  regIntensity := 0x0A
  regScanLimit := 0x0B
  regShutdown := 0x0C
  regDisplayTest := 0x0F
  columnAllIndexing := .legacyProduct
  pinCanFail := false

/-- A FREE VALUE: the value byte at a position of the frame of a `BC_BUF` request whose address byte is outside 1 to 8,
for which 41_broadcaster.md R85 states no byte. The first argument is the number of the draw. No body: nothing can be
proved of it. DESIGN CHOICE (log 8). -/
opaque Config.freeByte : Nat → Nat → Byte

end Sys2Proof
end

