-- ==== Sys2Proof/Machine/State.lean ====
section
/-! DEFINITION. The state of the block (10_state.md), what can stop it, and the state after reset (70_reset_and_hazards.md
R140). Plain data throughout. -/

namespace Sys2Proof.Machine

/-- The framebuffer (20_memory.md R30): bytes by index, indices strictly rising, no entry `0x00`, which is what an
unlisted index reads as (70_reset_and_hazards.md R140: every byte is `0x00` at reset). -/
abbrev Memory := List Host.Cell

/-- The level a pin latch holds (10_state.md R13): `x` means no request since reset. -/
inductive Level where
  | x
  | low
  | high
deriving DecidableEq, Repr

/-- A pin event: one `set_high` (`true`) or `set_low` (`false`) request (00_scope.md section 5). -/
inductive PinEvent where
  /-- `D(b)`, on the data pin. -/
  | d (b : Bool)
  /-- `C(b)`, on the clock pin. -/
  | c (b : Bool)
  /-- `L(b)`, on the load pin. -/
  | l (b : Bool)
deriving DecidableEq, Repr

/-- An action (10_state.md R18). -/
inductive Action where
  /-- `Pin(e)`. -/
  | pin (e : PinEvent)
  /-- `Wr(i, v)`, a write of the byte `v` to `buf[i]`. -/
  | wr (i : Nat) (v : Byte)
deriving DecidableEq, Repr

/-- The sticky fault code (10_state.md R15): the values 0, 1 and 2 of 60_exceptions.md R120. -/
inductive FaultCode where
  | none
  | illegalCommand
  | operandRange
deriving DecidableEq, Repr

/-- The serializer's phase (10_state.md R19): `S_IDLE`, `S_DATA`, `S_HIGH`, `S_LOW`. -/
inductive SerPhase where
  | idle
  | data
  | high
  | low
deriving DecidableEq, Repr

/-- The serializer's registers (10_state.md R19; 40_serializer.md R74). -/
structure SerRegs where
  sr : Byte
  ord : BitOrder
  cnt : BitVec 4
  ph : SerPhase
deriving DecidableEq, Repr

/-- The broadcaster's frame phase (10_state.md R20): `F_IDLE`, `F_OPEN`, `F_PAIRS`, `F_CLOSE_LOW`, `F_CLOSE_HIGH`. -/
inductive FramePhase where
  | idle
  | openLow
  | pairs
  | closeLow
  | closeHigh
deriving DecidableEq, Repr

/-- Where the pairs of a frame come from (10_state.md R20). -/
inductive PairMode where
  | same
  | addressed
  | buffer
deriving DecidableEq, Repr

/-- The broadcaster's registers (10_state.md R20; 41_broadcaster.md R86). -/
structure BcRegs where
  pos : BitVec 4
  half : Bool
  fph : FramePhase
  mode : PairMode
  areg : Byte
  vreg : Byte
  tgt : BitVec 4
deriving DecidableEq, Repr

/-- The driver's registers (10_state.md R21; 44_driver_ops.md R115), and `saved`, the byte a horizontal sweep saves,
which R115 needs and no register list names (log 13). -/
structure DrvRegs where
  cmdreg : CmdWord
  kcnt : BitVec 4
  idx : BitVec 7
  istep : BitVec 3
  saved : Byte
deriving DecidableEq, Repr

/-- A move of the host (60_exceptions.md R136), and the two request ports that only the sequencer uses in the block but
that "a model that wants to exercise" them drives (40_serializer.md R72). DESIGN CHOICE (log 4, log 5, log 7). -/
inductive HostMove where
  /-- The host does nothing for one step. -/
  | wait
  /-- The host presents a command word and holds it until it is accepted (30_encoding.md R50). -/
  | command (w : CmdWord)
  /-- The host asserts `reset` with this strap for one step, whatever the block is doing (70_reset_and_hazards.md R141). -/
  | reset (strap : BitVec 4)
  /-- A request word is held at the serializer's port until it is taken. -/
  | serRequest (w : SerWord)
  /-- A request word is held at the broadcaster's port until it is taken. -/
  | bcRequest (w : BcWord)
deriving DecidableEq, Repr

/-- The state of the block, its parameters, and the host's moves still to come. -/
structure State where
  /-- The named parameters (R24); no step changes them. -/
  config : Config
  /-- `N`, the chain length sampled at reset (R11). -/
  chainLen : BitVec 4
  /-- The framebuffer (R10). -/
  buf : Memory
  /-- The pin latches (R13). -/
  data : Level
  clk : Level
  load : Level
  /-- `T`, every pin event since reset, oldest first (R14). -/
  trace : List PinEvent
  /-- The sticky fault code (R15). -/
  fault : FaultCode
  /-- 1 while a command is in progress (R16). -/
  busy : Bool
  /-- `Q`, the actions not yet performed, next one first (R18). -/
  queue : List Action
  /-- The serializer's registers (R19). -/
  ser : SerRegs
  /-- The broadcaster's registers (R20). -/
  bc : BcRegs
  /-- The driver's registers (R21). -/
  drv : DrvRegs
  /-- The host's moves to come, next one first: the model's own field (log 4). -/
  inputs : List HostMove
  /-- How many free values have been drawn: the model's own field (log 8). -/
  draws : Nat
deriving DecidableEq, Repr

/-- Why a step ends in a fault of the model. The block's own faults are no stops: they are the code in `State.fault`. -/
inductive Fault where
  /-- Raised by performing a queued write to an index that is no framebuffer location, 80 or more (20_memory.md R30, R39).
  No reachable state queues one. Safe: the machine stops. -/
  | framebufferIndex (i : Nat)
deriving DecidableEq, Repr

/-- Why a step is refused. -/
inductive Refusal where
  /-- Raised by an arm of `exec` for an instruction without a meaning. Safe: the machine stops. -/
  | notModelled (mnemonic : String)
  /-- Raised by the acceptance of an instruction, and by a reset, when the chain length is outside 1 to 10 or the register
  addresses collide: "a refusal, not a fault" (60_exceptions.md R135; 92_eei_decisions.md D7, D10). Safe: the machine
  stops. -/
  | notAConfiguration
  /-- Raised by a step that finds at the broadcaster's port a word to which 30_encoding.md R64 gives no meaning. Safe: the
  machine stops. -/
  | requestWithoutMeaning
deriving DecidableEq, Repr

/-- The serializer at reset (R19, R140). -/
def SerRegs.reset : SerRegs where
  sr := 0
  ord := .msbFirst
  cnt := 0
  ph := .idle

/-- The broadcaster at reset (R20, R140). -/
def BcRegs.reset : BcRegs where
  pos := 0
  half := false
  fph := .idle
  mode := .same
  areg := 0
  vreg := 0
  tgt := 0

/-- The driver at reset (R21, R140); `saved` is a DESIGN CHOICE (log 13). -/
def DrvRegs.reset : DrvRegs where
  cmdreg := 0
  kcnt := 0
  idx := 0
  istep := 0
  saved := 0

/-- The state of R140 for a strap and parameters, with the host's moves to come. -/
def State.resetWith (config : Config) (strap : BitVec 4) (inputs : List HostMove) : State where
  config := config
  chainLen := strap
  buf := []
  data := .x
  clk := .x
  load := .x
  trace := []
  fault := .none
  busy := false
  queue := []
  ser := SerRegs.reset
  bc := BcRegs.reset
  drv := DrvRegs.reset
  inputs := inputs
  draws := 0

/-- The state right after reset (R140), with the default parameters, the strap 4 and a host that presents nothing.
The spec gives the strap no default: DESIGN CHOICE (log 2). -/
def State.reset : State := State.resetWith Config.standard 4 []

end Sys2Proof.Machine
end

