-- ==== Sys2Proof/Machine/Ops.lean ====
section
/-! DEFINITION. The named operations over the framebuffer, the pins and the fault code: reading and writing a byte
(20_memory.md R39, R40, R42), a pin event (10_state.md R13, R14), one action (R18), raising a fault (60_exceptions.md R120)
and the only way out of one, reset (R125, 70_reset_and_hazards.md R140, R141). -/

namespace Sys2Proof.Machine

/-- What a framebuffer location that nothing has written since reset reads as (R42, R140). -/
abbrev blankByte : Byte := 0

/-- `buf[i]`: the value of the latest write to `i`, or 0 (R42). Reading changes nothing (R40). -/
def Memory.read : Memory → Nat → Byte
  | [], _ => blankByte
  | (j, b) :: rest, i => if j = i then b else Memory.read rest i

/-- Put the byte `v` at `i` in front of `rest`, unless that is what an unlisted index reads as. -/
def Memory.put (i : Nat) (v : Byte) (rest : Memory) : Memory :=
  if v = blankByte then rest else (i, v) :: rest

/-- `buf[i] <- v`, keeping the canonical form. -/
def Memory.write : Memory → Nat → Byte → Memory
  | [], i, v => Memory.put i v []
  | (j, b) :: rest, i, v =>
    if i < j then Memory.put i v ((j, b) :: rest)
    else if i = j then Memory.put i v rest
    else (j, b) :: Memory.write rest i v

/-- Indices from `lo` on, strictly rising, below 80, and no entry that reads as an unlisted index does. -/
def Memory.wfFrom : Nat → Memory → Bool
  | _, [] => true
  | lo, (j, b) :: rest => decide (lo ≤ j) && decide (j < bufLen) && decide (b ≠ blankByte) && Memory.wfFrom (j + 1) rest

/-- The canonical form of a framebuffer. -/
def Memory.wf (m : Memory) : Bool := Memory.wfFrom 0 m

/-- Write a list of bytes, first one first. -/
def Memory.writeAll (m : Memory) (ws : List (Nat × Byte)) : Memory :=
  ws.foldl (fun m w => Memory.write m w.1 w.2) m

/-- The level a request asks for (R13). -/
def Level.ofBool (b : Bool) : Level := if b then .high else .low

/-- Set the latch that a pin event names (R13). -/
def setLatch (e : PinEvent) (s : State) : State :=
  match e with
  | .d b => { s with data := Level.ofBool b }
  | .c b => { s with clk := Level.ofBool b }
  | .l b => { s with load := Level.ofBool b }

/-- `emit e`: append `e` to the trace and set the latch it names (00_scope.md section 5). Whether the pin collaborator
carried the write out makes no difference to the block (R124, R76). -/
def emit (e : PinEvent) (s : State) : State :=
  { setLatch e s with trace := s.trace ++ [e] }

/-- Perform one action (R18). A write to an index that is no location stops the machine (R30, R39). -/
def performAction (a : Action) (s : State) : Host.Outcome State Fault Refusal :=
  match a with
  | .pin e => .next (emit e s)
  | .wr i v => if i < bufLen then .next { s with buf := Memory.write s.buf i v } else .fault (.framebufferIndex i)

/-- `raise F`: TAKING A FAULT. It sets the fault code and does nothing else (R120): nothing is saved, there is no vector
and no mode. -/
def raise (f : FaultCode) (s : State) : State := { s with fault := f }

/-- Is this strap a configuration of the hardware (00_scope.md R5, 60_exceptions.md R135)? -/
def strapLegal (n : BitVec 4) : Bool := decide (1 ≤ n.toNat) && decide (n.toNat ≤ 10)

/-- Reset with a strap: THE ONLY WAY OUT OF A FAULT (R125), allowed at any time (R141). The state is that of R140; the
parameters stay (R24), the trace restarts empty, and no pin event is made. Another strap is refused (R135). The count of
free values goes on, so that no draw comes twice. -/
def resetBlock (strap : BitVec 4) (rest : List HostMove) (s : State) : Host.Outcome State Fault Refusal :=
  if strapLegal strap then .next { State.resetWith s.config strap rest with draws := s.draws }
  else .refused .notAConfiguration

/-- The actions of a list of pin events. -/
def pins (es : List PinEvent) : List Action := es.map Action.pin

/-- The actions of a list of buffer writes. -/
def writes (ws : List (Nat × Byte)) : List Action := ws.map fun w => Action.wr w.1 w.2

end Sys2Proof.Machine
end

