-- ==== Sys2Proof/Machine/Operands.lean ====
section
/-! DEFINITION. Operand forms: the column decode (20_memory.md R34, R35), the range checks (60_exceptions.md R122), the
single-bit update (R40, R91), the byte shifts (43_shift_ops.md R103, R104), the index rule of `SET_COLUMN_ALL` (R94), and
the chain length as a number. -/

namespace Sys2Proof.Machine

/-- `N` as a number (10_state.md R11). -/
def State.chips (s : State) : Nat := s.chainLen.toNat

/-- The chip index `n = c / 8` (R34). -/
def chipIndex (col : Byte) : Nat := col.toNat / colsPerChip

/-- The local column `k = c % 8` (R34). -/
def localCol (col : Byte) : Nat := col.toNat % colsPerChip

/-- The register address `k + 1` of a local column (R35). -/
def regAddr (k : Nat) : Byte := BitVec.ofNat 8 (k + 1)

/-- `col < 8·N` (R122). -/
def columnInRange (n : Nat) (col : Byte) : Bool := decide (col.toNat < colsPerChip * n)

/-- `col < 8`, the bound of `SET_COLUMN_ALL` (R122). -/
def localColumnInRange (col : Byte) : Bool := decide (col.toNat < colsPerChip)

/-- `col < 8·N` and `row < 8` (R122). -/
def pixelInRange (n : Nat) (col row : Byte) : Bool := columnInRange n col && decide (row.toNat < rowsPerCol)

/-- `1 << row`, a mask of 8 bits (R47). -/
def rowMask (row : Byte) : Byte := 1#8 <<< row.toNat

/-- The byte with bit `row` set or cleared (R91). -/
def updatedByte (b row : Byte) (val : Bool) : Byte := if val then b ||| rowMask row else b &&& ~~~ rowMask row

/-- One bit position toward bit 0; the bit shifted out goes to bit 7 under `rotate`, else bit 7 is 0 (R103). -/
def shiftByteUp (rotate : Bool) (b : Byte) : Byte :=
  if rotate then (b >>> 1) ||| ((b &&& 1#8) <<< 7) else b >>> 1

/-- One bit position toward bit 7; the bit shifted out goes to bit 0 under `rotate`, else bit 0 is 0 (R104). -/
def shiftByteDown (rotate : Bool) (b : Byte) : Byte :=
  if rotate then (b <<< 1) ||| (b >>> 7) else b <<< 1

/-- The buffer index that `SET_COLUMN_ALL` writes for the position `i` (R94, R48). -/
def columnAllIndex (rule : ColumnAllIndexing) (col : Byte) (i : Nat) : Nat :=
  match rule with
  | .legacyProduct => col.toNat * i
  | .consistent => i * colsPerChip + col.toNat

/-- The value byte of the pair at position `i` of the frame of a `BC_BUF` request with address byte `a`: for `a = k + 1`
with `k` from 0 to 7 it is `buf[i·8 + k]` (R85). For another address byte the rule states no value: it is free (log 8). -/
def columnByte (buf : Memory) (draw : Nat) (a : Byte) (i : Nat) : Byte :=
  if 1 ≤ a.toNat ∧ a.toNat ≤ 8 then Memory.read buf (i * colsPerChip + (a.toNat - 1)) else Config.freeByte draw i

/-- How many draws of free values a `BC_BUF` request with address byte `a` makes. -/
def columnDraws (a : Byte) : Nat := if 1 ≤ a.toNat ∧ a.toNat ≤ 8 then 0 else 1

end Sys2Proof.Machine
end

