-- ==== Sys2Proof/Machine/Flags.lean ====
section
/-! DEFINITION. The status of the block as functions of its state: `cmd_ready` (30_encoding.md R50), `ser_busy`
(40_serializer.md R72), readiness to accept (10_state.md R18), and whether the state is a configuration of the hardware
(00_scope.md R5, section 4). No instruction has condition codes (10_state.md R16). -/

namespace Sys2Proof.Machine

/-- `cmd_ready`: 1 exactly when `busy = 0` and `fault = None` (R50). -/
def State.cmdReady (s : State) : Bool := !s.busy && decide (s.fault = .none)

/-- A command can be accepted: `cmd_ready`, and nothing is queued (R18). -/
def State.canAccept (s : State) : Bool := s.cmdReady && s.queue.isEmpty

/-- `ser_busy` (R72, R74). -/
def SerRegs.serBusy (r : SerRegs) : Bool := decide (r.ph ≠ .idle)

/-- The serializer's port takes a request (R72): `ser_busy = 0`, and the sequencer is not at work, whose broadcaster is
otherwise the one that drives the port. The fault code plays no part: a fault stops the command port (60_exceptions.md R120;
log 7). -/
def State.serTakes (s : State) : Bool := s.queue.isEmpty && !s.ser.serBusy

/-- The broadcaster's port takes a request (41_broadcaster.md R86): it is in `F_IDLE`, and the serializer under it is free
(log 7). -/
def State.bcTakes (s : State) : Bool := s.serTakes && decide (s.bc.fph = .idle)

/-- The port of this instruction takes it: a command when one can be accepted, a request when its sub-block is free. -/
def State.takes (s : State) (i : Instr) : Bool :=
  match i with
  | .serMsb _ | .serLsb _ => s.serTakes
  | .bcSame _ _ | .bcAddr _ _ _ | .bcBuf _ => s.bcTakes
  | .init | .clear | .setIntensity _ | .setColumn _ _ | .setColumnAll _ _ | .updateBufferAt _ _ _ | .setDot _ _ _
  | .shiftLeft _ _ | .shiftRight _ _ | .shiftUp _ | .shiftDown _ | .reload => s.canAccept

/-- The five global register addresses. -/
def globalRegs (c : Config) : List Byte :=
  [c.regDecodeMode, c.regIntensity, c.regScanLimit, c.regShutdown, c.regDisplayTest]

/-- The `REG_*` parameters are pairwise distinct and outside 0 to 8 (D7). -/
def configLegal (c : Config) : Bool :=
  decide (globalRegs c).Nodup && (globalRegs c).all fun r => decide (8 < r.toNat)

/-- The state belongs to a configuration of this hardware: `1 ≤ N ≤ 10` (R5, R135) and legal parameters (D7). -/
def State.configured (s : State) : Bool := strapLegal s.chainLen && configLegal s.config

/-- `busy` while these actions are pending (R16: "`busy = 1` exactly when `Q` is not empty"). -/
def busyWith (q : List Action) : Bool := !q.isEmpty

/-- The value of the `fault` status output (60_exceptions.md R120): 0, 1 or 2. -/
def faultValue (f : FaultCode) : Nat :=
  match f with
  | .none => 0
  | .illegalCommand => 1
  | .operandRange => 2

end Sys2Proof.Machine
end

