-- ==== Sys2Proof/Machine/Sequencer.lean ====
section
/-! DEFINITION. The reference micro-architecture: the state machines of the serializer (40_serializer.md R74), the
broadcaster (41_broadcaster.md R86) and the driver (44_driver_ops.md R115), over the registers of 10_state.md R19 to R21.
They build the block "without storing `Q`"; where they and the action lists disagree the lists govern, so `queue` says
what a step performs and these registers follow. A line of a state machine that makes no event is taken together with a
line beside it, so that in every state of a command exactly one action is next: the request for a byte with the line after it,
every other with the line before it (log 12). -/

namespace Sys2Proof.Machine

/-! ### The serializer (R74) -/

/-- `S_IDLE`, request `(o, v)`: load the registers; no event. -/
def serLoad (o : BitOrder) (v : Byte) : SerRegs where
  sr := v
  ord := o
  cnt := 8
  ph := .data

/-- The bit `S_DATA` sends: `sr[7]` or `sr[0]`. -/
def serBit (r : SerRegs) : Bool :=
  match r.ord with
  | .msbFirst => r.sr.getLsbD 7
  | .lsbFirst => r.sr.getLsbD 0

/-- The shift register after a cell. -/
def serShift (r : SerRegs) : Byte :=
  match r.ord with
  | .msbFirst => r.sr <<< 1
  | .lsbFirst => r.sr >>> 1

/-- One line of R74 with its event; none in `S_IDLE`. -/
def serLine (r : SerRegs) : Option (PinEvent × SerRegs) :=
  match r.ph with
  | .idle => none
  | .data => some (.d (serBit r), { r with ph := .high })
  | .high => some (.c true, { r with ph := .low })
  | .low => some (.c false, { r with sr := serShift r, cnt := r.cnt - 1, ph := if r.cnt - 1 = 0 then .idle else .data })

/-- One step of R74: with a request in `S_IDLE` the registers are loaded and no event is made; otherwise a line. -/
def serStep (request : Option (BitOrder × Byte)) (r : SerRegs) : SerRegs × List PinEvent :=
  match serLine r, request with
  | some (e, r'), _ => (r', [e])
  | none, some (o, v) => (serLoad o v, [])
  | none, none => (r, [])

/-! ### The broadcaster (R86) -/

/-- `F_IDLE`, request `(mode, tgt, a, v)`: load the registers; no event. -/
def bcLoad (mode : PairMode) (tgt : BitVec 4) (a v : Byte) : BcRegs where
  pos := 0
  half := false
  fph := .openLow
  mode := mode
  areg := a
  vreg := v
  tgt := tgt

/-- `Select(mode, pos, half)`. In the mode `BUFFER` the value byte is the one R85 states, free where it states none;
`draws` is the number of draws made so far, that of this request included. -/
def bcSelect (buf : Memory) (draws : Nat) (b : BcRegs) : Byte :=
  match b.mode with
  | .same => if b.half then b.vreg else b.areg
  | .addressed => if b.pos = b.tgt then (if b.half then b.vreg else b.areg) else 0
  | .buffer => if b.half then columnByte buf (draws - 1) b.areg b.pos.toNat else b.areg

/-- "After the byte": the next half of the pair, the next pair, or the end of the pairs; `pos` is tested before it is
incremented (90_conflicts.md C13). -/
def bcAfterByte (n : BitVec 4) (b : BcRegs) : BcRegs :=
  if b.half = false then { b with half := true }
  else { b with half := false, pos := b.pos + 1, fph := if b.pos = n - 1 then .closeLow else b.fph }

/-- The serializer as it sends in `F_PAIRS`: with `ser_busy = 0` it takes the request for the byte that `Select` gives, most
significant bit first; otherwise it goes on with its byte. -/
def bcServe (buf : Memory) (draws : Nat) (b : BcRegs) (r : SerRegs) : SerRegs :=
  if r.serBusy then r else serLoad .msbFirst (bcSelect buf draws b)

/-- One event of the broadcaster over the serializer. After the last `C(0)` of a byte `ser_busy` is 0 (R72), and the next
byte is requested with its first data event. In `F_IDLE` the serializer may be sending a byte requested at its own port
(R72). -/
def bcLine (n : BitVec 4) (buf : Memory) (draws : Nat) (b : BcRegs) (r : SerRegs) : Option (PinEvent × BcRegs × SerRegs) :=
  match b.fph with
  | .idle =>
    match serLine r with
    | some (e, r') => some (e, b, r')
    | none => none
  | .openLow => some (.l false, { b with fph := .pairs }, r)
  | .pairs =>
    match serLine (bcServe buf draws b r) with
    | some (e, r') => some (e, if r'.serBusy then b else bcAfterByte n b, r')
    | none => none
  | .closeLow => some (.l false, { b with fph := .closeHigh }, r)
  | .closeHigh => some (.l true, { b with fph := .idle }, r)

/-! ### The driver (R115) -/

/-- What the driver does after one of its lines: another line of its own, a frame, or nothing more. -/
inductive DriverNext where
  | stay
  | frame
  | done
deriving DecidableEq, Repr

/-- The frame the driver requests at this point of a command. `kcnt` counts the local column of `RELOAD` and `CLEAR`,
`istep` the parts of `INIT`. -/
def driverFrame (cfg : Config) (buf : Memory) (i : Instr) (d : DrvRegs) : BcRegs :=
  let columnReg : Byte := regAddr d.kcnt.toNat
  match i with
  | .init =>
    if d.istep = 1 then bcLoad .same 0 cfg.regScanLimit 0x07
    else if d.istep = 2 then bcLoad .same 0 cfg.regDecodeMode 0x00
    else if d.istep = 3 then bcLoad .same 0 cfg.regShutdown 0x01
    else if d.istep = 4 then bcLoad .same 0 cfg.regDisplayTest 0x00
    else if d.istep = 5 then bcLoad .same 0 columnReg 0x00
    else bcLoad .same 0 cfg.regIntensity 0x0F
  | .clear => bcLoad .same 0 columnReg 0x00
  | .setIntensity level => bcLoad .same 0 cfg.regIntensity level
  | .setColumn col value => bcLoad .addressed (BitVec.ofNat 4 (chipIndex col)) (regAddr (localCol col)) value
  | .setColumnAll col value => bcLoad .same 0 (regAddr col.toNat) value
  | .setDot col row val =>
    bcLoad .addressed (BitVec.ofNat 4 (chipIndex col)) (regAddr (localCol col)) (updatedByte (Memory.read buf col.toNat) row val)
  | .shiftLeft _ _ | .shiftRight _ _ | .shiftUp _ | .shiftDown _ | .reload => bcLoad .buffer 0 columnReg 0x00
  | .updateBufferAt _ _ _ | .serMsb _ | .serLsb _ | .bcSame _ _ | .bcAddr _ _ _ | .bcBuf _ => BcRegs.reset

/-- Acceptance: `cmdreg <- w`, the counters cleared; the horizontal shifts save the byte their sweep overwrites first. -/
def driverStart (buf : Memory) (i : Instr) : DrvRegs where
  cmdreg := commandWord i
  kcnt := 0
  idx := match i with
    | .shiftRight _ _ => 1
    | _ => 0
  istep := 0
  saved := match i with
    | .shiftLeft _ _ => Memory.read buf 0
    | .shiftRight _ _ => Memory.read buf 0
    | _ => 0

/-- What comes first in a command: a frame, where the command begins with one (R115: "buffer half first, except in
`CLEAR`"); else a line of the driver's own. -/
def driverFirst (i : Instr) : DriverNext :=
  match i with
  | .clear | .setIntensity _ | .reload => .frame
  | _ => .stay

/-- One line of the driver's own, while no frame is in progress: `INIT`'s opening clock event, or one buffer write with
`idx` as the sweep counter. `SHIFT_RIGHT` sweeps upward and carries the byte it overwrites in `saved`, in the order of its
action list (log 13). -/
def driverLine (cfg : Config) (n : Nat) (buf : Memory) (i : Instr) (d : DrvRegs) : Option (Action × DrvRegs × DriverNext) :=
  let at' := d.idx.toNat
  let next : DrvRegs := { d with idx := d.idx + 1 }
  match i with
  | .init =>
    if d.istep = 0 then some (.pin (.c true), { d with istep := 1 }, .frame)
    else if d.idx = 79 then some (.wr at' 0, { d with istep := 6 }, .frame)
    else some (.wr at' 0, next, .stay)
  | .clear => if d.idx = 79 then some (.wr at' 0, d, .done) else some (.wr at' 0, next, .stay)
  | .setColumn col value => some (.wr col.toNat value, d, .frame)
  | .setColumnAll col value =>
    let w := Action.wr (columnAllIndex cfg.columnAllIndexing col at') value
    if at' + 1 = n then some (w, d, .frame) else some (w, next, .stay)
  | .updateBufferAt col row val => some (.wr col.toNat (updatedByte (Memory.read buf col.toNat) row val), d, .done)
  | .setDot col row val => some (.wr col.toNat (updatedByte (Memory.read buf col.toNat) row val), d, .frame)
  | .shiftLeft rotate fillZero =>
    if d.idx = 79 then some (.wr 79 (if rotate then d.saved else 0), d, .frame)
    else if d.idx = 78 && !(rotate || fillZero) then some (.wr at' (Memory.read buf (at' + 1)), d, .frame)
    else some (.wr at' (Memory.read buf (at' + 1)), next, .stay)
  | .shiftRight rotate fillZero =>
    let carried : DrvRegs := { d with saved := Memory.read buf at' }
    if d.idx = 0 then some (.wr 0 (if rotate then d.saved else 0), d, .frame)
    else if d.idx = 79 then
      (if rotate || fillZero then some (.wr at' d.saved, { carried with idx := 0 }, .stay) else some (.wr at' d.saved, carried, .frame))
    else some (.wr at' d.saved, { carried with idx := d.idx + 1 }, .stay)
  | .shiftUp rotate =>
    let w := Action.wr at' (shiftByteUp rotate (Memory.read buf at'))
    if at' + 1 = colsPerChip * n then some (w, d, .frame) else some (w, next, .stay)
  | .shiftDown rotate =>
    let w := Action.wr at' (shiftByteDown rotate (Memory.read buf at'))
    if at' + 1 = colsPerChip * n then some (w, d, .frame) else some (w, next, .stay)
  | .setIntensity _ | .reload | .serMsb _ | .serLsb _ | .bcSame _ _ | .bcAddr _ _ _ | .bcBuf _ => none

/-- After the `L(1)` of a frame: the next column, the next part of `INIT`, or the end of the command. -/
def driverAfterFrame (i : Instr) (d : DrvRegs) : DrvRegs × DriverNext :=
  let column : DrvRegs := { d with kcnt := d.kcnt + 1 }
  let more (last : DriverNext) : DrvRegs × DriverNext := (column, if d.kcnt = 7 then last else .frame)
  match i with
  | .init =>
    if d.istep = 5 then more .stay
    else if d.istep = 6 then (d, .done)
    else ({ d with istep := d.istep + 1 }, .frame)
  | .clear => more .stay
  | .shiftLeft _ _ | .shiftRight _ _ | .shiftUp _ | .shiftDown _ | .reload => more .done
  | .setIntensity _ | .setColumn _ _ | .setColumnAll _ _ | .updateBufferAt _ _ _ | .setDot _ _ _ => (d, .done)
  | .serMsb _ | .serLsb _ | .bcSame _ _ | .bcAddr _ _ _ | .bcBuf _ => (d, .done)

/-- The registers of the three machines. -/
structure SeqRegs where
  ser : SerRegs
  bc : BcRegs
  drv : DrvRegs
deriving DecidableEq, Repr

/-- Take the driver's next move: request a frame, or, at the end of the command, clear `cmdreg` (log 13). -/
def driverSettle (cfg : Config) (buf : Memory) (i : Instr) (next : DriverNext) (q : SeqRegs) : SeqRegs :=
  match next with
  | .stay => q
  | .frame => { q with bc := driverFrame cfg buf i q.drv }
  | .done => { q with drv := { q.drv with cmdreg := 0 } }

/-- The registers of a state. -/
def State.seqRegs (s : State) : SeqRegs where
  ser := s.ser
  bc := s.bc
  drv := s.drv

/-- The state with these registers. -/
def State.withSeqRegs (s : State) (q : SeqRegs) : State := { s with ser := q.ser, bc := q.bc, drv := q.drv }

/-- The registers when a command has been accepted. -/
def seqStart (cfg : Config) (buf : Memory) (i : Instr) (q : SeqRegs) : SeqRegs :=
  driverSettle cfg buf i (driverFirst i) { q with drv := driverStart buf i }

/-- The next action of the machines and their registers after it; none when all three are idle. -/
def seqAdvance (cfg : Config) (n : BitVec 4) (buf : Memory) (draws : Nat) (q : SeqRegs) : Option (Action × SeqRegs) :=
  match bcLine n buf draws q.bc q.ser, decodeCommand q.drv.cmdreg with
  | some (e, b, r), .error _ => some (.pin e, { q with bc := b, ser := r })
  | some (e, b, r), .ok i =>
    if q.bc.fph = .closeHigh then
      let after := driverAfterFrame i q.drv
      some (.pin e, driverSettle cfg buf i after.2 { bc := b, ser := r, drv := after.1 })
    else some (.pin e, { q with bc := b, ser := r })
  | none, .error _ => none
  | none, .ok i =>
    match driverLine cfg n.toNat buf i q.drv with
    | some (a, d, next) => some (a, driverSettle cfg buf i next { q with drv := d })
    | none => none

/-- The framebuffer after an action. -/
def bufAfter (a : Action) (buf : Memory) : Memory :=
  match a with
  | .pin _ => buf
  | .wr i v => Memory.write buf i v

/-- The actions the machines perform from these registers, at most `fuel` of them, each write done before the next action,
and the registers they end with. -/
def seqUnroll (cfg : Config) (n : BitVec 4) (draws : Nat) : Nat → Memory → SeqRegs → List Action × SeqRegs
  | 0, _, q => ([], q)
  | fuel + 1, buf, q =>
    match seqAdvance cfg n buf draws q with
    | none => ([], q)
    | some (a, q') =>
      let later := seqUnroll cfg n draws fuel (bufAfter a buf) q'
      (a :: later.1, later.2)

/-- All three machines are idle: `S_IDLE`, `F_IDLE`, and no command word in progress. -/
def SeqRegs.idle (q : SeqRegs) : Bool := decide (q.ser.ph = .idle) && decide (q.bc.fph = .idle) && decide (q.drv.cmdreg = 0)

/-- The registers after the next action, for a step that performs it. -/
def State.advanceSeq (s : State) : SeqRegs :=
  match seqAdvance s.config s.chainLen s.buf s.draws s.seqRegs with
  | some (_, q) => q
  | none => s.seqRegs

end Sys2Proof.Machine
end

