-- ==== Sys2Proof/Machine/Accept.lean ====
section
/-! DEFINITION. Accepting an instruction (10_state.md R18, 30_encoding.md R50, R45): the two shared operations that every
meaning calls. A command expands at acceptance to the list of its actions, which the steps that follow perform; an operand
out of range is the fault `OperandRange` before any effect (60_exceptions.md R120, R122). An instruction presented while the
block cannot accept one "is neither accepted nor remembered" (R50): the state stays as it is. A request is taken when its
sub-block is free (40_serializer.md R72). -/

namespace Sys2Proof.Machine

/-- Accept a command with the action list `q`, or raise `OperandRange` when its operands are not `inRange`. -/
def acceptCommand (i : Instr) (inRange : Bool) (q : List Action) (s : State) : Host.Outcome State Fault Refusal :=
  if s.configured = false then .refused .notAConfiguration
  else if s.canAccept = false then .next s
  else if inRange = false then .next (raise .operandRange s)
  else .next { (s.withSeqRegs (seqStart s.config s.buf i s.seqRegs)) with queue := q, busy := busyWith q }

/-- Take a request at a sub-block's own port when the port is `free`, with the events `es` it makes, the registers it loads and
the number of free values it draws (40_serializer.md R72; 41_broadcaster.md R86; log 7). A request at a port that is not free
waits. The fault code stays as it is (R70). -/
def takeRequest (free : Bool) (es : List PinEvent) (load : SeqRegs → SeqRegs) (drawn : Nat) (s : State) : Host.Outcome State Fault Refusal :=
  if s.configured = false then .refused .notAConfiguration
  else if free = false then .next s
  else .next { (s.withSeqRegs (load s.seqRegs)) with queue := pins es, busy := busyWith (pins es), draws := s.draws + drawn }

/-- Accepting a word that is no command raises `IllegalCommand` and has no other effect (30_encoding.md R60,
60_exceptions.md R121). -/
def acceptIllegal (s : State) : Host.Outcome State Fault Refusal :=
  if s.configured = false then .refused .notAConfiguration
  else if s.canAccept = false then .next s
  else .next (raise .illegalCommand s)

end Sys2Proof.Machine
end

