-- ==== Sys2Proof/Machine/Events.lean ====
section
/-! DEFINITION. The event lists of the wire format: the bit cell (30_encoding.md R61), `SER` (40_serializer.md R70, R71),
`PAIR` (41_broadcaster.md R80), `FRAME` (R81), the pairs of the three kinds of frame (R82, R84, R85), and the eight frames
of `CLEAR` (R95) and of `RELOAD` (R111). -/

namespace Sys2Proof.Machine

/-- One bit cell: data, clock high, clock low (R61). -/
def cell (b : Bool) : List PinEvent := [.d b, .c true, .c false]

/-- The bit of `v` in cell `i`: `v[7 − i]` or `v[i]` (R70, R71). -/
def cellBit (o : BitOrder) (v : Byte) (i : Nat) : Bool :=
  match o with
  | .msbFirst => v.getLsbD (7 - i)
  | .lsbFirst => v.getLsbD i

/-- `SER(v, o)`: eight cells (R70, R71). -/
def serEvents (o : BitOrder) (v : Byte) : List PinEvent := (List.range 8).flatMap fun i => cell (cellBit o v i)

/-- A pair: address byte, value byte (R62). -/
abbrev Pair := Byte × Byte

/-- `PAIR(a, v)`: the address byte, then the value byte, both bit 7 first (R80). -/
def pairEvents (p : Pair) : List PinEvent := serEvents .msbFirst p.1 ++ serEvents .msbFirst p.2

/-- `FRAME(p)`: load low, the pairs in ascending position, load low again, load high (R81). -/
def frameEvents (ps : List Pair) : List PinEvent := .l false :: (ps.flatMap pairEvents ++ [.l false, .l true])

/-- The same pair for every chip (R82). -/
def samePairs (n : Nat) (a v : Byte) : List Pair := List.replicate n (a, v)

/-- The pair for the chip index `t`, the no-operation pair for every other (R84). -/
def addressedPairs (n t : Nat) (a v : Byte) : List Pair :=
  (List.range n).map fun i => if i = t then (a, v) else (0, 0)

/-- For every chip its byte of the column that the address byte `a` names (R85). -/
def bufferPairs (n : Nat) (buf : Memory) (draw : Nat) (a : Byte) : List Pair :=
  (List.range n).map fun i => (a, columnByte buf draw a i)

/-- The eight frames of `RELOAD`, frame `k` carrying local column `k` of every chip (R111). -/
def reloadEvents (n : Nat) (buf : Memory) : List PinEvent :=
  (List.range 8).flatMap fun k => frameEvents ((List.range n).map fun i => (regAddr k, Memory.read buf (i * colsPerChip + k)))

/-- The eight frames of `CLEAR`, registers 1 to 8, value 0 (R95). -/
def clearEvents (n : Nat) : List PinEvent := (List.range 8).flatMap fun k => frameEvents (samePairs n (regAddr k) 0)

end Sys2Proof.Machine
end

