-- ==== Sys2Proof/Machine/Broadcaster.lean ====
section
/-! DEFINITION. The Command Broadcaster's requests (41_broadcaster.md R82, R84, R85). Addresses and values are not checked;
the buffer is read only by `BC_BUF` and never written (R81). -/

namespace Sys2Proof.Machine

/-- `BC_SAME a, v` (R82, R83): the same pair to every chip. -/
def execBcSame (a v : Byte) (s : State) : Host.Outcome State Fault Refusal :=
  takeRequest s.bcTakes (frameEvents (samePairs s.chips a v)) (fun q => { q with bc := bcLoad .same 0 a v }) 0 s

/-- `BC_ADDR n, a, v` (R84): the pair to the chip `n`, no-operation pairs to the others. -/
def execBcAddr (n : BitVec 4) (a v : Byte) (s : State) : Host.Outcome State Fault Refusal :=
  takeRequest s.bcTakes (frameEvents (addressedPairs s.chips n.toNat a v)) (fun q => { q with bc := bcLoad .addressed n a v })
    0 s

/-- `BC_BUF k` by its address byte `a = k + 1` (R85): to every chip its own byte of the column. -/
def execBcBuf (a : Byte) (s : State) : Host.Outcome State Fault Refusal :=
  takeRequest s.bcTakes (frameEvents (bufferPairs s.chips s.buf s.draws a)) (fun q => { q with bc := bcLoad .buffer 0 a 0 })
    (columnDraws a) s

end Sys2Proof.Machine
end

