-- ==== Sys2Proof/Machine/Driver.lean ====
section
/-! DEFINITION. The Matrix Driver's commands `INIT` (44_driver_ops.md R112), `RELOAD` (R111) and `SET_INTENSITY` (R113), and
`CLEAR` (42_buffer_ops.md R95), which `INIT` contains. -/

namespace Sys2Proof.Machine

/-- The buffer writes of `CLEAR`: zero to all 80 bytes (R95). -/
def clearWrites : List (Nat × Byte) := (List.range bufLen).map fun i => (i, 0)

/-- The actions of `CLEAR`: the eight frames, then the 80 writes (R95). -/
def clearActions (n : Nat) : List Action := pins (clearEvents n) ++ writes clearWrites

/-- The event and the four frames `INIT` makes before `CLEAR`: clock high, scan limit 7, decode mode 0, shutdown 1, display
test 0 (R112, R144). -/
def initOpening (cfg : Config) (n : Nat) : List PinEvent :=
  .c true :: (frameEvents (samePairs n cfg.regScanLimit 0x07) ++ frameEvents (samePairs n cfg.regDecodeMode 0x00) ++
    frameEvents (samePairs n cfg.regShutdown 0x01) ++ frameEvents (samePairs n cfg.regDisplayTest 0x00))

/-- The frame of `SET_INTENSITY level` (R113). -/
def intensityEvents (cfg : Config) (n : Nat) (level : Byte) : List PinEvent := frameEvents (samePairs n cfg.regIntensity level)

/-- `INIT` (R112): clock high, four global registers, `CLEAR`, intensity 15. -/
def execInit (s : State) : Host.Outcome State Fault Refusal :=
  acceptCommand .init true
    (pins (initOpening s.config s.chips) ++ clearActions s.chips ++ pins (intensityEvents s.config s.chips 0x0F)) s

/-- `CLEAR` (R95). -/
def execClear (s : State) : Host.Outcome State Fault Refusal := acceptCommand .clear true (clearActions s.chips) s

/-- `SET_INTENSITY level` (R113): any byte is sent unchanged. -/
def execSetIntensity (level : Byte) (s : State) : Host.Outcome State Fault Refusal :=
  acceptCommand (.setIntensity level) true (pins (intensityEvents s.config s.chips level)) s

/-- `RELOAD` (R111): no buffer write. -/
def execReload (s : State) : Host.Outcome State Fault Refusal :=
  acceptCommand .reload true (pins (reloadEvents s.chips s.buf)) s

end Sys2Proof.Machine
end

