-- ==== Sys2Proof/Machine/Pixel.lean ====
section
/-! DEFINITION. The pixel and column commands (42_buffer_ops.md R90 to R94): the buffer first, then the bus (R90). -/

namespace Sys2Proof.Machine

/-- The byte that `UPDATE_BUFFER_AT` and `SET_DOT` write to `buf[col]` (R91, R92). -/
def pixelByte (s : State) (col row : Byte) (val : Bool) : Byte := updatedByte (Memory.read s.buf col.toNat) row val

/-- The frame of an addressed column write (41_broadcaster.md R84): chip `col / 8`, register `col % 8 + 1`. -/
def columnFrame (n : Nat) (col value : Byte) : List PinEvent :=
  frameEvents (addressedPairs n (chipIndex col) (regAddr (localCol col)) value)

/-- `UPDATE_BUFFER_AT col, row, val` (R91): one buffer write and no bus traffic. -/
def execUpdateBufferAt (col row : Byte) (val : Bool) (s : State) : Host.Outcome State Fault Refusal :=
  acceptCommand (.updateBufferAt col row val) (pixelInRange s.chips col row) (writes [(col.toNat, pixelByte s col row val)]) s

/-- `SET_DOT col, row, val` (R92): the same update, then the whole updated byte to its chip. -/
def execSetDot (col row : Byte) (val : Bool) (s : State) : Host.Outcome State Fault Refusal :=
  acceptCommand (.setDot col row val) (pixelInRange s.chips col row)
    (writes [(col.toNat, pixelByte s col row val)] ++ pins (columnFrame s.chips col (pixelByte s col row val))) s

/-- `SET_COLUMN col, value` (R93). -/
def execSetColumn (col value : Byte) (s : State) : Host.Outcome State Fault Refusal :=
  acceptCommand (.setColumn col value) (columnInRange s.chips col)
    (writes [(col.toNat, value)] ++ pins (columnFrame s.chips col value)) s

/-- The buffer writes of `SET_COLUMN_ALL`, one for each position, by the index rule in force (R94). -/
def columnAllWrites (rule : ColumnAllIndexing) (n : Nat) (col value : Byte) : List (Nat × Byte) :=
  (List.range n).map fun i => (columnAllIndex rule col i, value)

/-- `SET_COLUMN_ALL col, value` (R94): the buffer by the index rule, then the column broadcast (R83). -/
def execSetColumnAll (col value : Byte) (s : State) : Host.Outcome State Fault Refusal :=
  acceptCommand (.setColumnAll col value) (localColumnInRange col)
    (writes (columnAllWrites s.config.columnAllIndexing s.chips col value) ++
      pins (frameEvents (samePairs s.chips (regAddr col.toNat) value))) s

end Sys2Proof.Machine
end

