-- ==== Sys2Proof/Machine/Serializer.lean ====
section
/-! DEFINITION. The Bit Serializer's requests (40_serializer.md R70, R71, R72). -/

namespace Sys2Proof.Machine

/-- `SER_MSB v` (R70). -/
def execSerMsb (v : Byte) (s : State) : Host.Outcome State Fault Refusal :=
  takeRequest s.serTakes (serEvents .msbFirst v) (fun q => { q with ser := serLoad .msbFirst v }) 0 s

/-- `SER_LSB v` (R71). -/
def execSerLsb (v : Byte) (s : State) : Host.Outcome State Fault Refusal :=
  takeRequest s.serTakes (serEvents .lsbFirst v) (fun q => { q with ser := serLoad .lsbFirst v }) 0 s

end Sys2Proof.Machine
end

