-- ==== Sys2Proof/Machine/Shift.lean ====
section
/-! DEFINITION. The shift commands (43_shift_ops.md R100 to R104). Every read is of the buffer at acceptance (R100); the
`RELOAD` that ends each command is of the buffer as the shift leaves it. -/

namespace Sys2Proof.Machine

/-- The write to the vacated edge byte: the byte shifted out under `rotate`, which wins (D13), zero under `fill_zero`, no
write with both flags false (R101, R102). -/
def edgeWrite (rotate fillZero : Bool) (edge : Nat) (shiftedOut : Byte) : List (Nat × Byte) :=
  if rotate then [(edge, shiftedOut)] else if fillZero then [(edge, 0)] else []

/-- The buffer writes of `SHIFT_LEFT` (R101): indices 0 to 78, then the edge 79. -/
def shiftLeftWrites (old : Memory) (rotate fillZero : Bool) : List (Nat × Byte) :=
  ((List.range 79).map fun i => (i, Memory.read old (i + 1))) ++ edgeWrite rotate fillZero 79 (Memory.read old 0)

/-- The buffer writes of `SHIFT_RIGHT` (R102): indices 1 to 79, then the edge 0. -/
def shiftRightWrites (old : Memory) (rotate fillZero : Bool) : List (Nat × Byte) :=
  ((List.range 79).map fun i => (i + 1, Memory.read old i)) ++ edgeWrite rotate fillZero 0 (Memory.read old 79)

/-- The buffer writes of a vertical shift by the byte function `f`: the active window only (R103, R104). -/
def verticalWrites (n : Nat) (old : Memory) (f : Byte → Byte) : List (Nat × Byte) :=
  (List.range (colsPerChip * n)).map fun c => (c, f (Memory.read old c))

/-- The actions of a shift: its writes, then the whole of `RELOAD` from the buffer they leave (R100). -/
def shiftActions (n : Nat) (old : Memory) (ws : List (Nat × Byte)) : List Action :=
  writes ws ++ pins (reloadEvents n (Memory.writeAll old ws))

/-- `SHIFT_LEFT rotate, fill_zero` (R101). -/
def execShiftLeft (rotate fillZero : Bool) (s : State) : Host.Outcome State Fault Refusal :=
  acceptCommand (.shiftLeft rotate fillZero) true (shiftActions s.chips s.buf (shiftLeftWrites s.buf rotate fillZero)) s

/-- `SHIFT_RIGHT rotate, fill_zero` (R102). -/
def execShiftRight (rotate fillZero : Bool) (s : State) : Host.Outcome State Fault Refusal :=
  acceptCommand (.shiftRight rotate fillZero) true (shiftActions s.chips s.buf (shiftRightWrites s.buf rotate fillZero)) s

/-- `SHIFT_UP rotate` (R103): toward bit 0. -/
def execShiftUp (rotate : Bool) (s : State) : Host.Outcome State Fault Refusal :=
  acceptCommand (.shiftUp rotate) true (shiftActions s.chips s.buf (verticalWrites s.chips s.buf (shiftByteUp rotate))) s

/-- `SHIFT_DOWN rotate` (R104): toward bit 7. -/
def execShiftDown (rotate : Bool) (s : State) : Host.Outcome State Fault Refusal :=
  acceptCommand (.shiftDown rotate) true (shiftActions s.chips s.buf (verticalWrites s.chips s.buf (shiftByteDown rotate))) s

end Sys2Proof.Machine
end

