-- ==== Sys2Proof/Machine/Dispatch.lean ====
section
/-! DEFINITION. One arm per instruction. -/

namespace Sys2Proof.Machine

def exec (i : Instr) (s : State) : Host.Outcome State Fault Refusal :=
  match i with
  | .init => Sys2Proof.Machine.execInit s
  | .clear => Sys2Proof.Machine.execClear s
  | .setIntensity level => Sys2Proof.Machine.execSetIntensity level s
  | .setColumn col value => Sys2Proof.Machine.execSetColumn col value s
  | .setColumnAll col value => Sys2Proof.Machine.execSetColumnAll col value s
  | .updateBufferAt col row val => Sys2Proof.Machine.execUpdateBufferAt col row val s
  | .setDot col row val => Sys2Proof.Machine.execSetDot col row val s
  | .shiftLeft rotate fillZero => Sys2Proof.Machine.execShiftLeft rotate fillZero s
  | .shiftRight rotate fillZero => Sys2Proof.Machine.execShiftRight rotate fillZero s
  | .shiftUp rotate => Sys2Proof.Machine.execShiftUp rotate s
  | .shiftDown rotate => Sys2Proof.Machine.execShiftDown rotate s
  | .reload => Sys2Proof.Machine.execReload s
  | .serMsb v => Sys2Proof.Machine.execSerMsb v s
  | .serLsb v => Sys2Proof.Machine.execSerLsb v s
  | .bcSame a v => Sys2Proof.Machine.execBcSame a v s
  | .bcAddr n a v => Sys2Proof.Machine.execBcAddr n a v s
  | .bcBuf a => Sys2Proof.Machine.execBcBuf a s

end Sys2Proof.Machine
end

