-- ==== Sys2Proof/Machine/Fetch.lean ====
section
/-! DEFINITION. What one step does: a reset when the host asserts one (70_reset_and_hazards.md R141), else the next action
of the command in progress (10_state.md R18), else the acceptance of the word the host presents (30_encoding.md R50), else
nothing: "after reset the block is idle ... and does nothing until the host presents a command" (R140). -/

namespace Sys2Proof.Machine

/-- The host's moves after a step that takes none of them: a `wait` passes, anything presented is held (R50). -/
def afterWait (inputs : List HostMove) : List HostMove :=
  match inputs with
  | .wait :: rest => rest
  | _ => inputs

/-- Perform the action `a`, with `rest` left in the queue (R18); `busy` falls with the last one (R16). -/
def performNext (a : Action) (rest : List Action) (s : State) : Host.Outcome State Fault Refusal :=
  match performAction a s with
  | .next t => .next { (t.withSeqRegs s.advanceSeq) with queue := rest, busy := busyWith rest, inputs := afterWait s.inputs }
  | .fault f => .fault f
  | .refused r => .refused r

/-- Run the decoded instruction of an accepted command word, or take `IllegalCommand` (R52, R60, R121). -/
def runCommandWord (w : CmdWord) (s : State) : Host.Outcome State Fault Refusal :=
  match decode (.cmd w) with
  | .ok i => exec i s
  | .error _ => acceptIllegal s

/-- Run the request that a word at a sub-block's port stands for (R64, R72). -/
def runRequestWord (p : PortWord) (s : State) : Host.Outcome State Fault Refusal :=
  match decode p with
  | .ok i => exec i s
  | .error _ => .refused .requestWithoutMeaning

/-- What the host's next move does when no action is pending. A word is taken off the port when it is accepted (R45); a command
word presented while the block is faulted is held and nothing happens (R50, U13). A request is taken when its sub-block is
free, `ser_busy = 0` (R72; log 7). -/
def hostStep (s : State) : Host.Outcome State Fault Refusal :=
  match s.inputs with
  | [] => .next s
  | .wait :: rest => .next { s with inputs := rest }
  | .reset strap :: rest => resetBlock strap rest s
  | .command w :: rest => if s.canAccept then runCommandWord w { s with inputs := rest } else .next s
  | .serRequest w :: rest => if s.serTakes then runRequestWord (.ser w) { s with inputs := rest } else .next s
  | .bcRequest w :: rest => if s.bcTakes then runRequestWord (.bc w) { s with inputs := rest } else .next s

/-- One step of the block. -/
def stepBlock (s : State) : Host.Outcome State Fault Refusal :=
  match s.inputs, s.queue with
  | .reset strap :: rest, _ => resetBlock strap rest s
  | _, a :: rest => performNext a rest s
  | _, [] => hostStep s

/-- The host's move that presents a word at its port. -/
def presents (p : PortWord) : HostMove :=
  match p with
  | .cmd w => .command w
  | .ser w => .serRequest w
  | .bc w => .bcRequest w

/-- Can the port take this word now? -/
def State.takesWord (s : State) (p : PortWord) : Bool :=
  match p with
  | .cmd _ => s.canAccept
  | .ser _ => s.serTakes
  | .bc _ => s.bcTakes

/-- Make the state one that accepts a word, its machines idle, and put the word at the head of the host's moves (log 6). -/
def presentWord (s : State) (p : PortWord) : State :=
  { s with
    inputs := presents p :: s.inputs, queue := [], busy := false, fault := .none, ser := { s.ser with ph := .idle },
    bc := { s.bc with fph := .idle }, drv := { s.drv with cmdreg := 0 } }

end Sys2Proof.Machine
end

