-- ==== Sys2Proof/Machine/Step.lean ====
section
/-! DEFINITION. The step, and the placing of the instruction that the next step takes. -/

namespace Sys2Proof.Machine

/-- One step of the block (10_state.md R18). -/
def step (s : State) : Host.Outcome State Fault Refusal := stepBlock s

/-- The state with the instruction of `nbits` bits whose value is `w` presented at its port, so that the next step accepts
it (log 6, log 19). A value that no port's word has is presented nowhere. -/
def State.withFetchWord (s : State) (nbits w : Nat) : State :=
  match portWord nbits w with
  | some p => presentWord s p
  | none => s

end Sys2Proof.Machine
end

