-- ==== Sys2Proof/Machine/Wire.lean ====
section
/-! DEFINITION. What the bus side sees of the three pins, as functions of the trace (10_state.md R13, R14; 60_exceptions.md
R124). Observations, not state: the block never reads a pin (10_state.md R12). -/

namespace Sys2Proof.Machine

/-- The levels of the three pins. -/
structure Levels where
  data : Level
  clk : Level
  load : Level
deriving DecidableEq, Repr

/-- No request on any pin yet (R13: `X`). -/
def Levels.unknown : Levels where
  data := .x
  clk := .x
  load := .x

/-- The levels after a request that is carried out (R13). -/
def Levels.after (e : PinEvent) (w : Levels) : Levels :=
  match e with
  | .d b => { w with data := Level.ofBool b }
  | .c b => { w with clk := Level.ofBool b }
  | .l b => { w with load := Level.ofBool b }

/-- The levels after a list of requests, all carried out. -/
def Levels.afterAll (w : Levels) (es : List PinEvent) : Levels := es.foldl (fun w e => Levels.after e w) w

/-- The latches of a state. -/
def State.latches (s : State) : Levels where
  data := s.data
  clk := s.clk
  load := s.load

/-- The levels with the wire of the pin that a request names at the level `l`, whatever was asked for. -/
def Levels.drive (e : PinEvent) (l : Level) (w : Levels) : Levels :=
  match e with
  | .d _ => { w with data := l }
  | .c _ => { w with clk := l }
  | .l _ => { w with load := l }

/-- Did the write of a request fail? `drawn` is the environment's draw for it: none when the wire follows, else the level the
wire then has. Without `PIN_CAN_FAIL` no write fails (R124; 92_eei_decisions.md D19). -/
def writeFails (canFail : Bool) (drawn : Option Level) : Bool := canFail && drawn.isSome

/-- The wires after a request, for the environment's draw: a failed write leaves the wire of its pin at ANY level, the drawn
one (93_implementation_defined.md U3). -/
def Levels.request (canFail : Bool) (drawn : Option Level) (e : PinEvent) (w : Levels) : Levels :=
  match canFail, drawn with
  | true, some l => w.drive e l
  | true, none => w.after e
  | false, _ => w.after e

/-- The wires after the requests `es`, the first of which has the number `k` in the trace, for the environment's draws, one for
each event (R124). -/
def wiresFrom (canFail : Bool) (drawn : Nat → Option Level) : Nat → Levels → List PinEvent → Levels
  | _, w, [] => w
  | k, w, e :: es => wiresFrom canFail drawn (k + 1) (w.request canFail (drawn k) e) es

/-- The levels of the wires in a state, for the environment's draws (R124). Before its first request a pin is whatever the
platform leaves it at (R13), which reads as `X` here. -/
def State.wires (s : State) (drawn : Nat → Option Level) : Levels :=
  wiresFrom s.config.pinCanFail drawn 0 Levels.unknown s.trace

/-- The pin events among pending actions. -/
def eventsOf (q : List Action) : List PinEvent :=
  q.filterMap fun a => match a with
    | .pin e => some e
    | .wr _ _ => none

/-- The buffer writes among pending actions. -/
def writesOf (q : List Action) : List (Nat × Byte) :=
  q.filterMap fun a => match a with
    | .pin _ => none
    | .wr i v => some (i, v)

end Sys2Proof.Machine
end

