-- ==== Sys2Proof/Machine/Display.lean ====
section
/-! DEFINITION. The display image `Img` (60_exceptions.md R130, R131): an observation computed from the trace, defined on
frames and not on edges; and what the display shows when pin writes fail (70_reset_and_hazards.md R151). Observations: no state
of the block, and nothing of the block depends on them. -/

namespace Sys2Proof.Machine

/-- `Img`: from a chip index and a register address to a byte, or to "unknown" (R131). -/
abbrev Image := Nat → Byte → Option Byte

/-- Every entry unknown (R131: at reset). -/
def Image.unknown : Image := fun _ _ => none

/-- The pairs of a frame take effect: for every position `i` with `a_i ≠ 0`, `Img[i][a_i] <- v_i` (R131). -/
def Image.latch (ps : List Pair) (img : Image) : Image := fun i a =>
  match ps[i]? with
  | some p => if p.1 = a ∧ a ≠ 0 then some p.2 else img i a
  | none => img i a

/-- The byte of eight data bits, bit 7 first (30_encoding.md R61). -/
def byteOfBits (bits : List Bool) : Byte := BitVec.ofNat 8 (bits.foldl (fun acc b => 2 * acc + b.toNat) 0)

/-- The first `n` pairs of a list of data bits, address byte first (20_memory.md R38). -/
def pairsOfBits : Nat → List Bool → List Pair
  | 0, _ => []
  | n + 1, bits => (byteOfBits (bits.take 8), byteOfBits ((bits.drop 8).take 8)) :: pairsOfBits n (bits.drop 16)

/-- What an observer of the bus keeps: the data bits since the load line was pulled low, if a frame is open, and the image. -/
structure Observer where
  frame : Option (List Bool)
  image : Image

/-- The observer before the first event. -/
def Observer.start : Observer where
  frame := none
  image := Image.unknown

/-- What a pin event does to the observer of a chain of `n` chips: `L(0)` opens a frame, each cell of a frame gives its data
bit, `L(1)` latches the pairs (R81, R131). Events outside a frame change nothing. -/
def Observer.see (n : Nat) (o : Observer) (e : PinEvent) : Observer :=
  match e, o.frame with
  | .l false, none => { o with frame := some [] }
  | .l true, some bits => { frame := none, image := Image.latch (pairsOfBits n bits) o.image }
  | .d b, some bits => { o with frame := some (bits ++ [b]) }
  | .l false, some _ => o
  | .l true, none => o
  | .d _, none => o
  | .c _, _ => o

/-- The observer after a list of events. -/
def Observer.seeAll (n : Nat) (o : Observer) (es : List PinEvent) : Observer := es.foldl (Observer.see n) o

/-- The display image of a state: `Img` over its trace (R131). -/
def State.image (s : State) : Image := (Observer.seeAll s.chips Observer.start s.trace).image

/-- An observer to whom pin writes can fail. `spoiled`: a write has failed since the last frame began, so that the display is not
known to follow the frames. -/
structure Watch where
  obs : Observer
  spoiled : Bool

/-- The watch before the first event. -/
def Watch.start : Watch where
  obs := Observer.start
  spoiled := false

/-- Does the event begin a frame? -/
def Observer.begins (o : Observer) (e : PinEvent) : Bool := decide (e = .l false) && o.frame.isNone

/-- What a pin event does to the watch. `failed` says whether its write failed and `shows` is what the environment draws for the
display: while a write of the frame has failed the display is that draw, ANY image (U3, R124: nothing is promised of the chips).
A frame all of whose writes are carried out latches its pairs as `Img` does, so that sending everything again repairs the
display (R151). -/
def Watch.see (n : Nat) (failed : Bool) (shows : Image) (w : Watch) (e : PinEvent) : Watch :=
  let spoiled := (w.spoiled && !w.obs.begins e) || failed
  let o := w.obs.see n e
  { obs := if spoiled then { o with image := shows } else o, spoiled := spoiled }

/-- The watch after the requests `es`, the first of which has the number `k` in the trace, for the environment's draws of the wire
and of the display, one of each for each event. -/
def watchFrom (n : Nat) (canFail : Bool) (drawn : Nat → Option Level) (shows : Nat → Image) : Nat → Watch → List PinEvent → Watch
  | _, w, [] => w
  | k, w, e :: es => watchFrom n canFail drawn shows (k + 1) (w.see n (writeFails canFail (drawn k)) (shows k) e) es

/-- What the display shows in a state, for the environment's draws: `Img` where no write failed, and anything from a failed write
until it is sent again (R151, R124). -/
def State.shown (s : State) (drawn : Nat → Option Level) (shows : Nat → Image) : Image :=
  (watchFrom s.chips s.config.pinCanFail drawn shows 0 Watch.start s.trace).obs.image

end Sys2Proof.Machine
end

