-- ==== Sys2Proof/Safety.lean ====
section
/-! DEFINITION. The terms in which claims are stated: the invariant of the block, the agreement of the reference machines
with the action queue, a command that is complete (44_driver_ops.md R116), and a host that does not reset. -/

namespace Sys2Proof.Machine

/-- The invariant: a configuration of the hardware (R5, D7); the framebuffer in canonical form; `busy = 1` exactly when `Q` is
not empty (R16); queued writes inside the framebuffer (R18, R39); no write queued while faulted (R120: no command is then in
progress, though a sub-block may serve a request, log 7); each latch holds the last level requested on its pin (R13); and once
the queue is performed, the clock is not left high nor the load line low (R73, R87 (d)). -/
structure State.Inv (s : State) : Prop where
  configured : s.configured = true
  bufWf : Memory.wf s.buf = true
  busyIff : s.busy = busyWith s.queue
  queueInRange : ((writesOf s.queue).all fun w => decide (w.1 < bufLen)) = true
  faultNoWrite : s.fault ≠ .none → writesOf s.queue = []
  latchesOfTrace : s.latches = Levels.unknown.afterAll s.trace
  clockSettles : (s.latches.afterAll (eventsOf s.queue)).clk ≠ .high
  loadSettles : (s.latches.afterAll (eventsOf s.queue)).load ≠ .low

/-- What the reference machines are about to do: the actions they would perform without the queue, and the registers they
would end with. -/
def State.unrolled (s : State) : List Action × SeqRegs :=
  seqUnroll s.config s.chainLen s.draws s.queue.length s.buf s.seqRegs

/-- The reference machines are about to perform exactly the queued actions and to be idle after them (R75, R86, R115). -/
structure State.SeqAgrees (s : State) : Prop where
  actions : s.unrolled.1 = s.queue
  idleAfter : s.unrolled.2.idle = true

/-- Is the move a reset? -/
def HostMove.isReset (m : HostMove) : Bool :=
  match m with
  | .reset _ => true
  | .wait | .command _ | .serRequest _ | .bcRequest _ => false

/-- The host asserts no reset (so that a command runs to completion, 70_reset_and_hazards.md R141). -/
def State.undisturbed (s : State) : Bool := s.inputs.all fun m => !m.isReset

/-- The state in which an instruction can be presented and run to its end: the invariant, a block that can accept, and no
reset to come. -/
structure State.Ready (s : State) : Prop where
  inv : s.Inv
  accepts : s.canAccept = true
  undisturbed : s.undisturbed = true

/-- The state in which this instruction can be presented at its port and run to its end. For a command that is `Ready`; a
request needs its sub-block free, and a fault does not stop it (40_serializer.md R72; log 7). -/
structure State.ReadyFor (s : State) (i : Instr) : Prop where
  inv : s.Inv
  takes : s.takes i = true
  undisturbed : s.undisturbed = true

/-- The state `u` is where the pending actions of `t` lead when they have been performed, one a step, with the fault code as it
was. -/
structure PerformedTo (t u : State) : Prop where
  run : Host.Core.run core t.queue.length t = .next u
  queue : u.queue = []
  idle : u.busy = false
  fault : u.fault = t.fault

/-- The state `u` is the end of the instruction accepted in `t` (R116): the pending actions have been performed, one a step,
`Q = []`, `busy = 0`, and no fault is set. -/
structure CompletesTo (t u : State) : Prop where
  run : Host.Core.run core t.queue.length t = .next u
  queue : u.queue = []
  idle : u.busy = false
  fault : u.fault = .none

/-- Nothing that only a reset changes has changed (R11, R24). -/
structure SameSettings (s u : State) : Prop where
  config : u.config = s.config
  chainLen : u.chainLen = s.chainLen

/-- The instructions of a list run to their ends one after the other, each presented when the one before has completed
(30_encoding.md R65, 20_memory.md R42), and lead from `s` to `u`. -/
def RunsTo : List Instr → State → State → Prop
  | [], s, u => u = s
  | i :: rest, s, u => ∃ t v, exec i s = .next t ∧ CompletesTo t v ∧ RunsTo rest v u

/-- The command word with these four byte fields (30_encoding.md R51) stands for the instruction. -/
def EncodedAs (op a b v : Byte) (i : Instr) : Prop := decode (.cmd (cmdOf op a b v)) = .ok i

/-- A Boolean in bit 0 of a byte (30_encoding.md R51). -/
def inBit0 (b : Bool) : Byte := 0#7 ++ BitVec.ofBool b

/-- The flag byte of the horizontal shifts: `fill_zero` in bit 1, `rotate` in bit 0 (30_encoding.md R51). -/
def inBits10 (fillZero rotate : Bool) : Byte := 0#6 ++ BitVec.ofBool fillZero ++ BitVec.ofBool rotate

/-- The state with another answer to whether pin writes can fail (R124). -/
def State.withPinCanFail (s : State) (b : Bool) : State := { s with config := { s.config with pinCanFail := b } }

end Sys2Proof.Machine
end

