-- ==== Sys2Proof/Certificates/Slice0/Obligations.lean ====
section
/-! DEFINITION. The statements for the provers. Each docstring names the rule of spec/ it formalises. A statement about a
command says of its run: `exec` accepts it (10_state.md R18), as many steps of the block as it has actions perform it
(`CompletesTo`, 44_driver_ops.md R116), and what holds at the end. -/

open Sys2Proof Sys2Proof.Machine

/-! ### Encoding -/

/-- 30_encoding.md R51, R52, R53, R64: no bit of an operand is dropped, for every instruction and operand. -/
def Obligations.DecodeAfterEncodeIsIdentity : Prop :=
  ∀ i : Instr, decode (encode i) = .ok i

/-- 30_encoding.md R51, R60: each word has at most one reading, so an accepted word is the encoder's own. -/
def Obligations.EncodeAfterDecodeIsIdentity : Prop :=
  ∀ (p : PortWord) (i : Instr), decode p = .ok i → encode i = p

/-- 30_encoding.md R52: the rows of the opcode map, selected by mask and match. -/
def Obligations.CommandWordsSelectOneRow : Prop :=
  ∀ w : CmdWord,
    (∀ r ∈ opcodeRows, ∀ r' ∈ opcodeRows, r.selects w = true → r'.selects w = true → r = r') ∧
    (∀ i, decode (.cmd w) = .ok i → ∃ r ∈ opcodeRows, r.selects w = true ∧ r.mnemonic = mnemonicOf i) ∧
    (∀ r ∈ opcodeRows, r.selects w = true → ∃ i, decode (.cmd w) = .ok i ∧ mnemonicOf i = r.mnemonic)

/-- 30_encoding.md R53: the operands, bit by bit of the word. -/
def Obligations.OperandsAreTheFields : Prop :=
  ∀ (w : CmdWord) (i : Instr), decode (.cmd w) = .ok i →
    match i with
    | .setIntensity level => ∀ k < 8, level.getLsbD k = w.getLsbD k
    | .setColumn col value | .setColumnAll col value =>
      ∀ k < 8, col.getLsbD k = w.getLsbD (16 + k) ∧ value.getLsbD k = w.getLsbD k
    | .updateBufferAt col row val | .setDot col row val =>
      (∀ k < 8, col.getLsbD k = w.getLsbD (16 + k) ∧ row.getLsbD k = w.getLsbD (8 + k)) ∧ val = w.getLsbD 0
    | .shiftLeft rotate fillZero | .shiftRight rotate fillZero => rotate = w.getLsbD 8 ∧ fillZero = w.getLsbD 9
    | .shiftUp rotate | .shiftDown rotate => rotate = w.getLsbD 8
    | .init | .clear | .reload => True
    | .serMsb _ | .serLsb _ | .bcSame _ _ | .bcAddr _ _ _ | .bcBuf _ => False

/-- 95_test_vectors.md and 30_encoding.md R52, R64: words written out, one or more of each family. -/
def Obligations.SampleWordsDecode : Prop :=
  decode (.cmd 0x01000000) = .ok .init ∧ decode (.cmd 0x03000003) = .ok (.setIntensity 3) ∧
  decode (.cmd 0x040900A5) = .ok (.setColumn 9 0xA5) ∧ decode (.cmd 0x07030201) = .ok (.setDot 3 2 true) ∧
  decode (.cmd 0x08000200) = .ok (.shiftLeft false true) ∧ decode (.cmd 0x0A000100) = .ok (.shiftUp true) ∧
  decode (.ser 0b100001011) = .ok (.serLsb 0x0B) ∧ decode (.bc 0b0100100000010111000011) = .ok (.bcAddr 2 0x05 0xC3) ∧
  decode (.bc 0b1000000000010000000000) = .ok (.bcBuf 4) ∧ decode (.cmd 0x0D000000) = .error .undefinedOp

/-! ### Steps, acceptance and the port -/

/-- 10_state.md R18 (accept), 30_encoding.md R50, 20_memory.md R45: when its port takes it, the step runs the decoded instruction,
the word taken off the port. Those rules speak of the command port, which takes a word when `cmd_ready = 1` and nothing is queued.
A request is taken when `ser_busy = 0` (40_serializer.md R72), one of the broadcaster in `F_IDLE` (41_broadcaster.md R86), whatever
the fault code; that it waits while actions are pending, and runs as a command does, is the model's choice (log 7). -/
def Obligations.StepRunsTheDecodedInstruction : Prop :=
  ∀ (s : State) (p : PortWord) (rest : List HostMove) (i : Instr),
    s.inputs = presents p :: rest → s.takesWord p = true → decode p = .ok i → step s = exec i { s with inputs := rest }

/-- 10_state.md R18 (perform), R13, R14, R16: a step with pending actions and no reset performs the first of them, and that
only. R16 and R18 speak of a command's actions; that the events of a request at a sub-block's port are queued and shown by `busy`
in the same way is the model's choice (log 7). -/
def Obligations.StepPerformsTheNextAction : Prop :=
  ∀ (s : State) (a : Action) (rest : List Action),
    s.undisturbed = true → s.queue = a :: rest → (∀ i v, a = .wr i v → i < 80) →
    ∃ t, step s = .next t ∧ t.queue = rest ∧ (t.busy = true ↔ rest ≠ []) ∧ t.fault = s.fault ∧ SameSettings s t ∧
      (∀ e, a = .pin e → t.trace = s.trace ++ [e] ∧ t.latches = s.latches.after e ∧ t.buf = s.buf) ∧
      (∀ i v, a = .wr i v → t.trace = s.trace ∧ t.latches = s.latches ∧ t.buf = Memory.write s.buf i v)

/-- 10_state.md R14, 92_eei_decisions.md D4, 20_memory.md R42: whatever a step is, unless it is a reset the trace grows by at
most one event, the framebuffer changes by at most one byte write, never both, and a pin latch changes only by the event.
That the events of a request at a sub-block's port are queued as a command's are is the model's choice (log 7). -/
def Obligations.StepMakesAtMostOneAction : Prop :=
  ∀ s t : State, step s = .next t → (∀ strap rest, s.inputs ≠ .reset strap :: rest) →
    (t.trace = s.trace ∧ t.latches = s.latches ∧ t.buf = s.buf) ∨
    (∃ e, s.queue.head? = some (.pin e) ∧ t.trace = s.trace ++ [e] ∧ t.latches = s.latches.after e ∧ t.buf = s.buf) ∨
    (∃ i v, s.queue.head? = some (.wr i v) ∧ i < 80 ∧ t.trace = s.trace ∧ t.latches = s.latches ∧ t.buf = Memory.write s.buf i v)

/-- 10_state.md R18, 60_exceptions.md R120: FRAME of all seventeen instructions at acceptance. Accepting one changes the queue,
`busy`, the sequencer's registers and the count of free values, or the fault code alone; the framebuffer, the pins, the
trace, the settings and the host's moves never. For the five requests the queue, `busy` and the count of free values are the
model's choice (log 7, log 8). -/
def Obligations.AcceptanceFrame : Prop :=
  ∀ (i : Instr) (s t : State), exec i s = .next t →
    t.buf = s.buf ∧ t.trace = s.trace ∧ t.latches = s.latches ∧ t.config = s.config ∧ t.chainLen = s.chainLen ∧
    t.inputs = s.inputs ∧ (t.fault ≠ s.fault → t = { s with fault := .operandRange })

/-- 30_encoding.md R50: "While `cmd_ready = 0` a presented word is neither accepted nor remembered: the host must hold it."
While the port does not take the word (a command word: busy, faulted, or actions pending; a request word: its sub-block busy, or
actions pending) the step does what it would do were nothing presented. That the word then stays at the head of the host's moves
is how the model has the host hold it (log 5). That a request word waits in the same way, and waits while actions are pending, is
the model's choice too (log 7). -/
def Obligations.WordIsHeldWhileNotReady : Prop :=
  ∀ (s : State) (p : PortWord) (rest : List HostMove),
    s.inputs = presents p :: rest → s.takesWord p = false →
    (s.cmdReady = false → ∀ w, s.takesWord (.cmd w) = false) ∧
    (∀ t, step s = .next t → t.inputs = s.inputs) ∧
    (∀ t, step { s with inputs := [] } = .next t → step s = .next { t with inputs := s.inputs })

/-- 20_memory.md R45, 30_encoding.md R50: "the port is not looked at again until the command has completed". With actions
pending and no reset asserted, what the host presents makes no difference to the step. Those rules speak of the command port and
of a command's actions. That a request word at a sub-block's port (40_serializer.md R72) is not looked at either while actions are
pending, and that the pending actions of a request keep every port from being looked at, is the model's choice (log 7); so is that
the host is a list of moves, of which a leading wait passes (log 4, log 5). -/
def Obligations.PortIsNotLookedAtDuringACommand : Prop :=
  ∀ (s t : State) (ms : List HostMove), s.queue ≠ [] →
    (∀ strap rest, s.inputs ≠ .reset strap :: rest) → (∀ strap rest, ms ≠ .reset strap :: rest) →
    step s = .next t → step { s with inputs := ms } = .next { t with inputs := afterWait ms }

/-- 10_state.md R11, R24: only a reset changes the chain length, and nothing changes the parameters. -/
def Obligations.OnlyResetChangesTheChainLength : Prop :=
  ∀ s t : State, step s = .next t →
    t.config = s.config ∧ (t.chainLen ≠ s.chainLen → ∃ strap rest, s.inputs = .reset strap :: rest ∧ t.chainLen = strap)

/-- 10_state.md R18, 20_memory.md R39: from a state of the invariant no step faults the machine, and a step is refused only
for a strap that is no configuration (R135) or a broadcaster word without meaning (R64). That a request word reaches the step at a
port of its own, and the form of the two refusals, is the model's (log 7, log 9). -/
def Obligations.StepStopsOnlyForTheHostsError : Prop :=
  ∀ s : State, s.Inv →
    (∀ f, step s ≠ .fault f) ∧
    (∀ r, step s = .refused r →
      (∃ strap rest, s.inputs = .reset strap :: rest ∧ ¬ (1 ≤ strap.toNat ∧ strap.toNat ≤ 10)) ∨
      (∃ w rest e, s.inputs = .bcRequest w :: rest ∧ decode (.bc w) = .error e))

/-! ### Pixel and column commands -/

/-- 42_buffer_ops.md R91: encoding, precondition, the one write and its bit, no bus traffic. -/
def Obligations.UpdateBufferAtChangesOneBit : Prop :=
  ∀ (s : State) (col row : Byte) (val : Bool), s.Ready →
    EncodedAs 0x06 col row (inBit0 val) (.updateBufferAt col row val) ∧
    (8 * s.chips ≤ col.toNat ∨ 8 ≤ row.toNat →
      exec (.updateBufferAt col row val) s = .next { s with fault := .operandRange }) ∧
    (col.toNat < 8 * s.chips → row.toNat < 8 →
      ∃ t u, exec (.updateBufferAt col row val) s = .next t ∧ CompletesTo t u ∧ SameSettings s u ∧
        (∀ j r, r < 8 → (Memory.read u.buf j).getLsbD r =
          if j = col.toNat ∧ r = row.toNat then val else (Memory.read s.buf j).getLsbD r) ∧
        t.queue = [.wr col.toNat (Memory.read u.buf col.toNat)] ∧ u.trace = s.trace ∧ u.latches = s.latches)

/-- 42_buffer_ops.md R92: encoding, precondition, the same bit update, then the whole updated byte in one addressed frame. -/
def Obligations.SetDotChangesOneBitAndSendsTheByte : Prop :=
  ∀ (s : State) (col row : Byte) (val : Bool), s.Ready →
    EncodedAs 0x07 col row (inBit0 val) (.setDot col row val) ∧
    (8 * s.chips ≤ col.toNat ∨ 8 ≤ row.toNat → exec (.setDot col row val) s = .next { s with fault := .operandRange }) ∧
    (col.toNat < 8 * s.chips → row.toNat < 8 →
      ∃ t u es, exec (.setDot col row val) s = .next t ∧ CompletesTo t u ∧ SameSettings s u ∧
        (∀ j r, r < 8 → (Memory.read u.buf j).getLsbD r =
          if j = col.toNat ∧ r = row.toNat then val else (Memory.read s.buf j).getLsbD r) ∧
        es = frameEvents ((List.range s.chips).map fun i =>
          if i = col.toNat / 8 then (BitVec.ofNat 8 (col.toNat % 8 + 1), Memory.read u.buf col.toNat) else (0, 0)) ∧
        t.queue = .wr col.toNat (Memory.read u.buf col.toNat) :: pins es ∧ u.trace = s.trace ++ es ∧
        u.load = .high ∧ u.clk = .low)

/-- 42_buffer_ops.md R93: encoding, precondition, the byte stored, then sent in one addressed frame. -/
def Obligations.SetColumnStoresAndSendsTheByte : Prop :=
  ∀ (s : State) (col value : Byte), s.Ready →
    EncodedAs 0x04 col 0 value (.setColumn col value) ∧
    (8 * s.chips ≤ col.toNat → exec (.setColumn col value) s = .next { s with fault := .operandRange }) ∧
    (col.toNat < 8 * s.chips →
      ∃ t u es, exec (.setColumn col value) s = .next t ∧ CompletesTo t u ∧ SameSettings s u ∧
        (∀ j, Memory.read u.buf j = if j = col.toNat then value else Memory.read s.buf j) ∧
        es = frameEvents ((List.range s.chips).map fun i =>
          if i = col.toNat / 8 then (BitVec.ofNat 8 (col.toNat % 8 + 1), value) else (0, 0)) ∧
        t.queue = .wr col.toNat value :: pins es ∧ u.trace = s.trace ++ es ∧ u.load = .high ∧ u.clk = .low)

/-- 42_buffer_ops.md R94: encoding, precondition, the writes under both index rules, the column broadcast (41_broadcaster.md
R83). -/
def Obligations.SetColumnAllStoresByTheIndexRule : Prop :=
  ∀ (s : State) (col value : Byte) (index : Nat → Nat), s.Ready →
    (s.config.columnAllIndexing = .legacyProduct → ∀ i, index i = col.toNat * i) →
    (s.config.columnAllIndexing = .consistent → ∀ i, index i = i * 8 + col.toNat) →
    EncodedAs 0x05 col 0 value (.setColumnAll col value) ∧
    (8 ≤ col.toNat → exec (.setColumnAll col value) s = .next { s with fault := .operandRange }) ∧
    (col.toNat < 8 →
      ∃ t u es, exec (.setColumnAll col value) s = .next t ∧ CompletesTo t u ∧ SameSettings s u ∧
        (∀ i, i < s.chips → index i < 8 * s.chips ∧ Memory.read u.buf (index i) = value) ∧
        (∀ j, (∀ i, i < s.chips → index i ≠ j) → Memory.read u.buf j = Memory.read s.buf j) ∧
        es = frameEvents (List.replicate s.chips (BitVec.ofNat 8 (col.toNat + 1), value)) ∧
        t.queue = writes ((List.range s.chips).map fun i => (index i, value)) ++ pins es ∧
        u.trace = s.trace ++ es ∧ u.load = .high ∧ u.clk = .low)

/-- 42_buffer_ops.md R95: the eight frames, then the 80 writes. -/
def Obligations.ClearBlanksColumnsAndBuffer : Prop :=
  ∀ s : State, s.Ready →
    EncodedAs 0x02 0 0 0 .clear ∧
    ∃ t u es, exec .clear s = .next t ∧ CompletesTo t u ∧ SameSettings s u ∧
      (∀ j, Memory.read u.buf j = 0) ∧
      es = (List.range 8).flatMap (fun k => frameEvents (List.replicate s.chips (BitVec.ofNat 8 (k + 1), 0))) ∧
      t.queue = pins es ++ writes ((List.range 80).map fun i => (i, 0)) ∧ u.trace = s.trace ++ es ∧
      u.load = .high ∧ u.clk = .low ∧ u.data = .low

/-- 42_buffer_ops.md R96: (a) set then clear a dot that was off, (b) `CLEAR` from any state. -/
def Obligations.DotRoundTripAndClearProperty : Prop :=
  ∀ s : State, s.Ready →
    (∀ (col row : Byte), col.toNat < 8 * s.chips → row.toNat < 8 →
      ∃ u, RunsTo [.setDot col row true, .setDot col row false] s u ∧
        ((Memory.read s.buf col.toNat).getLsbD row.toNat = false → Memory.read u.buf col.toNat = Memory.read s.buf col.toNat) ∧
        ((Memory.read s.buf col.toNat).getLsbD row.toNat = true → Memory.read u.buf col.toNat ≠ Memory.read s.buf col.toNat ∧
          (Memory.read u.buf col.toNat).getLsbD row.toNat = false)) ∧
    (∃ u, RunsTo [.clear] s u ∧ ∀ j, j < 80 → Memory.read u.buf j = 0)

/-! ### Shift commands -/

/-- 43_shift_ops.md R101, with the `RELOAD` of the buffer as the shift leaves it (R100). -/
def Obligations.ShiftLeftMovesAllBytesDown : Prop :=
  ∀ (s : State) (rotate fillZero : Bool), s.Ready →
    EncodedAs 0x08 0 (inBits10 fillZero rotate) 0 (.shiftLeft rotate fillZero) ∧
    ∃ t u, exec (.shiftLeft rotate fillZero) s = .next t ∧ CompletesTo t u ∧ SameSettings s u ∧
      (∀ j, j < 79 → Memory.read u.buf j = Memory.read s.buf (j + 1)) ∧
      Memory.read u.buf 79 =
        (if rotate then Memory.read s.buf 0 else if fillZero then 0 else Memory.read s.buf 79) ∧
      t.queue = writes (((List.range 79).map fun j => (j, Memory.read u.buf j)) ++
        if rotate || fillZero then [(79, Memory.read u.buf 79)] else []) ++ pins (reloadEvents s.chips u.buf) ∧
      u.trace = s.trace ++ reloadEvents s.chips u.buf ∧ u.load = .high ∧ u.clk = .low

/-- 43_shift_ops.md R102, with the `RELOAD` of the buffer as the shift leaves it (R100). -/
def Obligations.ShiftRightMovesAllBytesUp : Prop :=
  ∀ (s : State) (rotate fillZero : Bool), s.Ready →
    EncodedAs 0x09 0 (inBits10 fillZero rotate) 0 (.shiftRight rotate fillZero) ∧
    ∃ t u, exec (.shiftRight rotate fillZero) s = .next t ∧ CompletesTo t u ∧ SameSettings s u ∧
      (∀ j, 1 ≤ j → j < 80 → Memory.read u.buf j = Memory.read s.buf (j - 1)) ∧
      Memory.read u.buf 0 =
        (if rotate then Memory.read s.buf 79 else if fillZero then 0 else Memory.read s.buf 0) ∧
      t.queue = writes (((List.range 79).map fun j => (j + 1, Memory.read u.buf (j + 1))) ++
        if rotate || fillZero then [(0, Memory.read u.buf 0)] else []) ++ pins (reloadEvents s.chips u.buf) ∧
      u.trace = s.trace ++ reloadEvents s.chips u.buf ∧ u.load = .high ∧ u.clk = .low

/-- 43_shift_ops.md R103: bit by bit, in the active window only. -/
def Obligations.ShiftUpMovesBitsTowardZero : Prop :=
  ∀ (s : State) (rotate : Bool), s.Ready →
    EncodedAs 0x0A 0 (inBit0 rotate) 0 (.shiftUp rotate) ∧
    ∃ t u, exec (.shiftUp rotate) s = .next t ∧ CompletesTo t u ∧ SameSettings s u ∧
      (∀ c, c < 8 * s.chips →
        (∀ r, r < 7 → (Memory.read u.buf c).getLsbD r = (Memory.read s.buf c).getLsbD (r + 1)) ∧
        (Memory.read u.buf c).getLsbD 7 = (rotate && (Memory.read s.buf c).getLsbD 0)) ∧
      (∀ j, 8 * s.chips ≤ j → Memory.read u.buf j = Memory.read s.buf j) ∧
      t.queue = writes ((List.range (8 * s.chips)).map fun c => (c, Memory.read u.buf c)) ++ pins (reloadEvents s.chips u.buf) ∧
      u.trace = s.trace ++ reloadEvents s.chips u.buf ∧ u.load = .high ∧ u.clk = .low

/-- 43_shift_ops.md R104: bit by bit, in the active window only. -/
def Obligations.ShiftDownMovesBitsTowardSeven : Prop :=
  ∀ (s : State) (rotate : Bool), s.Ready →
    EncodedAs 0x0B 0 (inBit0 rotate) 0 (.shiftDown rotate) ∧
    ∃ t u, exec (.shiftDown rotate) s = .next t ∧ CompletesTo t u ∧ SameSettings s u ∧
      (∀ c, c < 8 * s.chips →
        (∀ r, r < 7 → (Memory.read u.buf c).getLsbD (r + 1) = (Memory.read s.buf c).getLsbD r) ∧
        (Memory.read u.buf c).getLsbD 0 = (rotate && (Memory.read s.buf c).getLsbD 7)) ∧
      (∀ j, 8 * s.chips ≤ j → Memory.read u.buf j = Memory.read s.buf j) ∧
      t.queue = writes ((List.range (8 * s.chips)).map fun c => (c, Memory.read u.buf c)) ++ pins (reloadEvents s.chips u.buf) ∧
      u.trace = s.trace ++ reloadEvents s.chips u.buf ∧ u.load = .high ∧ u.clk = .low

/-- 43_shift_ops.md R105: (a) left then right with rotate, (b) eight vertical rotations; and up then down with rotate. -/
def Obligations.RotationsRoundTrip : Prop :=
  ∀ s : State, s.Ready →
    (∃ u, RunsTo [.shiftLeft true false, .shiftRight true false] s u ∧ u.buf = s.buf) ∧
    (∃ u, RunsTo (List.replicate 8 (.shiftUp true)) s u ∧ u.buf = s.buf) ∧
    (∃ u, RunsTo [.shiftUp true, .shiftDown true] s u ∧ u.buf = s.buf)

/-! ### Matrix Driver commands -/

/-- 44_driver_ops.md R111: frame `k` carries local column `k` of every chip; no buffer write. -/
def Obligations.ReloadSendsTheActiveWindow : Prop :=
  ∀ s : State, s.Ready →
    EncodedAs 0x0C 0 0 0 .reload ∧
    ∃ t u es, exec .reload s = .next t ∧ CompletesTo t u ∧ SameSettings s u ∧ u.buf = s.buf ∧
      es = (List.range 8).flatMap (fun k =>
        frameEvents ((List.range s.chips).map fun i => (BitVec.ofNat 8 (k + 1), Memory.read s.buf (i * 8 + k)))) ∧
      t.queue = pins es ∧ u.trace = s.trace ++ es ∧ u.load = .high ∧ u.clk = .low

/-- 44_driver_ops.md R112 with 70_reset_and_hazards.md R144: the order of `INIT`, the buffer zeroed before the last frame. -/
def Obligations.InitSendsThePowerUpSequence : Prop :=
  ∀ s : State, s.Ready →
    EncodedAs 0x01 0 0 0 .init ∧
    ∃ t u es es', exec .init s = .next t ∧ CompletesTo t u ∧ SameSettings s u ∧ (∀ j, Memory.read u.buf j = 0) ∧
      es = .c true ::
        ([(s.config.regScanLimit, 7), (s.config.regDecodeMode, 0), (s.config.regShutdown, 1), (s.config.regDisplayTest, 0),
         (1, 0), (2, 0), (3, 0), (4, 0), (5, 0), (6, 0), (7, 0), (8, 0)] : List Pair).flatMap
          (fun p => frameEvents (List.replicate s.chips p)) ∧
      es' = frameEvents (List.replicate s.chips (s.config.regIntensity, 15)) ∧
      t.queue = pins es ++ writes ((List.range 80).map fun i => (i, 0)) ++ pins es' ∧
      u.trace = s.trace ++ es ++ es' ∧ u.load = .high ∧ u.clk = .low ∧ u.data = .high

/-- 44_driver_ops.md R113: any level is sent unchanged. -/
def Obligations.SetIntensitySendsTheLevelUnchanged : Prop :=
  ∀ (s : State) (level : Byte), s.Ready →
    EncodedAs 0x03 0 0 level (.setIntensity level) ∧
    ∃ t u es, exec (.setIntensity level) s = .next t ∧ CompletesTo t u ∧ SameSettings s u ∧ u.buf = s.buf ∧
      es = frameEvents (List.replicate s.chips (s.config.regIntensity, level)) ∧ t.queue = pins es ∧
      u.trace = s.trace ++ es ∧ u.load = .high ∧ u.clk = .low

/-! ### Micro-operations -/

/-- 40_serializer.md R70, R71, R72: the request words, the 24 events of both orders, and what is left alone, `fault` among it. A
free serializer takes the request whatever the fault code. That the events of a request stand in `Q` and are performed one a step,
as a command's are, is the model's choice (log 7). -/
def Obligations.SerializerRequestsSendEightCells : Prop :=
  ∀ (s : State) (v : Byte), s.ReadyFor (.serMsb v) →
    decode (.ser (0#1 ++ v)) = .ok (.serMsb v) ∧ decode (.ser (1#1 ++ v)) = .ok (.serLsb v) ∧
    (∃ t u es, exec (.serMsb v) s = .next t ∧ PerformedTo t u ∧ SameSettings s u ∧ u.fault = s.fault ∧ u.buf = s.buf ∧
      u.load = s.load ∧
      es = ([7, 6, 5, 4, 3, 2, 1, 0] : List Nat).flatMap
        (fun k => ([.d (v.getLsbD k), .c true, .c false] : List PinEvent)) ∧
      t.queue = pins es ∧ u.trace = s.trace ++ es ∧ u.data = Level.ofBool (v.getLsbD 0) ∧ u.clk = .low) ∧
    (∃ t u es, exec (.serLsb v) s = .next t ∧ PerformedTo t u ∧ SameSettings s u ∧ u.fault = s.fault ∧ u.buf = s.buf ∧
      u.load = s.load ∧
      es = ([0, 1, 2, 3, 4, 5, 6, 7] : List Nat).flatMap
        (fun k => ([.d (v.getLsbD k), .c true, .c false] : List PinEvent)) ∧
      t.queue = pins es ∧ u.trace = s.trace ++ es ∧ u.data = Level.ofBool (v.getLsbD 7) ∧ u.clk = .low)

/-- 41_broadcaster.md R82, R86: addresses and values are not checked. An idle broadcaster takes the request whatever the fault code.
That its events stand in `Q` and are performed one a step, as a command's are, is the model's choice (log 7). -/
def Obligations.BcSameSendsOnePairToEveryChip : Prop :=
  ∀ (s : State) (a v : Byte), s.ReadyFor (.bcSame a v) →
    decode (.bc (0#2 ++ 0#4 ++ a ++ v)) = .ok (.bcSame a v) ∧
    ∃ t u, exec (.bcSame a v) s = .next t ∧ PerformedTo t u ∧ SameSettings s u ∧ u.fault = s.fault ∧ u.buf = s.buf ∧
      t.queue = pins (frameEvents (List.replicate s.chips (a, v))) ∧
      u.trace = s.trace ++ frameEvents (List.replicate s.chips (a, v)) ∧ u.load = .high ∧ u.clk = .low

/-- 41_broadcaster.md R84, R86: for every target, a target outside the chain giving `N` no-operation pairs. An idle broadcaster takes
the request whatever the fault code. That its events stand in `Q` and are performed one a step, as a command's are, is the model's
choice (log 7). -/
def Obligations.BcAddrSendsOnePairToOneChip : Prop :=
  ∀ (s : State) (n : BitVec 4) (a v : Byte), s.ReadyFor (.bcAddr n a v) →
    decode (.bc (1#2 ++ n ++ a ++ v)) = .ok (.bcAddr n a v) ∧
    ∃ t u, exec (.bcAddr n a v) s = .next t ∧ PerformedTo t u ∧ SameSettings s u ∧ u.fault = s.fault ∧ u.buf = s.buf ∧
      (∃ ps : List Pair, ps.length = s.chips ∧ t.queue = pins (frameEvents ps) ∧ u.trace = s.trace ++ frameEvents ps ∧
        ∀ i, i < s.chips → ps[i]? = some (if i = n.toNat then (a, v) else (0, 0))) ∧
      u.load = .high ∧ u.clk = .low

/-- 41_broadcaster.md R85, R86: for `a = k + 1` the bytes of local column `k`; for another address byte, where the rule states no
value byte (the model's choice, log 8), the frame with that address byte and some value bytes. An idle broadcaster takes the
request whatever the fault code. That its events stand in `Q` and are performed one a step, as a command's are, is the model's
choice too (log 7). -/
def Obligations.BcBufSendsOneColumnOfTheBuffer : Prop :=
  ∀ (s : State) (a : Byte), s.ReadyFor (.bcBuf a) →
    decode (.bc (2#2 ++ 0#4 ++ a ++ 0#8)) = .ok (.bcBuf a) ∧
    ∃ t u, exec (.bcBuf a) s = .next t ∧ PerformedTo t u ∧ SameSettings s u ∧ u.fault = s.fault ∧ u.buf = s.buf ∧
      (∃ vs : List Byte, vs.length = s.chips ∧ t.queue = pins (frameEvents (vs.map fun v => (a, v))) ∧
        u.trace = s.trace ++ frameEvents (vs.map fun v => (a, v)) ∧
        ∀ k, k < 8 → a.toNat = k + 1 → ∀ i, i < s.chips → vs[i]? = some (Memory.read s.buf (i * 8 + k))) ∧
      u.load = .high ∧ u.clk = .low

/-- 40_serializer.md R72, R74, 41_broadcaster.md R86: a request at a port that is not free is not taken and changes nothing.
`ser_busy` is 1 from the step that takes a serializer request until its last `C(0)` and then 0. In the frame of a broadcaster
request it is 0 until the first data event, and 0 again after the last `C(0)` of each of the `2·N` bytes. The reference machines
agree with the queue, as every step keeps them. That a request waits while actions are pending, and that the request for a byte is
taken with its first data event, is the model's choice (log 7, log 12). So is that `BC_BUF` with an address byte outside 1 to 8 is
taken and sends `N` pairs as for 1 to 8 (log 8), unsafe in the shape: hardware that sent no frame for such a word is not covered. -/
def Obligations.SerBusyFollowsTheTransfer : Prop :=
  ∀ s : State,
    (∀ i, (∀ w, encode i ≠ .cmd w) → s.configured = true → s.takes i = false → exec i s = .next s) ∧
    (∀ i v, i = .serMsb v ∨ i = .serLsb v → s.ReadyFor i → s.SeqAgrees →
      ∃ t, exec i s = .next t ∧
        ∀ k, k ≤ 24 → ∃ u, Host.Core.run core k t = .next u ∧ u.ser.serBusy = decide (k < 24)) ∧
    (∀ i w, encode i = .bc w → s.ReadyFor i → s.SeqAgrees →
      ∃ t, exec i s = .next t ∧ t.ser.serBusy = false ∧
        ∀ k, k ≤ 48 * s.chips → ∃ u, Host.Core.run core (k + 1) t = .next u ∧ u.ser.serBusy = decide (k % 24 ≠ 0))

/-! ### The serial format and the reference machines -/

/-- 41_broadcaster.md R81, R87 (a) to (d): properties of every frame of one pair or more. -/
def Obligations.FrameDiscipline : Prop :=
  ∀ (ps : List Pair) (w : Levels), ps ≠ [] →
    (frameEvents ps).length = 3 + 48 * ps.length ∧
    (∃ body : List PinEvent, frameEvents ps = [.l false] ++ body ++ [.l false, .l true] ∧
      (∀ b, PinEvent.l b ∉ body) ∧
      (∃ b, body[0]? = some (.d b)) ∧
      body.filter (fun e => decide (e = PinEvent.c true ∨ e = PinEvent.c false)) =
        (List.replicate (16 * ps.length) ([.c true, .c false] : List PinEvent)).flatten ∧
      ∀ k, body[k + 1]? = some (.c true) → (∃ b, body[k]? = some (.d b)) ∧ body[k + 2]? = some (.c false)) ∧
    (w.afterAll (frameEvents ps)).load = .high ∧ (w.afterAll (frameEvents ps)).clk = .low ∧
    ∀ p, ps.getLast? = some p → (w.afterAll (frameEvents ps)).data = Level.ofBool (p.2.getLsbD 0)

/-- 40_serializer.md R74, R75: "started by a request `(o, v)`, emits exactly the list `SER(v, o)` ... and returns to `S_IDLE`
after 1 + 24 steps"; in cell `i` the register `sr` holds `v` shifted by `i` places. -/
def Obligations.SerializerMachineEmitsSer : Prop :=
  ∀ (o : BitOrder) (v : Byte) (r : SerRegs), r.ph = .idle →
    let after (k : Nat) : SerRegs × List PinEvent :=
      (List.range k).foldl (fun acc _ => let next := serStep none acc.1; (next.1, acc.2 ++ next.2)) (serStep (some (o, v)) r)
    (after 24).2 = serEvents o v ∧ (after 24).1.ph = .idle ∧ (after 24).1.sr = 0 ∧ (after 24).1.cnt = 0 ∧
    ∀ i, i < 8 → (after (3 * i)).1.ph = .data ∧
      (after (3 * i)).1.sr = (match o with | .msbFirst => v <<< i | .lsbFirst => v >>> i)

/-- 41_broadcaster.md R86: with the driver idle, the broadcaster's machine over the serializer's emits exactly the frame of the
pairs of R82, R84 and R85 and is idle again. In which step a line without an event is taken is the model's choice
(log 12): the request for a byte with the line after it, the byte's first data event; every other with the line before it. -/
def Obligations.BroadcasterMachineEmitsTheFrame : Prop :=
  ∀ (cfg : Config) (n : BitVec 4) (draws : Nat) (buf : Memory) (q : SeqRegs) (t : BitVec 4) (a v : Byte),
    1 ≤ n.toNat → n.toNat ≤ 10 → q.idle = true →
    let emits (b : BcRegs) (ps : List Pair) : Prop :=
      (seqUnroll cfg n draws (3 + 48 * n.toNat) buf { q with bc := b }).1 = pins (frameEvents ps) ∧
      (seqUnroll cfg n draws (3 + 48 * n.toNat) buf { q with bc := b }).2.idle = true
    emits (bcLoad .same 0 a v) (samePairs n.toNat a v) ∧
    emits (bcLoad .addressed t a v) (addressedPairs n.toNat t.toNat a v) ∧
    (∀ k, k < 8 → emits (bcLoad .buffer 0 (BitVec.ofNat 8 (k + 1)) 0)
      ((List.range n.toNat).map fun i => (BitVec.ofNat 8 (k + 1), Memory.read buf (i * 8 + k))))

/-- 44_driver_ops.md R115, 41_broadcaster.md R86, 40_serializer.md R75: the reference machines, which do not store the queue,
are in every state about to perform exactly the queued actions; every step keeps that. How the registers are used is the model's
reading of R115 (log 12, log 13). That they also follow a request driven from outside, and the frame of `BC_BUF` with an address
byte outside 1 to 8, its free value bytes drawn alike, is the model's choice (log 7, log 8). -/
def Obligations.ReferenceMachinesFollowTheQueue : Prop :=
  ∀ s t : State, s.Inv → s.SeqAgrees → step s = .next t → t.SeqAgrees

/-- 70_reset_and_hazards.md R150: the table of action counts. That a request's events are queued as a command's are is the
model's choice (log 7). The table knows `BC_BUF` only for the address bytes 1 to 8 (41_broadcaster.md R85); that another address
byte also gives one frame of `F` events is the model's choice (log 8), unsafe in the shape: hardware that sent no frame for such a
word is not covered. -/
def Obligations.ActionCounts : Prop :=
  ∀ (i : Instr) (s t : State), s.ReadyFor i → exec i s = .next t → t.fault = s.fault →
    let F := 3 + 48 * s.chips
    ((writesOf t.queue).length, (eventsOf t.queue).length) =
      match i with
      | .serMsb _ | .serLsb _ => (0, 24)
      | .bcSame _ _ | .bcAddr _ _ _ | .bcBuf _ => (0, F)
      | .init => (80, 1 + 13 * F)
      | .clear => (80, 8 * F)
      | .setIntensity _ => (0, F)
      | .setColumn _ _ => (1, F)
      | .setColumnAll _ _ => (s.chips, F)
      | .updateBufferAt _ _ _ => (1, 0)
      | .setDot _ _ _ => (1, F)
      | .shiftLeft rotate fillZero | .shiftRight rotate fillZero => (if rotate || fillZero then 80 else 79, 8 * F)
      | .shiftUp _ | .shiftDown _ => (8 * s.chips, 8 * F)
      | .reload => (0, 8 * F)

/-- 20_memory.md R36, 30_encoding.md R62, R63, 41_broadcaster.md R87: every command sends whole frames of `N` pairs and nothing
else, but for the clock event that opens `INIT`; and every pair is the no-operation pair, a column pair or a global pair. -/
def Obligations.CommandsSendOnlyWholeFramesOfKnownPairs : Prop :=
  ∀ (i : Instr) (w : CmdWord) (s t : State), s.Ready → encode i = .cmd w → exec i s = .next t →
    ∃ fs : List (List Pair),
      eventsOf t.queue = (if i = .init then [.c true] else []) ++ fs.flatMap frameEvents ∧
      ∀ ps ∈ fs, ps.length = s.chips ∧
        ∀ p ∈ ps, p = (0, 0) ∨ (1 ≤ p.1.toNat ∧ p.1.toNat ≤ 8) ∨ p.1 ∈ globalRegs s.config

/-! ### Faults -/

/-- 60_exceptions.md R122: exactly the operands of the table fault, before any effect; every other command is accepted and has
actions to perform (10_state.md R16, R18). The five requests never fault, and are taken when their sub-block is free
(40_serializer.md R72, 41_broadcaster.md R86); that they are then pending with `busy = 1` is the model's choice (log 7), and so is
that `BC_BUF` is taken for every address byte (log 8). -/
def Obligations.OperandRangeIsRaisedBeforeAnyEffect : Prop :=
  ∀ (i : Instr) (s : State), s.configured = true → s.takes i = true →
    let bad : Prop := match i with
      | .setColumn col _ => 8 * s.chips ≤ col.toNat
      | .setColumnAll col _ => 8 ≤ col.toNat
      | .updateBufferAt col row _ | .setDot col row _ => 8 * s.chips ≤ col.toNat ∨ 8 ≤ row.toNat
      | .init | .clear | .setIntensity _ | .reload | .shiftLeft _ _ | .shiftRight _ _ | .shiftUp _ | .shiftDown _ => False
      | .serMsb _ | .serLsb _ | .bcSame _ _ | .bcAddr _ _ _ | .bcBuf _ => False
    (bad → exec i s = .next { s with fault := .operandRange }) ∧
    (¬ bad → ∃ t, exec i s = .next t ∧ t.fault = s.fault ∧ t.busy = true ∧ t.queue ≠ [])

/-- 60_exceptions.md R121, R123 with 30_encoding.md R60: a word that matches no row, whatever its operand fields, raises
`IllegalCommand` when it is accepted, and has no other effect. -/
def Obligations.IllegalWordRaisesIllegalCommand : Prop :=
  ∀ (s : State) (w : CmdWord) (rest : List HostMove),
    s.inputs = .command w :: rest → s.configured = true → s.canAccept = true →
    (∀ r ∈ opcodeRows, r.selects w = false) → step s = .next { s with inputs := rest, fault := .illegalCommand }

/-- 60_exceptions.md R120, R125: in a faulted state `cmd_ready = 0`, no step but a reset changes the fault code or the framebuffer,
and a step that takes no request and has no event of one to perform leaves everything as it is (a `wait` of the host passes),
whatever command word is presented; a reset clears the fault and zeroes the buffer (70_reset_and_hazards.md R140). That a word
presented to the faulted block stays at the head of the host's moves is the model's choice (log 5), and so is that a fault does not
stop the sub-blocks, whose requests are taken when they are free (40_serializer.md R72; log 7). -/
def Obligations.FaultIsStickyUntilReset : Prop :=
  ∀ s : State, s.Inv → s.fault ≠ .none →
    s.cmdReady = false ∧
    ((∀ strap rest, s.inputs ≠ .reset strap :: rest) →
      (∀ t, step s = .next t → t.fault = s.fault ∧ t.buf = s.buf) ∧
      (s.queue = [] → (∀ p rest, s.inputs = presents p :: rest → (∃ w, p = .cmd w) ∨ s.takesWord p = false) →
        step s = .next { s with inputs := afterWait s.inputs })) ∧
    (∀ strap rest, s.inputs = .reset strap :: rest → 1 ≤ strap.toNat → strap.toNat ≤ 10 →
      ∃ t, step s = .next t ∧ t.fault = .none ∧ ∀ j, Memory.read t.buf j = 0)

/-- 60_exceptions.md R120, R121, R122: the fault code changes only at a reset, to none, and at the acceptance of a command
word, where nothing but the code and the host's moves changes. -/
def Obligations.FaultsArePrecise : Prop :=
  ∀ s t : State, step s = .next t → t.fault ≠ s.fault →
    (∃ strap rest, s.inputs = .reset strap :: rest ∧ t.fault = .none) ∨
    (∃ w rest, s.inputs = .command w :: rest ∧ s.fault = .none ∧ t = { s with inputs := rest, fault := t.fault })

/-! ### Reset and invariants -/

/-- 70_reset_and_hazards.md R140, R141: reset at any time, with every value of the table; the parameters stay. -/
def Obligations.ResetGivesTheResetState : Prop :=
  ∀ (s : State) (strap : BitVec 4) (rest : List HostMove),
    s.inputs = .reset strap :: rest → 1 ≤ strap.toNat → strap.toNat ≤ 10 →
    ∃ t, step s = .next t ∧ (∀ j, Memory.read t.buf j = 0) ∧ t.chainLen = strap ∧
      t.data = .x ∧ t.clk = .x ∧ t.load = .x ∧ t.trace = [] ∧ t.fault = .none ∧ t.busy = false ∧ t.queue = [] ∧
      t.ser.sr = 0 ∧ t.ser.ord = .msbFirst ∧ t.ser.cnt = 0 ∧ t.ser.ph = .idle ∧
      t.bc.pos = 0 ∧ t.bc.half = false ∧ t.bc.fph = .idle ∧ t.bc.mode = .same ∧ t.bc.areg = 0 ∧ t.bc.vreg = 0 ∧ t.bc.tgt = 0 ∧
      t.drv.cmdreg = 0 ∧ t.drv.kcnt = 0 ∧ t.drv.idx = 0 ∧ t.drv.istep = 0 ∧
      t.config = s.config ∧ t.inputs = rest ∧ t.cmdReady = true ∧ (∀ i a, t.image i a = none) ∧
      step { t with inputs := [] } = .next { t with inputs := [] }

/-- 60_exceptions.md R135, 00_scope.md R5: another strap is no configuration; "a refusal, not a fault". -/
def Obligations.IllegalStrapIsRefused : Prop :=
  ∀ (s : State) (strap : BitVec 4) (rest : List HostMove),
    s.inputs = .reset strap :: rest → ¬ (1 ≤ strap.toNat ∧ strap.toNat ≤ 10) → step s = .refused .notAConfiguration

/-- The invariant holds after reset with any legal strap and parameters, and of `State.reset`, whose strap 4 is the model's
choice (log 2). -/
def Obligations.InvariantHoldsAtReset : Prop :=
  State.reset.Inv ∧ State.reset.SeqAgrees ∧
  ∀ (cfg : Config) (strap : BitVec 4) (ms : List HostMove), configLegal cfg = true → 1 ≤ strap.toNat → strap.toNat ≤ 10 →
    (State.resetWith cfg strap ms).Inv ∧ (State.resetWith cfg strap ms).SeqAgrees

/-- 10_state.md R10, R13, R16, R18, 40_serializer.md R73, 60_exceptions.md R120: every step keeps the invariant. For the
actions of a request, that they stand in `Q`, also in a faulted block, and that `busy` shows them is the model's choice (log 7); so
is that `BC_BUF` with an address byte outside 1 to 8 sends a frame (log 8). -/
def Obligations.EveryStepKeepsTheInvariant : Prop :=
  ∀ s t : State, s.Inv → step s = .next t → t.Inv

/-! ### The display and the wires -/

/-- 60_exceptions.md R132, with 41_broadcaster.md R82 and R84. That a request runs at its own port, its events performed as a
command's are, is the model's choice (log 7). -/
def Obligations.AddressedAndBroadcastWritesOnTheDisplay : Prop :=
  ∀ (s : State),
    (∀ (n : BitVec 4) (k : Nat) (v : Byte), s.ReadyFor (.bcAddr n (BitVec.ofNat 8 (k + 1)) v) → n.toNat < s.chips → k < 8 →
      ∃ t u, exec (.bcAddr n (BitVec.ofNat 8 (k + 1)) v) s = .next t ∧ PerformedTo t u ∧
        u.image n.toNat (BitVec.ofNat 8 (k + 1)) = some v ∧
        ∀ i a, ¬ (i = n.toNat ∧ a = BitVec.ofNat 8 (k + 1)) → u.image i a = s.image i a) ∧
    (∀ (a v : Byte), s.ReadyFor (.bcSame a v) → a ≠ 0 →
      ∃ t u, exec (.bcSame a v) s = .next t ∧ PerformedTo t u ∧ ∀ i, i < s.chips → u.image i a = some v)

/-- 60_exceptions.md R131 to R133, with 42_buffer_ops.md R91 and 44_driver_ops.md R113: what the display image holds after each
command. The arms of the five requests rest on the model's choices too: a request runs at its own port (log 7), `BC_BUF` for every
address byte (log 8), and the events of a serializer request, which are no frame, leave the image alone (log 15). -/
def Obligations.DisplayAfterEachCommand : Prop :=
  ∀ (i : Instr) (s t u : State), s.ReadyFor i → exec i s = .next t → t.fault = s.fault → PerformedTo t u →
    let shows (n k : Nat) (v : Byte) : Prop := u.image n (BitVec.ofNat 8 (k + 1)) = some v
    match i with
    | .reload | .shiftLeft _ _ | .shiftRight _ _ | .shiftUp _ | .shiftDown _ =>
      ∀ n k, n < s.chips → k < 8 → shows n k (Memory.read u.buf (n * 8 + k))
    | .clear => ∀ n k, n < s.chips → k < 8 → shows n k 0
    | .init =>
      (∀ n k, n < s.chips → k < 8 → shows n k 0) ∧
      ∀ n, n < s.chips →
        u.image n s.config.regScanLimit = some 7 ∧ u.image n s.config.regDecodeMode = some 0 ∧
        u.image n s.config.regShutdown = some 1 ∧ u.image n s.config.regDisplayTest = some 0 ∧
        u.image n s.config.regIntensity = some 15
    | .setDot col _ _ | .setColumn col _ => shows (col.toNat / 8) (col.toNat % 8) (Memory.read u.buf col.toNat)
    | .setColumnAll col value => ∀ n, n < s.chips → shows n col.toNat value
    | .updateBufferAt _ _ _ => u.image = s.image
    | .setIntensity level => ∀ n, n < s.chips → u.image n s.config.regIntensity = some level
    | .serMsb _ | .serLsb _ => u.image = s.image
    | .bcSame a v =>
      (a ≠ 0 → ∀ n, n < s.chips → u.image n a = some v) ∧ (a = 0 → u.image = s.image) ∧
      ∀ n a', a' ≠ a → u.image n a' = s.image n a'
    | .bcAddr n a v =>
      (n.toNat < s.chips → a ≠ 0 → u.image n.toNat a = some v) ∧
      ∀ i a', ¬ (i = n.toNat ∧ a' = a) → u.image i a' = s.image i a'
    | .bcBuf a =>
      (∀ k, k < 8 → a.toNat = k + 1 → ∀ n, n < s.chips → shows n k (Memory.read u.buf (n * 8 + k))) ∧
      ∀ n a', a' ≠ a → u.image n a' = s.image n a'

/-- 60_exceptions.md R124, 40_serializer.md R76: whether pin writes can fail makes no difference to any step. -/
def Obligations.PinFailuresAreInvisibleToTheBlock : Prop :=
  ∀ (s t : State) (b : Bool), step s = .next t → step (s.withPinCanFail b) = .next (t.withPinCanFail b)

/-- 60_exceptions.md R124, 10_state.md R13: "With `PIN_CAN_FAIL = false` (a hardware pin) the wire follows every request", so
the wires are the latches. With `PIN_CAN_FAIL = true` the environment draws, for each event, whether the wire of its pin follows
and, if not, the level it has, any level (92_eei_decisions.md D19, 93_implementation_defined.md U3). That the other two wires stay
as they were, after an event that fails and after one that does not, and that no wire drifts between events, is the model's choice
(log 14) and none of these rules': with `PIN_CAN_FAIL = true`, R124 "promises nothing about the wire or the chips", so that part is
unsafe. -/
def Obligations.WiresFollowTheLatches : Prop :=
  ∀ (s : State) (drawn : Nat → Option Level), s.Inv →
    (s.config.pinCanFail = false → s.wires drawn = s.latches) ∧
    (s.config.pinCanFail = true → ∀ e,
      (drawn s.trace.length = none → (emit e s).wires drawn = (s.wires drawn).after e) ∧
      (∀ l, drawn s.trace.length = some l →
        (emit e s).wires drawn = match e with
          | .d _ => { s.wires drawn with data := l }
          | .c _ => { s.wires drawn with clk := l }
          | .l _ => { s.wires drawn with load := l }))

/-- 70_reset_and_hazards.md R151, 60_exceptions.md R124, R131: the display can part from the buffer after a failed pin write, only
with `PIN_CAN_FAIL = true`. Whatever the display showed, a `RELOAD` of which no write fails makes it show the active window and an
`INIT` makes it show the power-up values; but either may fail in the same way, and then the display can show anything. From which
event on and until which the display is free is the model's choice (log 14, log 15). -/
def Obligations.FailedWritesPartTheDisplayFromTheBuffer : Prop :=
  ∀ s : State, s.Ready →
    (s.config.pinCanFail = false → ∀ drawn shows, s.shown drawn shows = s.image) ∧
    (s.config.pinCanFail = true → ∀ i, i = .reload ∨ i = .init →
      ∃ t u, exec i s = .next t ∧ CompletesTo t u ∧
        (∀ (drawn : Nat → Option Level) (shows : Nat → Image), (∀ k, s.trace.length ≤ k → drawn k = none) →
          (∀ n k, n < s.chips → k < 8 →
            u.shown drawn shows n (BitVec.ofNat 8 (k + 1)) = some (Memory.read u.buf (n * 8 + k))) ∧
          (i = .init → ∀ n, n < s.chips →
            u.shown drawn shows n s.config.regScanLimit = some 7 ∧ u.shown drawn shows n s.config.regDecodeMode = some 0 ∧
            u.shown drawn shows n s.config.regShutdown = some 1 ∧ u.shown drawn shows n s.config.regDisplayTest = some 0 ∧
            u.shown drawn shows n s.config.regIntensity = some 15)) ∧
        ∀ img : Image, ∃ drawn shows, u.shown drawn shows = img)

/-- 70_reset_and_hazards.md R151: with `PIN_CAN_FAIL = true`, a command in which a write fails can leave the column it sent
different on the display from the buffer, with no trace of it in the state: whatever the environment draws, the state after
`SET_COLUMN` is the same, and there are draws under which the display does not show the byte stored. How the draws enter what the
display shows, and from which event on and until which it is free, is the model's choice (log 14, log 15). -/
def Obligations.AFailedColumnWriteIsSilent : Prop :=
  ∀ (s : State) (col value : Byte), s.Ready → s.config.pinCanFail = true → col.toNat < 8 * s.chips →
    ∃ t u, exec (.setColumn col value) s = .next t ∧ CompletesTo t u ∧ Memory.read u.buf col.toNat = value ∧ u.fault = .none ∧
      (∃ drawn shows, u.shown drawn shows (col.toNat / 8) (BitVec.ofNat 8 (col.toNat % 8 + 1)) ≠ some value) ∧
      ∃ drawn shows, u.shown drawn shows (col.toNat / 8) (BitVec.ofNat 8 (col.toNat % 8 + 1)) = some value

/-! ### Operand arithmetic -/

/-- 20_memory.md R34, R35, R47, R48: the column decode, the register address, and the index rule of `SET_COLUMN_ALL`. -/
def Obligations.ColumnDecodeIsExact : Prop :=
  (∀ (n : Nat) (c : Byte), n ≤ 10 → c.toNat < 8 * n →
    chipIndex c < n ∧ localCol c < 8 ∧ c.toNat = chipIndex c * 8 + localCol c ∧
    chipIndex c = (c.extractLsb' 3 4).toNat ∧ localCol c = (c.extractLsb' 0 3).toNat ∧
    (regAddr (localCol c)).toNat = localCol c + 1) ∧
  (∀ (n i : Nat) (c : Byte), 1 ≤ n → n ≤ 10 → i < n → c.toNat < 8 →
    columnAllIndex .legacyProduct c i ≤ 63 ∧ columnAllIndex .legacyProduct c i < 8 * n ∧ columnAllIndex .consistent c i < 8 * n ∧
    columnAllIndex .legacyProduct c 0 = 0)
end

