-- ==== Sys2Proof/Laws/Memory.lean ====
section
/-! SUPPORT. The laws of the framebuffer: the canonical form is kept, a read after a write, and equal reads make equal
framebuffers. -/

namespace Sys2Proof.Machine

@[simp] theorem Memory.read_nil (i : Nat) : Memory.read [] i = 0 := rfl

theorem Memory.wfFrom_cons {lo j : Nat} {b : Byte} {rest : Memory} :
    Memory.wfFrom lo ((j, b) :: rest) = true ↔ lo ≤ j ∧ j < 80 ∧ b ≠ 0 ∧ Memory.wfFrom (j + 1) rest = true := by
  simp only [Memory.wfFrom, Bool.and_eq_true, decide_eq_true_eq, and_assoc]

theorem Memory.wfFrom_mono {lo lo' : Nat} {m : Memory} (h : Memory.wfFrom lo m = true) (hl : lo' ≤ lo) :
    Memory.wfFrom lo' m = true := by
  cases m with
  | nil => rfl
  | cons c rest =>
    obtain ⟨h1, h2⟩ := Memory.wfFrom_cons.1 h
    exact Memory.wfFrom_cons.2 ⟨by omega, h2⟩

theorem Memory.read_below {lo i : Nat} {m : Memory} (h : Memory.wfFrom lo m = true) (hi : i < lo) : Memory.read m i = 0 := by
  induction m generalizing lo with
  | nil => rfl
  | cons c rest ih =>
    obtain ⟨h1, -, -, h4⟩ := Memory.wfFrom_cons.1 h
    have hne : c.1 ≠ i := by omega
    simp only [Memory.read, hne, if_false]
    exact ih h4 (by omega)

theorem Memory.read_above {lo i : Nat} {m : Memory} (h : Memory.wfFrom lo m = true) (hi : 80 ≤ i) : Memory.read m i = 0 := by
  induction m generalizing lo with
  | nil => rfl
  | cons c rest ih =>
    obtain ⟨-, h2, -, h4⟩ := Memory.wfFrom_cons.1 h
    have hne : c.1 ≠ i := by omega
    simp only [Memory.read, hne, if_false]
    exact ih h4

theorem Memory.wfFrom_put {lo i : Nat} {v : Byte} {rest : Memory} (h : Memory.wfFrom (i + 1) rest = true) (hl : lo ≤ i) (hi : i < 80) :
    Memory.wfFrom lo (Memory.put i v rest) = true := by
  unfold Memory.put
  split
  · exact Memory.wfFrom_mono h (by omega)
  · rename_i hv
    exact Memory.wfFrom_cons.2 ⟨hl, hi, hv, h⟩

theorem Memory.wfFrom_write {lo i : Nat} {v : Byte} {m : Memory} (h : Memory.wfFrom lo m = true) (hl : lo ≤ i) (hi : i < 80) :
    Memory.wfFrom lo (Memory.write m i v) = true := by
  induction m generalizing lo with
  | nil => exact Memory.wfFrom_put rfl hl hi
  | cons c rest ih =>
    obtain ⟨h1, h2, h3, h4⟩ := Memory.wfFrom_cons.1 h
    simp only [Memory.write]
    split
    · exact Memory.wfFrom_put (Memory.wfFrom_cons.2 ⟨by omega, h2, h3, h4⟩) hl hi
    · split
      · rename_i heq
        exact Memory.wfFrom_put (heq ▸ h4) hl hi
      · exact Memory.wfFrom_cons.2 ⟨h1, h2, h3, ih h4 (by omega)⟩

/-- A write keeps the canonical form. -/
theorem Memory.wf_write {i : Nat} {v : Byte} {m : Memory} (h : Memory.wf m = true) (hi : i < 80) :
    Memory.wf (Memory.write m i v) = true :=
  Memory.wfFrom_write h (by omega) hi

theorem Memory.read_put {i j : Nat} {v : Byte} {rest : Memory} (h : Memory.wfFrom (i + 1) rest = true) :
    Memory.read (Memory.put i v rest) j = if j = i then v else Memory.read rest j := by
  unfold Memory.put
  split
  · rename_i hv
    split
    · rename_i hj
      rw [hj, Memory.read_below h (by omega), hv]
    · rfl
  · simp only [Memory.read, eq_comm]

theorem Memory.read_write_from {lo i j : Nat} {v : Byte} {m : Memory} (h : Memory.wfFrom lo m = true) :
    Memory.read (Memory.write m i v) j = if j = i then v else Memory.read m j := by
  induction m generalizing lo with
  | nil => exact Memory.read_put rfl
  | cons c rest ih =>
    obtain ⟨h1, h2, h3, h4⟩ := Memory.wfFrom_cons.1 h
    simp only [Memory.write]
    split
    · exact Memory.read_put (Memory.wfFrom_cons.2 ⟨by omega, h2, h3, h4⟩)
    · split
      · rename_i heq
        rw [Memory.read_put (heq ▸ h4)]
        by_cases hj : j = i
        · simp [hj]
        · have : c.1 ≠ j := by omega
          simp [hj, Memory.read, this]
      · rename_i hne hne'
        simp only [Memory.read]
        by_cases hc : c.1 = j
        · have : j ≠ i := by omega
          simp [hc, this]
        · simp only [hc, if_false]
          exact ih h4

/-- A read after a write: the value written at its index, the old byte elsewhere. -/
theorem Memory.read_write {i j : Nat} {v : Byte} {m : Memory} (h : Memory.wf m = true) :
    Memory.read (Memory.write m i v) j = if j = i then v else Memory.read m j :=
  Memory.read_write_from h

theorem Memory.read_cons_same (i : Nat) (v : Byte) (rest : Memory) : Memory.read ((i, v) :: rest) i = v := by
  simp [Memory.read]

theorem Memory.eq_of_read_from {lo : Nat} {m m' : Memory} (h : Memory.wfFrom lo m = true) (h' : Memory.wfFrom lo m' = true)
    (hr : ∀ i, Memory.read m i = Memory.read m' i) : m = m' := by
  induction m generalizing lo m' with
  | nil =>
    cases m' with
    | nil => rfl
    | cons c rest =>
      obtain ⟨-, -, h3, -⟩ := Memory.wfFrom_cons.1 h'
      have := hr c.1
      simp only [Memory.read_nil] at this
      rw [show Memory.read (c :: rest) c.1 = c.2 from Memory.read_cons_same c.1 c.2 rest] at this
      exact absurd this.symm h3
  | cons c rest ih =>
    obtain ⟨h1, h2, h3, h4⟩ := Memory.wfFrom_cons.1 h
    have hc : Memory.read (c :: rest) c.1 = c.2 := Memory.read_cons_same c.1 c.2 rest
    cases m' with
    | nil =>
      have := hr c.1
      rw [hc] at this
      exact absurd this h3
    | cons d rest' =>
      obtain ⟨g1, g2, g3, g4⟩ := Memory.wfFrom_cons.1 h'
      have hd : Memory.read (d :: rest') d.1 = d.2 := Memory.read_cons_same d.1 d.2 rest'
      have key : c.1 = d.1 := by
        rcases Nat.lt_trichotomy c.1 d.1 with hlt | heq | hgt
        · have := hr c.1
          rw [hc, Memory.read_below (Memory.wfFrom_cons.2 ⟨Nat.le_refl d.1, g2, g3, g4⟩) hlt] at this
          exact absurd this h3
        · exact heq
        · have := hr d.1
          rw [hd, Memory.read_below (Memory.wfFrom_cons.2 ⟨Nat.le_refl c.1, h2, h3, h4⟩) hgt] at this
          exact absurd this.symm g3
      have val : c.2 = d.2 := by rw [← hc, ← hd, hr, key]
      have tails : ∀ i, Memory.read rest i = Memory.read rest' i := by
        intro i
        by_cases hi : c.1 = i
        · rw [Memory.read_below h4 (by omega), Memory.read_below g4 (by omega)]
        · have := hr i
          simp only [Memory.read] at this
          rwa [if_neg hi, if_neg (key ▸ hi)] at this
      rw [ih h4 (key ▸ g4) tails, Prod.ext key val]

/-- The canonical form is canonical: framebuffers that read alike are equal. -/
theorem Memory.eq_of_read {m m' : Memory} (h : Memory.wf m = true) (h' : Memory.wf m' = true)
    (hr : ∀ i, i < 80 → Memory.read m i = Memory.read m' i) : m = m' := by
  refine Memory.eq_of_read_from h h' fun i => ?_
  by_cases hi : i < 80
  · exact hr i hi
  · rw [Memory.read_above h (by omega), Memory.read_above h' (by omega)]

/-- An index that is no location reads as an unwritten one. -/
theorem Memory.read_outside {i : Nat} {m : Memory} (h : Memory.wf m = true) (hi : 80 ≤ i) : Memory.read m i = 0 :=
  Memory.read_above (lo := 0) h hi

/-! ### Several writes -/

@[simp] theorem Memory.writeAll_nil (m : Memory) : Memory.writeAll m [] = m := rfl

@[simp] theorem Memory.writeAll_cons (m : Memory) (w : Nat × Byte) (ws : List (Nat × Byte)) :
    Memory.writeAll m (w :: ws) = Memory.writeAll (Memory.write m w.1 w.2) ws := rfl

theorem Memory.writeAll_append (m : Memory) (ws ws' : List (Nat × Byte)) :
    Memory.writeAll m (ws ++ ws') = Memory.writeAll (Memory.writeAll m ws) ws' := List.foldl_append

/-- A list of writes keeps the canonical form. -/
theorem Memory.wf_writeAll {m : Memory} {ws : List (Nat × Byte)} (h : Memory.wf m = true) (hi : ∀ w ∈ ws, w.1 < 80) :
    Memory.wf (Memory.writeAll m ws) = true := by
  induction ws generalizing m with
  | nil => exact h
  | cons w ws ih =>
    exact ih (Memory.wf_write h (hi w (by simp))) fun w' hw' => hi w' (by simp [hw'])

/-- An index that no write names reads as before. -/
theorem Memory.read_writeAll_other {m : Memory} {ws : List (Nat × Byte)} {j : Nat} (h : Memory.wf m = true)
    (hi : ∀ w ∈ ws, w.1 < 80) (hj : ∀ w ∈ ws, w.1 ≠ j) : Memory.read (Memory.writeAll m ws) j = Memory.read m j := by
  induction ws generalizing m with
  | nil => rfl
  | cons w ws ih =>
    rw [Memory.writeAll_cons, ih (Memory.wf_write h (hi w (by simp))) (fun w' hw' => hi w' (by simp [hw']))
      (fun w' hw' => hj w' (by simp [hw'])), Memory.read_write h, if_neg (Ne.symm (hj w (by simp)))]

/-- An index that some write names, each of them with the value `v`, reads as `v`. -/
theorem Memory.read_writeAll_named {m : Memory} {ws : List (Nat × Byte)} {j : Nat} {v : Byte} (h : Memory.wf m = true)
    (hi : ∀ w ∈ ws, w.1 < 80) (hj : ∃ w ∈ ws, w.1 = j) (hv : ∀ w ∈ ws, w.1 = j → w.2 = v) :
    Memory.read (Memory.writeAll m ws) j = v := by
  induction ws generalizing m with
  | nil => obtain ⟨w, hw, -⟩ := hj; cases hw
  | cons w ws ih =>
    have wf' := Memory.wf_write (v := w.2) h (hi w (by simp))
    by_cases later : ∃ w' ∈ ws, w'.1 = j
    · exact ih wf' (fun w' hw' => hi w' (by simp [hw'])) later (fun w' hw' => hv w' (by simp [hw']))
    · have here : w.1 = j := by
        obtain ⟨w', hw', hj'⟩ := hj
        rcases List.mem_cons.1 hw' with rfl | hw'
        · exact hj'
        · exact absurd ⟨w', hw', hj'⟩ later
      rw [Memory.writeAll_cons, Memory.read_writeAll_other wf' (fun w' hw' => hi w' (by simp [hw']))
        (fun w' hw' e => later ⟨w', hw', e⟩), Memory.read_write h, if_pos here.symm, hv w (by simp) here]

end Sys2Proof.Machine
end

