-- ==== Sys2Proof/Laws/State.lean ====
section
/-! SUPPORT. The fields of State after each named update: one lemma per field, true by unfolding, so that later proofs
unfold no record update. -/

namespace Sys2Proof.Machine

/-! ### `raise` -/

@[simp] theorem raise_config (f : FaultCode) (s : State) : (raise f s).config = s.config := rfl
@[simp] theorem raise_chainLen (f : FaultCode) (s : State) : (raise f s).chainLen = s.chainLen := rfl
@[simp] theorem raise_buf (f : FaultCode) (s : State) : (raise f s).buf = s.buf := rfl
@[simp] theorem raise_data (f : FaultCode) (s : State) : (raise f s).data = s.data := rfl
@[simp] theorem raise_clk (f : FaultCode) (s : State) : (raise f s).clk = s.clk := rfl
@[simp] theorem raise_load (f : FaultCode) (s : State) : (raise f s).load = s.load := rfl
@[simp] theorem raise_trace (f : FaultCode) (s : State) : (raise f s).trace = s.trace := rfl
@[simp] theorem raise_fault (f : FaultCode) (s : State) : (raise f s).fault = f := rfl
@[simp] theorem raise_busy (f : FaultCode) (s : State) : (raise f s).busy = s.busy := rfl
@[simp] theorem raise_queue (f : FaultCode) (s : State) : (raise f s).queue = s.queue := rfl
@[simp] theorem raise_ser (f : FaultCode) (s : State) : (raise f s).ser = s.ser := rfl
@[simp] theorem raise_bc (f : FaultCode) (s : State) : (raise f s).bc = s.bc := rfl
@[simp] theorem raise_drv (f : FaultCode) (s : State) : (raise f s).drv = s.drv := rfl
@[simp] theorem raise_inputs (f : FaultCode) (s : State) : (raise f s).inputs = s.inputs := rfl
@[simp] theorem raise_draws (f : FaultCode) (s : State) : (raise f s).draws = s.draws := rfl

/-! ### `State.withSeqRegs` -/

@[simp] theorem withSeqRegs_config (s : State) (q : SeqRegs) : (s.withSeqRegs q).config = s.config := rfl
@[simp] theorem withSeqRegs_chainLen (s : State) (q : SeqRegs) : (s.withSeqRegs q).chainLen = s.chainLen := rfl
@[simp] theorem withSeqRegs_buf (s : State) (q : SeqRegs) : (s.withSeqRegs q).buf = s.buf := rfl
@[simp] theorem withSeqRegs_data (s : State) (q : SeqRegs) : (s.withSeqRegs q).data = s.data := rfl
@[simp] theorem withSeqRegs_clk (s : State) (q : SeqRegs) : (s.withSeqRegs q).clk = s.clk := rfl
@[simp] theorem withSeqRegs_load (s : State) (q : SeqRegs) : (s.withSeqRegs q).load = s.load := rfl
@[simp] theorem withSeqRegs_trace (s : State) (q : SeqRegs) : (s.withSeqRegs q).trace = s.trace := rfl
@[simp] theorem withSeqRegs_fault (s : State) (q : SeqRegs) : (s.withSeqRegs q).fault = s.fault := rfl
@[simp] theorem withSeqRegs_busy (s : State) (q : SeqRegs) : (s.withSeqRegs q).busy = s.busy := rfl
@[simp] theorem withSeqRegs_queue (s : State) (q : SeqRegs) : (s.withSeqRegs q).queue = s.queue := rfl
@[simp] theorem withSeqRegs_ser (s : State) (q : SeqRegs) : (s.withSeqRegs q).ser = q.ser := rfl
@[simp] theorem withSeqRegs_bc (s : State) (q : SeqRegs) : (s.withSeqRegs q).bc = q.bc := rfl
@[simp] theorem withSeqRegs_drv (s : State) (q : SeqRegs) : (s.withSeqRegs q).drv = q.drv := rfl
@[simp] theorem withSeqRegs_inputs (s : State) (q : SeqRegs) : (s.withSeqRegs q).inputs = s.inputs := rfl
@[simp] theorem withSeqRegs_draws (s : State) (q : SeqRegs) : (s.withSeqRegs q).draws = s.draws := rfl

/-! ### `emit` -/

@[simp] theorem emit_config (e : PinEvent) (s : State) : (emit e s).config = s.config := by cases e <;> rfl
@[simp] theorem emit_chainLen (e : PinEvent) (s : State) : (emit e s).chainLen = s.chainLen := by cases e <;> rfl
@[simp] theorem emit_buf (e : PinEvent) (s : State) : (emit e s).buf = s.buf := by cases e <;> rfl
@[simp] theorem emit_trace (e : PinEvent) (s : State) : (emit e s).trace = s.trace ++ [e] := by cases e <;> rfl
@[simp] theorem emit_fault (e : PinEvent) (s : State) : (emit e s).fault = s.fault := by cases e <;> rfl
@[simp] theorem emit_busy (e : PinEvent) (s : State) : (emit e s).busy = s.busy := by cases e <;> rfl
@[simp] theorem emit_queue (e : PinEvent) (s : State) : (emit e s).queue = s.queue := by cases e <;> rfl
@[simp] theorem emit_ser (e : PinEvent) (s : State) : (emit e s).ser = s.ser := by cases e <;> rfl
@[simp] theorem emit_bc (e : PinEvent) (s : State) : (emit e s).bc = s.bc := by cases e <;> rfl
@[simp] theorem emit_drv (e : PinEvent) (s : State) : (emit e s).drv = s.drv := by cases e <;> rfl
@[simp] theorem emit_inputs (e : PinEvent) (s : State) : (emit e s).inputs = s.inputs := by cases e <;> rfl
@[simp] theorem emit_draws (e : PinEvent) (s : State) : (emit e s).draws = s.draws := by cases e <;> rfl
@[simp] theorem emit_latches (e : PinEvent) (s : State) : (emit e s).latches = s.latches.after e := by cases e <;> rfl

/-! ### `presentWord` -/

@[simp] theorem presentWord_config (s : State) (p : PortWord) : (presentWord s p).config = s.config := rfl
@[simp] theorem presentWord_chainLen (s : State) (p : PortWord) : (presentWord s p).chainLen = s.chainLen := rfl
@[simp] theorem presentWord_buf (s : State) (p : PortWord) : (presentWord s p).buf = s.buf := rfl
@[simp] theorem presentWord_data (s : State) (p : PortWord) : (presentWord s p).data = s.data := rfl
@[simp] theorem presentWord_clk (s : State) (p : PortWord) : (presentWord s p).clk = s.clk := rfl
@[simp] theorem presentWord_load (s : State) (p : PortWord) : (presentWord s p).load = s.load := rfl
@[simp] theorem presentWord_trace (s : State) (p : PortWord) : (presentWord s p).trace = s.trace := rfl
@[simp] theorem presentWord_fault (s : State) (p : PortWord) : (presentWord s p).fault = .none := rfl
@[simp] theorem presentWord_busy (s : State) (p : PortWord) : (presentWord s p).busy = false := rfl
@[simp] theorem presentWord_queue (s : State) (p : PortWord) : (presentWord s p).queue = [] := rfl
@[simp] theorem presentWord_ser (s : State) (p : PortWord) : (presentWord s p).ser = { s.ser with ph := .idle } := rfl
@[simp] theorem presentWord_bc (s : State) (p : PortWord) : (presentWord s p).bc = { s.bc with fph := .idle } := rfl
@[simp] theorem presentWord_drv (s : State) (p : PortWord) : (presentWord s p).drv = { s.drv with cmdreg := 0 } := rfl
@[simp] theorem presentWord_inputs (s : State) (p : PortWord) : (presentWord s p).inputs = presents p :: s.inputs := rfl
@[simp] theorem presentWord_draws (s : State) (p : PortWord) : (presentWord s p).draws = s.draws := rfl

/-! ### `State.resetWith` -/

@[simp] theorem resetWith_config (c : Config) (n : BitVec 4) (ms : List HostMove) : (State.resetWith c n ms).config = c := rfl
@[simp] theorem resetWith_chainLen (c : Config) (n : BitVec 4) (ms : List HostMove) : (State.resetWith c n ms).chainLen = n := rfl
@[simp] theorem resetWith_buf (c : Config) (n : BitVec 4) (ms : List HostMove) : (State.resetWith c n ms).buf = [] := rfl
@[simp] theorem resetWith_data (c : Config) (n : BitVec 4) (ms : List HostMove) : (State.resetWith c n ms).data = .x := rfl
@[simp] theorem resetWith_clk (c : Config) (n : BitVec 4) (ms : List HostMove) : (State.resetWith c n ms).clk = .x := rfl
@[simp] theorem resetWith_load (c : Config) (n : BitVec 4) (ms : List HostMove) : (State.resetWith c n ms).load = .x := rfl
@[simp] theorem resetWith_trace (c : Config) (n : BitVec 4) (ms : List HostMove) : (State.resetWith c n ms).trace = [] := rfl
@[simp] theorem resetWith_fault (c : Config) (n : BitVec 4) (ms : List HostMove) : (State.resetWith c n ms).fault = .none := rfl
@[simp] theorem resetWith_busy (c : Config) (n : BitVec 4) (ms : List HostMove) : (State.resetWith c n ms).busy = false := rfl
@[simp] theorem resetWith_queue (c : Config) (n : BitVec 4) (ms : List HostMove) : (State.resetWith c n ms).queue = [] := rfl
@[simp] theorem resetWith_ser (c : Config) (n : BitVec 4) (ms : List HostMove) : (State.resetWith c n ms).ser = SerRegs.reset := rfl
@[simp] theorem resetWith_bc (c : Config) (n : BitVec 4) (ms : List HostMove) : (State.resetWith c n ms).bc = BcRegs.reset := rfl
@[simp] theorem resetWith_drv (c : Config) (n : BitVec 4) (ms : List HostMove) : (State.resetWith c n ms).drv = DrvRegs.reset := rfl
@[simp] theorem resetWith_inputs (c : Config) (n : BitVec 4) (ms : List HostMove) : (State.resetWith c n ms).inputs = ms := rfl
@[simp] theorem resetWith_draws (c : Config) (n : BitVec 4) (ms : List HostMove) : (State.resetWith c n ms).draws = 0 := rfl

/-! ### Levels and pending actions -/

@[simp] theorem afterAll_nil (w : Levels) : w.afterAll [] = w := rfl
@[simp] theorem afterAll_cons (w : Levels) (e : PinEvent) (es : List PinEvent) : w.afterAll (e :: es) = (w.after e).afterAll es := rfl

theorem afterAll_append (w : Levels) (es es' : List PinEvent) : w.afterAll (es ++ es') = (w.afterAll es).afterAll es' :=
  List.foldl_append

@[simp] theorem eventsOf_nil : eventsOf [] = [] := rfl
@[simp] theorem eventsOf_pin (e : PinEvent) (q : List Action) : eventsOf (.pin e :: q) = e :: eventsOf q := rfl
@[simp] theorem eventsOf_wr (i : Nat) (v : Byte) (q : List Action) : eventsOf (.wr i v :: q) = eventsOf q := rfl
@[simp] theorem writesOf_nil : writesOf [] = [] := rfl
@[simp] theorem writesOf_pin (e : PinEvent) (q : List Action) : writesOf (.pin e :: q) = writesOf q := rfl
@[simp] theorem writesOf_wr (i : Nat) (v : Byte) (q : List Action) : writesOf (.wr i v :: q) = (i, v) :: writesOf q := rfl

@[simp] theorem eventsOf_append (q q' : List Action) : eventsOf (q ++ q') = eventsOf q ++ eventsOf q' := List.filterMap_append
@[simp] theorem writesOf_append (q q' : List Action) : writesOf (q ++ q') = writesOf q ++ writesOf q' := List.filterMap_append

@[simp] theorem eventsOf_pins (es : List PinEvent) : eventsOf (pins es) = es := by
  induction es with
  | nil => rfl
  | cons e es ih => exact congrArg (e :: ·) ih

@[simp] theorem writesOf_pins (es : List PinEvent) : writesOf (pins es) = [] := by
  induction es with
  | nil => rfl
  | cons e es ih => exact ih

@[simp] theorem eventsOf_writes (ws : List (Nat × Byte)) : eventsOf (writes ws) = [] := by
  induction ws with
  | nil => rfl
  | cons w ws ih => exact ih

@[simp] theorem writesOf_writes (ws : List (Nat × Byte)) : writesOf (writes ws) = ws := by
  induction ws with
  | nil => rfl
  | cons w ws ih => exact congrArg (w :: ·) ih

theorem length_eq_events_add_writes (q : List Action) : q.length = (writesOf q).length + (eventsOf q).length := by
  induction q with
  | nil => rfl
  | cons a q ih => cases a <;> simp [ih] <;> omega

end Sys2Proof.Machine
end

