-- ==== Sys2Proof/Laws/Ops.lean ====
section
/-! SUPPORT. One lemma per shared operation: everything it can do. -/

namespace Sys2Proof.Machine

/-- Performing an action answers a next state exactly for a pin event or a write inside the framebuffer. -/
theorem performAction_next {a : Action} {s t : State} (h : performAction a s = .next t) :
    (∃ e, a = .pin e ∧ t = emit e s) ∨
    (∃ i v, a = .wr i v ∧ i < 80 ∧ t = { s with buf := Memory.write s.buf i v }) := by
  cases a with
  | pin e => exact .inl ⟨e, rfl, by simpa [performAction] using h.symm⟩
  | wr i v =>
    simp only [performAction] at h
    split at h
    · rename_i hi
      exact .inr ⟨i, v, rfl, hi, by simpa using h.symm⟩
    · cases h

theorem performAction_never_refused {a : Action} {s : State} {r : Refusal} : performAction a s ≠ .refused r := by
  cases a with
  | pin e => simp [performAction]
  | wr i v =>
    simp only [performAction]
    split <;> simp

/-- A reset answers the state of R140 for a legal strap and is refused for another. -/
theorem resetBlock_eq (strap : BitVec 4) (rest : List HostMove) (s : State) :
    resetBlock strap rest s =
      if strapLegal strap then .next { State.resetWith s.config strap rest with draws := s.draws } else .refused .notAConfiguration :=
  rfl

/-- The whole of what accepting a command can do. -/
theorem acceptCommand_cases (i : Instr) (inRange : Bool) (q : List Action) (s : State) :
    (s.configured = false ∧ acceptCommand i inRange q s = .refused .notAConfiguration) ∨
    (s.configured = true ∧ s.canAccept = false ∧ acceptCommand i inRange q s = .next s) ∨
    (s.configured = true ∧ s.canAccept = true ∧ inRange = false ∧ acceptCommand i inRange q s = .next (raise .operandRange s)) ∨
    (s.configured = true ∧ s.canAccept = true ∧ inRange = true ∧
      acceptCommand i inRange q s =
        .next { (s.withSeqRegs (seqStart s.config s.buf i s.seqRegs)) with queue := q, busy := busyWith q }) := by
  unfold acceptCommand
  cases s.configured <;> cases s.canAccept <;> cases inRange <;> simp

/-- The whole of what taking a request can do. -/
theorem takeRequest_cases (free : Bool) (es : List PinEvent) (load : SeqRegs → SeqRegs) (drawn : Nat) (s : State) :
    (s.configured = false ∧ takeRequest free es load drawn s = .refused .notAConfiguration) ∨
    (s.configured = true ∧ free = false ∧ takeRequest free es load drawn s = .next s) ∨
    (s.configured = true ∧ free = true ∧
      takeRequest free es load drawn s =
        .next { (s.withSeqRegs (load s.seqRegs)) with
          queue := pins es, busy := busyWith (pins es), draws := s.draws + drawn }) := by
  unfold takeRequest
  cases s.configured <;> cases free <;> simp

/-- An accepted command in range: the one next state. -/
theorem acceptCommand_accepts {i : Instr} {inRange : Bool} {q : List Action} {s : State} (hc : s.configured = true)
    (ha : s.canAccept = true) (hr : inRange = true) :
    acceptCommand i inRange q s =
      .next { (s.withSeqRegs (seqStart s.config s.buf i s.seqRegs)) with queue := q, busy := busyWith q } := by
  simp [acceptCommand, hc, ha, hr]

theorem acceptCommand_faults {i : Instr} {inRange : Bool} {q : List Action} {s : State} (hc : s.configured = true)
    (ha : s.canAccept = true) (hr : inRange = false) :
    acceptCommand i inRange q s = .next (raise .operandRange s) := by
  simp [acceptCommand, hc, ha, hr]

theorem takeRequest_takes {free : Bool} {es : List PinEvent} {load : SeqRegs → SeqRegs} {drawn : Nat} {s : State}
    (hc : s.configured = true) (ha : free = true) :
    takeRequest free es load drawn s =
      .next { (s.withSeqRegs (load s.seqRegs)) with queue := pins es, busy := busyWith (pins es), draws := s.draws + drawn } := by
  simp [takeRequest, hc, ha]

/-- What a block that can accept looks like. -/
theorem canAccept_iff {s : State} : s.canAccept = true ↔ s.busy = false ∧ s.fault = .none ∧ s.queue = [] := by
  simp [State.canAccept, State.cmdReady, and_assoc]

/-- What a block looks like whose serializer's port takes a request. -/
theorem serTakes_iff {s : State} : s.serTakes = true ↔ s.queue = [] ∧ s.ser.ph = .idle := by
  simp [State.serTakes, SerRegs.serBusy]

/-- What a block looks like whose broadcaster's port takes a request. -/
theorem bcTakes_iff {s : State} : s.bcTakes = true ↔ s.queue = [] ∧ s.ser.ph = .idle ∧ s.bc.fph = .idle := by
  simp [State.bcTakes, serTakes_iff, and_assoc]

/-- Whatever takes an instruction, no action is pending. -/
theorem takes_queue {s : State} {i : Instr} (h : s.takes i = true) : s.queue = [] := by
  cases i <;> first
    | exact (canAccept_iff.1 h).2.2
    | exact (serTakes_iff.1 h).1
    | exact (bcTakes_iff.1 h).1

/-- The port of an instruction is free exactly when the instruction's word is taken. -/
theorem takesWord_encode (s : State) (i : Instr) : s.takesWord (encode i) = s.takes i := by
  cases i <;> rfl

theorem configured_iff {s : State} :
    s.configured = true ↔ 1 ≤ s.chips ∧ s.chips ≤ 10 ∧ configLegal s.config = true := by
  simp [State.configured, strapLegal, State.chips, and_assoc]

/-- The cases of a step, with what each does to the state. -/
theorem performNext_next {a : Action} {rest : List Action} {s t : State} (h : performNext a rest s = .next t) :
    ∃ u, performAction a s = .next u ∧
      t = { (u.withSeqRegs s.advanceSeq) with queue := rest, busy := busyWith rest, inputs := afterWait s.inputs } := by
  unfold performNext at h
  split at h
  · rename_i u hu
    exact ⟨u, hu, by simpa using h.symm⟩
  · cases h
  · cases h

end Sys2Proof.Machine
end

