-- ==== Sys2Proof/Laws/Events.lean ====
section
/-! SUPPORT. The laws of the event lists: lengths, what they leave on the pins, and what an observer of the bus makes of them. -/

namespace Sys2Proof.Machine

/-! ### Lengths -/

@[simp] theorem length_cell (b : Bool) : (cell b).length = 3 := rfl

@[simp] theorem length_serEvents (o : BitOrder) (v : Byte) : (serEvents o v).length = 24 := rfl

@[simp] theorem length_pairEvents (p : Pair) : (pairEvents p).length = 48 := rfl

theorem length_pairsEvents (ps : List Pair) : (ps.flatMap pairEvents).length = 48 * ps.length := by
  induction ps with
  | nil => rfl
  | cons p ps ih => simp [ih]; omega

/-- A frame of `N` pairs is `3 + 48·N` events (R63). -/
@[simp] theorem length_frameEvents (ps : List Pair) : (frameEvents ps).length = 3 + 48 * ps.length := by
  rw [frameEvents, List.length_cons, List.length_append, length_pairsEvents]
  simp only [List.length_cons, List.length_nil]
  omega

@[simp] theorem length_samePairs (n : Nat) (a v : Byte) : (samePairs n a v).length = n := List.length_replicate

@[simp] theorem length_addressedPairs (n t : Nat) (a v : Byte) : (addressedPairs n t a v).length = n := by simp [addressedPairs]

@[simp] theorem length_bufferPairs (n : Nat) (buf : Memory) (d : Nat) (a : Byte) : (bufferPairs n buf d a).length = n := by
  simp [bufferPairs]

/-! ### What they leave on the pins (R70, R73, R87 (d)) -/

theorem afterAll_serEvents (w : Levels) (o : BitOrder) (v : Byte) :
    w.afterAll (serEvents o v) = { w with data := Level.ofBool (cellBit o v 7), clk := .low } := rfl

theorem afterAll_pairEvents (w : Levels) (p : Pair) :
    w.afterAll (pairEvents p) = { w with data := Level.ofBool (p.2.getLsbD 0), clk := .low } := rfl

theorem afterAll_pairsEvents_load (w : Levels) (ps : List Pair) : (w.afterAll (ps.flatMap pairEvents)).load = w.load := by
  induction ps generalizing w with
  | nil => rfl
  | cons p ps ih => rw [List.flatMap_cons, afterAll_append, ih, afterAll_pairEvents]

theorem afterAll_pairsEvents_clk (w : Levels) (ps : List Pair) (h : ps ≠ []) : (w.afterAll (ps.flatMap pairEvents)).clk = .low := by
  induction ps generalizing w with
  | nil => exact absurd rfl h
  | cons p ps ih =>
    rw [List.flatMap_cons, afterAll_append, afterAll_pairEvents]
    by_cases hp : ps = []
    · subst hp; rfl
    · exact ih _ hp

theorem afterAll_pairsEvents_data (w : Levels) (ps : List Pair) (p : Pair) (h : ps.getLast? = some p) :
    (w.afterAll (ps.flatMap pairEvents)).data = Level.ofBool (p.2.getLsbD 0) := by
  induction ps generalizing w with
  | nil => cases h
  | cons p' ps ih =>
    rw [List.flatMap_cons, afterAll_append, afterAll_pairEvents]
    by_cases hp : ps = []
    · subst hp
      obtain rfl : p' = p := by simpa using h
      rfl
    · exact ih _ (by rwa [List.getLast?_cons_of_ne_nil hp] at h)

@[simp] theorem afterAll_frameEvents_load (w : Levels) (ps : List Pair) : (w.afterAll (frameEvents ps)).load = .high := by
  simp [frameEvents, afterAll_append, Levels.after, Level.ofBool]

theorem afterAll_frameEvents_clk (w : Levels) (ps : List Pair) (h : ps ≠ []) : (w.afterAll (frameEvents ps)).clk = .low := by
  simp [frameEvents, afterAll_append, Levels.after, afterAll_pairsEvents_clk _ ps h]

theorem afterAll_frameEvents_data (w : Levels) (ps : List Pair) (p : Pair) (h : ps.getLast? = some p) :
    (w.afterAll (frameEvents ps)).data = Level.ofBool (p.2.getLsbD 0) := by
  simp [frameEvents, afterAll_append, Levels.after, afterAll_pairsEvents_data _ ps p h]

/-! ### What an observer of the bus makes of them (R131) -/

@[simp] theorem seeAll_nil (n : Nat) (o : Observer) : o.seeAll n [] = o := rfl

@[simp] theorem seeAll_cons (n : Nat) (o : Observer) (e : PinEvent) (es : List PinEvent) :
    o.seeAll n (e :: es) = (o.see n e).seeAll n es := rfl

theorem seeAll_append (n : Nat) (o : Observer) (es es' : List PinEvent) :
    o.seeAll n (es ++ es') = (o.seeAll n es).seeAll n es' := List.foldl_append

/-- The data bits of a pair in the order sent. -/
def pairBits (p : Pair) : List Bool :=
  (List.range 8).map (fun i => p.1.getLsbD (7 - i)) ++ (List.range 8).map (fun i => p.2.getLsbD (7 - i))

theorem seeAll_pairEvents (n : Nat) (bits : List Bool) (img : Image) (p : Pair) :
    (Observer.mk (some bits) img).seeAll n (pairEvents p) = ⟨some (bits ++ pairBits p), img⟩ := by
  simp [pairEvents, serEvents, cell, cellBit, List.range, List.range.loop, Observer.see, pairBits]

theorem seeAll_pairsEvents (n : Nat) (bits : List Bool) (img : Image) (ps : List Pair) :
    (Observer.mk (some bits) img).seeAll n (ps.flatMap pairEvents) = ⟨some (bits ++ ps.flatMap pairBits), img⟩ := by
  induction ps generalizing bits with
  | nil => simp
  | cons p ps ih => rw [List.flatMap_cons, seeAll_append, seeAll_pairEvents, ih]; simp

theorem byteOfBits_bits (v : Byte) : byteOfBits ((List.range 8).map fun i => v.getLsbD (7 - i)) = v := by
  revert v; decide

theorem pairsOfBits_cons (p : Pair) (n : Nat) (bits : List Bool) : pairsOfBits (n + 1) (pairBits p ++ bits) = p :: pairsOfBits n bits := by
  have h1 : ((pairBits p ++ bits).take 8) = (List.range 8).map fun i => p.1.getLsbD (7 - i) := by
    simp [pairBits, List.range, List.range.loop]
  have h2 : (((pairBits p ++ bits).drop 8).take 8) = (List.range 8).map fun i => p.2.getLsbD (7 - i) := by
    simp [pairBits, List.range, List.range.loop]
  have h3 : (pairBits p ++ bits).drop 16 = bits := by simp [pairBits, List.range, List.range.loop]
  rw [pairsOfBits, h1, h2, h3, byteOfBits_bits, byteOfBits_bits]

theorem pairsOfBits_bits (ps : List Pair) : pairsOfBits ps.length (ps.flatMap pairBits) = ps := by
  induction ps with
  | nil => rfl
  | cons p ps ih => rw [List.flatMap_cons, List.length_cons, pairsOfBits_cons, ih]

/-- A frame of one pair for each chip, seen from outside a frame, latches its pairs. -/
theorem seeAll_frameEvents (img : Image) (ps : List Pair) :
    (Observer.mk none img).seeAll ps.length (frameEvents ps) = ⟨none, Image.latch ps img⟩ := by
  rw [frameEvents, seeAll_cons]
  show (Observer.mk (some []) img).seeAll ps.length (ps.flatMap pairEvents ++ _) = _
  rw [seeAll_append, seeAll_pairsEvents]
  simp [Observer.see, pairsOfBits_bits]

/-- A frame is open for the observer exactly while the load line is low. -/
theorem frame_open_iff (n : Nat) (o : Observer) (w : Levels) (es : List PinEvent) (h : o.frame.isSome ↔ w.load = .low) :
    (o.seeAll n es).frame.isSome ↔ (w.afterAll es).load = .low := by
  induction es generalizing o w with
  | nil => exact h
  | cons e es ih =>
    refine ih _ _ ?_
    obtain ⟨fr, img⟩ := o
    cases e with
    | d b => cases fr <;> simpa [Observer.see, Levels.after] using h
    | c b => cases fr <;> simpa [Observer.see, Levels.after] using h
    | l b => cases fr <;> cases b <;> simp [Observer.see, Levels.after, Level.ofBool]

/-- Reading an image after a frame. -/
theorem latch_at (ps : List Pair) (img : Image) (i : Nat) (a : Byte) :
    Image.latch ps img i a = match ps[i]? with
      | some p => if p.1 = a ∧ a ≠ 0 then some p.2 else img i a
      | none => img i a := rfl

/-! ### Several frames -/

theorem chips_bounds {s : State} (hs : s.Ready) : 1 ≤ s.chips ∧ s.chips ≤ 10 :=
  ⟨(configured_iff.1 hs.inv.configured).1, (configured_iff.1 hs.inv.configured).2.1⟩

theorem samePairs_ne {n : Nat} {a v : Byte} (hn : 1 ≤ n) : samePairs n a v ≠ [] := by
  intro h
  have := congrArg List.length h
  simp at this
  omega

theorem addressedPairs_ne {n t : Nat} {a v : Byte} (hn : 1 ≤ n) : addressedPairs n t a v ≠ [] := by
  intro h
  have := congrArg List.length h
  simp at this
  omega

theorem bufferPairs_ne {n d : Nat} {buf : Memory} {a : Byte} (hn : 1 ≤ n) : bufferPairs n buf d a ≠ [] := by
  intro h
  have := congrArg List.length h
  simp at this
  omega

theorem samePairs_getLast {n : Nat} {a v : Byte} (hn : 1 ≤ n) : (samePairs n a v).getLast? = some (a, v) := by
  rw [samePairs, List.getLast?_replicate]
  simp
  omega

theorem addressedPairs_at (n t i : Nat) (a v : Byte) :
    (addressedPairs n t a v)[i]? = if i < n then some (if i = t then (a, v) else (0, 0)) else none := by
  by_cases h : i < n <;> simp [addressedPairs, h]

theorem frames_load (w : Levels) (fs : List (List Pair)) (h : fs ≠ []) : (w.afterAll (fs.flatMap frameEvents)).load = .high := by
  induction fs generalizing w with
  | nil => exact absurd rfl h
  | cons f fs ih =>
    rw [List.flatMap_cons, afterAll_append]
    by_cases hp : fs = []
    · subst hp; simp
    · exact ih _ hp

theorem frames_clk (w : Levels) (fs : List (List Pair)) (h : fs ≠ []) (h' : ∀ f ∈ fs, f ≠ []) :
    (w.afterAll (fs.flatMap frameEvents)).clk = .low := by
  induction fs generalizing w with
  | nil => exact absurd rfl h
  | cons f fs ih =>
    rw [List.flatMap_cons, afterAll_append]
    by_cases hp : fs = []
    · subst hp; simp [afterAll_frameEvents_clk _ _ (h' f (by simp))]
    · exact ih _ hp (fun g hg => h' g (by simp [hg]))

theorem frames_data (w : Levels) (fs : List (List Pair)) (f : List Pair) (p : Pair) (h : fs.getLast? = some f)
    (h' : f.getLast? = some p) : (w.afterAll (fs.flatMap frameEvents)).data = Level.ofBool (p.2.getLsbD 0) := by
  induction fs generalizing w with
  | nil => cases h
  | cons g fs ih =>
    rw [List.flatMap_cons, afterAll_append]
    by_cases hp : fs = []
    · subst hp
      obtain rfl : g = f := by simpa using h
      simpa using afterAll_frameEvents_data w g p h'
    · exact ih _ (by rwa [List.getLast?_cons_of_ne_nil hp] at h)

/-- `RELOAD` as a list of frames. -/
theorem reloadEvents_eq (n : Nat) (buf : Memory) : reloadEvents n buf =
    ((List.range 8).map fun k => (List.range n).map fun i => (regAddr k, Memory.read buf (i * 8 + k))).flatMap frameEvents := by
  rw [List.flatMap_map]; rfl

/-- `CLEAR` as a list of frames. -/
theorem clearEvents_eq (n : Nat) :
    clearEvents n = ((List.range 8).map fun k => samePairs n (regAddr k) 0).flatMap frameEvents := by
  rw [List.flatMap_map]; rfl

theorem afterAll_reloadEvents_load (w : Levels) (n : Nat) (buf : Memory) : (w.afterAll (reloadEvents n buf)).load = .high := by
  rw [reloadEvents_eq]; exact frames_load _ _ (by simp)

theorem afterAll_reloadEvents_clk (w : Levels) {n : Nat} (buf : Memory) (hn : 1 ≤ n) :
    (w.afterAll (reloadEvents n buf)).clk = .low := by
  rw [reloadEvents_eq]
  refine frames_clk _ _ (by simp) ?_
  intro f hf
  obtain ⟨k, -, rfl⟩ := List.mem_map.1 hf
  intro h
  have := congrArg List.length h
  simp at this
  omega

theorem clearFrames_ne {n : Nat} (hn : 1 ≤ n) : ∀ f ∈ (List.range 8).map fun k => samePairs n (regAddr k) 0, f ≠ [] := by
  intro f hf
  obtain ⟨k, -, rfl⟩ := List.mem_map.1 hf
  exact samePairs_ne hn

theorem afterAll_clearEvents_load (w : Levels) (n : Nat) : (w.afterAll (clearEvents n)).load = .high := by
  rw [clearEvents_eq]; exact frames_load _ _ (by simp)

theorem afterAll_clearEvents_clk (w : Levels) {n : Nat} (hn : 1 ≤ n) : (w.afterAll (clearEvents n)).clk = .low := by
  rw [clearEvents_eq]; exact frames_clk _ _ (by simp) (clearFrames_ne hn)

end Sys2Proof.Machine
end

