-- ==== Sys2Proof/Laws/Buffer.lean ====
section
/-! SUPPORT. The laws of the operand forms, and what each command's list of buffer writes leaves in the framebuffer. -/

namespace Sys2Proof.Machine

/-! ### Bits of a byte -/

theorem rowMask_bit (row : Byte) (r : Nat) (hr : r < 8) :
    (rowMask row).getLsbD r = decide (r = row.toNat) := by
  unfold rowMask
  simp only [BitVec.getLsbD_shiftLeft, BitVec.getLsbD_one, hr]
  by_cases h : r = row.toNat
  · simp [h]
  · simp [h]; omega

/-- The updated byte differs from the old one at the row alone (R91). -/
theorem updatedByte_bit (b row : Byte) (val : Bool) (r : Nat) (hr : r < 8) :
    (updatedByte b row val).getLsbD r = if r = row.toNat then val else b.getLsbD r := by
  unfold updatedByte
  cases val
  · simp only [if_false, Bool.false_eq_true, BitVec.getLsbD_and, BitVec.getLsbD_not, rowMask_bit row r hr, hr]
    by_cases h : r = row.toNat <;> simp [h]
  · simp only [if_true, BitVec.getLsbD_or, rowMask_bit row r hr]
    by_cases h : r = row.toNat <;> simp [h]

theorem shiftByteUp_bits : ∀ (b : Byte) (rot : Bool),
    (∀ r < 7, (shiftByteUp rot b).getLsbD r = b.getLsbD (r + 1)) ∧ (shiftByteUp rot b).getLsbD 7 = (rot && b.getLsbD 0) := by
  decide

theorem shiftByteDown_bits : ∀ (b : Byte) (rot : Bool),
    (∀ r < 7, (shiftByteDown rot b).getLsbD (r + 1) = b.getLsbD r) ∧ (shiftByteDown rot b).getLsbD 0 = (rot && b.getLsbD 7) := by
  decide

/-- Either index rule stays inside the active window (R94, R48). -/
theorem columnAllIndex_lt (rule : ColumnAllIndexing) {n i : Nat} {c : Byte} (hi : i < n) (hc : c.toNat < 8) :
    columnAllIndex rule c i < 8 * n := by
  cases rule
  · show c.toNat * i < 8 * n
    have : c.toNat * i ≤ 7 * i := Nat.mul_le_mul_right _ (by omega)
    omega
  · show i * 8 + c.toNat < 8 * n
    omega

/-! ### The writes of `CLEAR` -/

theorem clearWrites_lt : ∀ w ∈ clearWrites, w.1 < 80 := by
  intro w hw
  simp only [clearWrites, List.mem_map, List.mem_range] at hw
  obtain ⟨i, hi, rfl⟩ := hw
  exact hi

theorem read_clearWrites {m : Memory} (h : Memory.wf m = true) (j : Nat) : Memory.read (Memory.writeAll m clearWrites) j = 0 := by
  by_cases hj : j < 80
  · refine Memory.read_writeAll_named h clearWrites_lt ⟨(j, 0), ?_, rfl⟩ ?_
    · simp [clearWrites, hj]
    · intro w hw _
      simp only [clearWrites, List.mem_map] at hw
      obtain ⟨i, -, rfl⟩ := hw
      rfl
  · exact Memory.read_outside (Memory.wf_writeAll h clearWrites_lt) (by omega)

/-! ### The writes of the shifts -/

theorem edgeWrite_index {r f : Bool} {e : Nat} {b : Byte} {w : Nat × Byte} (h : w ∈ edgeWrite r f e b) : w.1 = e := by
  unfold edgeWrite at h
  cases r <;> cases f <;> simp at h <;> simp [h]

theorem edgeWrite_length (r f : Bool) (e : Nat) (b : Byte) : (edgeWrite r f e b).length = if r || f then 1 else 0 := by
  cases r <;> cases f <;> rfl

theorem shiftLeftWrites_lt (m : Memory) (r f : Bool) : ∀ w ∈ shiftLeftWrites m r f, w.1 < 80 := by
  intro w hw
  simp only [shiftLeftWrites, List.mem_append, List.mem_map, List.mem_range] at hw
  rcases hw with ⟨i, hi, rfl⟩ | h
  · show i < 80
    omega
  · have := edgeWrite_index h
    omega

theorem shiftRightWrites_lt (m : Memory) (r f : Bool) : ∀ w ∈ shiftRightWrites m r f, w.1 < 80 := by
  intro w hw
  simp only [shiftRightWrites, List.mem_append, List.mem_map, List.mem_range] at hw
  rcases hw with ⟨i, hi, rfl⟩ | h
  · show i + 1 < 80
    omega
  · have := edgeWrite_index h
    omega

theorem verticalWrites_lt {n : Nat} (hn : n ≤ 10) (m : Memory) (f : Byte → Byte) : ∀ w ∈ verticalWrites n m f, w.1 < 80 := by
  intro w hw
  simp only [verticalWrites, List.mem_map, List.mem_range, colsPerChip] at hw
  obtain ⟨i, hi, rfl⟩ := hw
  show i < 80
  omega

theorem read_verticalWrites {m : Memory} (h : Memory.wf m = true) {n : Nat} (hn : n ≤ 10) (f : Byte → Byte) (j : Nat) :
    Memory.read (Memory.writeAll m (verticalWrites n m f)) j = if j < 8 * n then f (Memory.read m j) else Memory.read m j := by
  split
  · rename_i hj
    refine Memory.read_writeAll_named h (verticalWrites_lt hn m f) ⟨(j, f (Memory.read m j)), by simp [verticalWrites, hj], rfl⟩ ?_
    intro w hw hwj
    simp only [verticalWrites, List.mem_map] at hw
    obtain ⟨i, -, rfl⟩ := hw
    obtain rfl : i = j := hwj
    rfl
  · rename_i hj
    refine Memory.read_writeAll_other h (verticalWrites_lt hn m f) ?_
    intro w hw
    simp only [verticalWrites, List.mem_map, List.mem_range, colsPerChip] at hw
    obtain ⟨i, hi, rfl⟩ := hw
    show i ≠ j
    omega

end Sys2Proof.Machine
end

