-- ==== Sys2Proof/Laws/Decode.lean ====
section
/-! SUPPORT. The laws of the word fields: a word is its four byte fields, a broadcaster request its four fields. -/

namespace Sys2Proof

/-- The fields of a word put together from four bytes. -/
theorem fields_cmdOf (op a b v : Byte) :
    opField (cmdOf op a b v) = op ∧ aField (cmdOf op a b v) = a ∧ bField (cmdOf op a b v) = b ∧ vField (cmdOf op a b v) = v := by
  refine ⟨?_, ?_, ?_, ?_⟩ <;> ext k hk <;>
    simp only [opField, aField, bField, vField, cmdOf, BitVec.getElem_extractLsb', BitVec.getLsbD_append]
  · simp [show ¬ 24 + k < 8 by omega, show ¬ 24 + k - 8 < 8 by omega, show ¬ 24 + k - 8 - 8 < 8 by omega,
      show 24 + k - 8 - 8 - 8 = k by omega, BitVec.getLsbD_eq_getElem hk]
  · simp [show ¬ 16 + k < 8 by omega, show ¬ 16 + k - 8 < 8 by omega, show 16 + k - 8 - 8 = k by omega, hk]
  · simp [hk]
  · simp [hk]

/-- The fields of a broadcaster request. -/
theorem fields_bc (kk : BitVec 2) (t : BitVec 4) (a v : Byte) :
    (kk ++ t ++ a ++ v : BcWord).extractLsb' 20 2 = kk ∧ (kk ++ t ++ a ++ v : BcWord).extractLsb' 16 4 = t ∧
    (kk ++ t ++ a ++ v : BcWord).extractLsb' 8 8 = a ∧ (kk ++ t ++ a ++ v : BcWord).extractLsb' 0 8 = v := by
  refine ⟨?_, ?_, ?_, ?_⟩ <;> ext k hk <;> simp only [BitVec.getElem_extractLsb', BitVec.getLsbD_append]
  · simp [show ¬ 20 + k < 8 by omega, show ¬ 20 + k - 8 < 8 by omega, show ¬ 20 + k - 8 - 8 < 4 by omega,
      show 20 + k - 8 - 8 - 4 = k by omega, BitVec.getLsbD_eq_getElem hk]
  · simp [show ¬ 16 + k < 8 by omega, show ¬ 16 + k - 8 < 8 by omega, show 16 + k - 8 - 8 = k by omega, hk]
  · simp [hk]
  · simp [hk]

/-- A word is its four byte fields. -/
theorem cmdOf_fields (w : CmdWord) : cmdOf (opField w) (aField w) (bField w) (vField w) = w := by
  ext k hk
  rw [← BitVec.getLsbD_eq_getElem hk, ← BitVec.getLsbD_eq_getElem hk]
  simp only [opField, aField, bField, vField, cmdOf, BitVec.getLsbD_append, BitVec.getLsbD_extractLsb']
  by_cases h0 : k < 8
  · simp [h0]
  · by_cases h1 : k < 16
    · have e : 8 + (k - 8) = k := by omega
      simp [h0, show k - 8 < 8 by omega, e]
    · by_cases h2 : k < 24
      · have e : 16 + (k - 8 - 8) = k := by omega
        simp [h0, show ¬ k - 8 < 8 by omega, show k - 8 - 8 < 8 by omega, e]
      · have e : 24 + (k - 8 - 8 - 8) = k := by omega
        simp [h0, show ¬ k - 8 < 8 by omega, show ¬ k - 8 - 8 < 8 by omega, show k - 8 - 8 - 8 < 8 by omega, e]

theorem ifZero_eq_ok {z : Bool} {i j : Instr} : ifZero z i = .ok j ↔ z = true ∧ i = j := by
  cases z <;> simp [ifZero]

end Sys2Proof
end

