-- ==== Sys2Proof/Laws/PerInstr.lean ====
section
/-! SUPPORT. Per-instruction laws about the instructions as syntax. -/

namespace Sys2Proof.Laws.MatchesRow

/-- The word of the instruction is one of its row of the opcode table: a command word is selected by the row of its mnemonic
(30_encoding.md R52), a request has the order bit or the kind bits of its row (R64). -/
def Statement (i : Instr) : Prop :=
  match encode i with
  | .cmd w => ∃ r ∈ opcodeRows, r.mnemonic = mnemonicOf i ∧ r.selects w = true
  | .ser w => (mnemonicOf i = "SER_MSB" ∧ w.getLsbD 8 = false) ∨ (mnemonicOf i = "SER_LSB" ∧ w.getLsbD 8 = true)
  | .bc w =>
    (mnemonicOf i = "BC_SAME" ∧ w.extractLsb' 16 6 = 0#6) ∨ (mnemonicOf i = "BC_ADDR" ∧ w.extractLsb' 20 2 = 1#2) ∨
    (mnemonicOf i = "BC_BUF" ∧ w.extractLsb' 16 6 = 32#6 ∧ w.extractLsb' 0 8 = 0#8)

/-- A mask that is itself built of four bytes selects field by field. -/
theorem selects_cmdOf (m : String) (p0 p1 p2 p3 q0 q1 q2 q3 op a b v : Byte) :
    (OpcodeRow.mk m (cmdOf p0 p1 p2 p3) (cmdOf q0 q1 q2 q3)).selects (cmdOf op a b v) = true ↔
      op &&& q0 = p0 ∧ a &&& q1 = p1 ∧ b &&& q2 = p2 ∧ v &&& q3 = p3 := by
  have and_cmdOf : cmdOf op a b v &&& cmdOf q0 q1 q2 q3 = cmdOf (op &&& q0) (a &&& q1) (b &&& q2) (v &&& q3) := by
    refine BitVec.eq_of_getLsbD_eq fun k hk => ?_
    simp only [cmdOf, BitVec.getLsbD_and, BitVec.getLsbD_append]
    split
    · rfl
    · split
      · rfl
      · split <;> rfl
  constructor
  · intro h
    have e : cmdOf (op &&& q0) (a &&& q1) (b &&& q2) (v &&& q3) = cmdOf p0 p1 p2 p3 := by
      rw [← and_cmdOf]; simpa [OpcodeRow.selects] using h
    have f := fields_cmdOf (op &&& q0) (a &&& q1) (b &&& q2) (v &&& q3)
    rw [e] at f
    have g := fields_cmdOf p0 p1 p2 p3
    exact ⟨f.1.symm.trans g.1, f.2.1.symm.trans g.2.1, f.2.2.1.symm.trans g.2.2.1, f.2.2.2.symm.trans g.2.2.2⟩
  · rintro ⟨rfl, rfl, rfl, rfl⟩
    simp [OpcodeRow.selects, and_cmdOf]

theorem low_zero : ∀ v : Byte, v &&& 0#8 = 0#8 := by decide

theorem init : Statement .init := ⟨⟨"INIT", 0x01000000, 0xFFFFFFFF⟩, by decide, rfl, by decide⟩
theorem clear : Statement .clear := ⟨⟨"CLEAR", 0x02000000, 0xFFFFFFFF⟩, by decide, rfl, by decide⟩
theorem setIntensity (level : Byte) : Statement (.setIntensity level) :=
  ⟨⟨"SET_INTENSITY", 0x03000000, 0xFFFFFF00⟩, by decide, rfl,
    (selects_cmdOf _ 0x03 0 0 0 0xFF 0xFF 0xFF 0 0x03 0 0 level).2 ⟨rfl, rfl, rfl, low_zero level⟩⟩
theorem setColumn (col value : Byte) : Statement (.setColumn col value) :=
  ⟨⟨"SET_COLUMN", 0x04000000, 0xFF00FF00⟩, by decide, rfl,
    (selects_cmdOf _ 0x04 0 0 0 0xFF 0 0xFF 0 0x04 col 0 value).2 ⟨rfl, low_zero col, rfl, low_zero value⟩⟩
theorem setColumnAll (col value : Byte) : Statement (.setColumnAll col value) :=
  ⟨⟨"SET_COLUMN_ALL", 0x05000000, 0xFF00FF00⟩, by decide, rfl,
    (selects_cmdOf _ 0x05 0 0 0 0xFF 0 0xFF 0 0x05 col 0 value).2 ⟨rfl, low_zero col, rfl, low_zero value⟩⟩
theorem updateBufferAt (col row : Byte) (val : Bool) : Statement (.updateBufferAt col row val) :=
  ⟨⟨"UPDATE_BUFFER_AT", 0x06000000, 0xFF0000FE⟩, by decide, rfl,
    (selects_cmdOf _ 0x06 0 0 0 0xFF 0 0 0xFE 0x06 col row (bitByte val)).2
      ⟨rfl, low_zero col, low_zero row, by cases val <;> rfl⟩⟩
theorem setDot (col row : Byte) (val : Bool) : Statement (.setDot col row val) :=
  ⟨⟨"SET_DOT", 0x07000000, 0xFF0000FE⟩, by decide, rfl,
    (selects_cmdOf _ 0x07 0 0 0 0xFF 0 0 0xFE 0x07 col row (bitByte val)).2
      ⟨rfl, low_zero col, low_zero row, by cases val <;> rfl⟩⟩
theorem shiftLeft (r f : Bool) : Statement (.shiftLeft r f) :=
  ⟨⟨"SHIFT_LEFT", 0x08000000, 0xFFFFFCFF⟩, by decide, rfl, by cases r <;> cases f <;> decide⟩
theorem shiftRight (r f : Bool) : Statement (.shiftRight r f) :=
  ⟨⟨"SHIFT_RIGHT", 0x09000000, 0xFFFFFCFF⟩, by decide, rfl, by cases r <;> cases f <;> decide⟩
theorem shiftUp (r : Bool) : Statement (.shiftUp r) :=
  ⟨⟨"SHIFT_UP", 0x0A000000, 0xFFFFFEFF⟩, by decide, rfl, by cases r <;> decide⟩
theorem shiftDown (r : Bool) : Statement (.shiftDown r) :=
  ⟨⟨"SHIFT_DOWN", 0x0B000000, 0xFFFFFEFF⟩, by decide, rfl, by cases r <;> decide⟩
theorem reload : Statement .reload := ⟨⟨"RELOAD", 0x0C000000, 0xFFFFFFFF⟩, by decide, rfl, by decide⟩
theorem serMsb (v : Byte) : Statement (.serMsb v) := .inl ⟨rfl, by rw [BitVec.getLsbD_append]; rfl⟩
theorem serLsb (v : Byte) : Statement (.serLsb v) := .inr ⟨rfl, by rw [BitVec.getLsbD_append]; rfl⟩

theorem kind_and_target (kk : BitVec 2) (t : BitVec 4) (a v : Byte) :
    (kk ++ t ++ a ++ v : BcWord).extractLsb' 16 6 = kk ++ t := by
  ext k hk
  simp only [BitVec.getElem_extractLsb', BitVec.getLsbD_append]
  rw [← BitVec.getLsbD_eq_getElem hk, BitVec.getLsbD_append]
  simp [show ¬ 16 + k < 8 by omega, show ¬ 16 + k - 8 < 8 by omega, show 16 + k - 8 - 8 = k by omega]

theorem bcSame (a v : Byte) : Statement (.bcSame a v) := .inl ⟨rfl, kind_and_target 0 0 a v⟩
theorem bcAddr (n : BitVec 4) (a v : Byte) : Statement (.bcAddr n a v) := .inr (.inl ⟨rfl, (fields_bc 1 n a v).1⟩)
theorem bcBuf (a : Byte) : Statement (.bcBuf a) :=
  .inr (.inr ⟨rfl, kind_and_target 2 0 a 0, (fields_bc 2 0 a 0).2.2.2⟩)

end Sys2Proof.Laws.MatchesRow
end

