-- ==== Sys2Proof/Laws/Run.lean ====
section
/-! SUPPORT. Performing a whole queue: with no reset to come, one step performs each pending action, and what the steps leave
is the writes applied to the framebuffer and the events appended to the trace. -/

namespace Sys2Proof.Machine

theorem afterWait_undisturbed {ms : List HostMove} (h : (ms.all fun m => !m.isReset) = true) :
    ((afterWait ms).all fun m => !m.isReset) = true := by
  cases ms with
  | nil => exact h
  | cons m ms =>
    cases m with
    | wait => exact (Bool.and_eq_true _ _ ▸ h : _ ∧ _).2
    | command w => exact h
    | reset n => exact h
    | serRequest w => exact h
    | bcRequest w => exact h

/-- A run of `k + 1` steps is a step and a run of `k`. -/
theorem run_succ {s t : State} {k : Nat} (h : step s = .next t) : Host.Core.run core (k + 1) s = Host.Core.run core k t := by
  have hcore : core.step s = Host.Outcome.next (σ := core.State) t := h
  refine (Host.Core.run.eq_2 core s k).trans ?_
  rw [hcore]

theorem run_zero (s : State) : Host.Core.run core 0 s = .next s := rfl

/-- Without a reset to come, a step of a busy block performs the next action. -/
theorem step_performs {s : State} {a : Action} {rest : List Action} (hu : s.undisturbed = true) (hq : s.queue = a :: rest) :
    step s = performNext a rest s := by
  unfold step stepBlock
  rw [hq]
  cases hi : s.inputs with
  | nil => rfl
  | cons m ms =>
    cases m with
    | reset n => simp [State.undisturbed, hi, HostMove.isReset] at hu
    | wait => rfl
    | command w => rfl
    | serRequest w => rfl
    | bcRequest w => rfl

/-- What is left when the queue of `t` has been performed. -/
structure Drained (t u : State) : Prop where
  queue : u.queue = []
  busy : u.busy = false
  buf : u.buf = Memory.writeAll t.buf (writesOf t.queue)
  trace : u.trace = t.trace ++ eventsOf t.queue
  latches : u.latches = t.latches.afterAll (eventsOf t.queue)
  fault : u.fault = t.fault
  config : u.config = t.config
  chainLen : u.chainLen = t.chainLen
  draws : u.draws = t.draws
  undisturbed : u.undisturbed = true

/-- The queue drains: as many steps as it has actions perform them all. -/
theorem run_queue {t : State} (hb : t.busy = busyWith t.queue) (hu : t.undisturbed = true)
    (hr : ((writesOf t.queue).all fun w => decide (w.1 < bufLen)) = true) :
    ∃ u, Host.Core.run core t.queue.length t = .next u ∧ Drained t u := by
  generalize hn : t.queue = q
  induction q generalizing t with
  | nil => exact ⟨t, rfl, ⟨hn, by simp [hb, hn, busyWith], by simp [hn], by simp [hn], by simp [hn], rfl, rfl, rfl, rfl, hu⟩⟩
  | cons a rest ih =>
    have one : ∃ v, performAction a t = .next v ∧ v.buf = Memory.writeAll t.buf (writesOf [a]) ∧
        v.trace = t.trace ++ eventsOf [a] ∧ v.latches = t.latches.afterAll (eventsOf [a]) ∧ v.fault = t.fault ∧
        v.config = t.config ∧ v.chainLen = t.chainLen ∧ v.draws = t.draws ∧ v.inputs = t.inputs := by
      cases a with
      | pin e => exact ⟨emit e t, rfl, by simp [eventsOf, writesOf]⟩
      | wr i v =>
        have hi : i < bufLen := by
          have := hr
          rw [hn] at this
          exact of_decide_eq_true (Bool.and_eq_true _ _ ▸ this : _ ∧ _).1
        exact ⟨{ t with buf := Memory.write t.buf i v }, by simp [performAction, hi], by simp [eventsOf, writesOf]; rfl⟩
    obtain ⟨v, hv, hbuf, htr, hla, hf, hc, hcl, hd, hin⟩ := one
    let t' : State := { (v.withSeqRegs t.advanceSeq) with queue := rest, busy := busyWith rest, inputs := afterWait t.inputs }
    have hstep : step t = .next t' := by rw [step_performs hu hn, performNext, hv]
    have hr' : ((writesOf t'.queue).all fun w => decide (w.1 < bufLen)) = true := by
      rw [hn] at hr
      cases a with
      | pin e => exact hr
      | wr i w => exact (Bool.and_eq_true _ _ ▸ hr : _ ∧ _).2
    obtain ⟨u, hrun, hd'⟩ := ih (t := t') rfl (afterWait_undisturbed hu) hr' rfl
    refine ⟨u, ?_, ?_⟩
    · exact (run_succ hstep).trans hrun
    · have split : a :: rest = [a] ++ rest := rfl
      refine ⟨hd'.queue, hd'.busy, ?_, ?_, ?_, hd'.fault.trans hf, hd'.config.trans hc, hd'.chainLen.trans hcl, hd'.draws.trans hd,
        hd'.undisturbed⟩
      · rw [hn, split, writesOf_append, Memory.writeAll_append, ← hbuf]
        exact hd'.buf
      · rw [hn, split, eventsOf_append, ← List.append_assoc, ← htr]
        exact hd'.trace
      · rw [hn, split, eventsOf_append, afterAll_append, ← hla]
        exact hd'.latches

/-- The end of an instruction that was accepted in `s` with the actions `q`. -/
structure EndsWith (s : State) (q : List Action) (u : State) : Prop where
  settings : SameSettings s u
  buf : u.buf = Memory.writeAll s.buf (writesOf q)
  trace : u.trace = s.trace ++ eventsOf q
  latches : u.latches = s.latches.afterAll (eventsOf q)
  undisturbed : u.undisturbed = true

theorem EndsWith.data_eq {s u : State} {q : List Action} (h : EndsWith s q u) : u.data = (s.latches.afterAll (eventsOf q)).data :=
  congrArg Levels.data h.latches

theorem EndsWith.clk_eq {s u : State} {q : List Action} (h : EndsWith s q u) : u.clk = (s.latches.afterAll (eventsOf q)).clk :=
  congrArg Levels.clk h.latches

theorem EndsWith.load_eq {s u : State} {q : List Action} (h : EndsWith s q u) : u.load = (s.latches.afterAll (eventsOf q)).load :=
  congrArg Levels.load h.latches

/-- A command in range is accepted by a ready block and runs to its end. -/
theorem acceptCommand_completes {i : Instr} {inRange : Bool} {q : List Action} {s : State} (hs : s.Ready) (hr : inRange = true)
    (hq : ((writesOf q).all fun w => decide (w.1 < bufLen)) = true) :
    ∃ t u, acceptCommand i inRange q s = .next t ∧ t.queue = q ∧ CompletesTo t u ∧ EndsWith s q u := by
  let t : State := { (s.withSeqRegs (seqStart s.config s.buf i s.seqRegs)) with queue := q, busy := busyWith q }
  obtain ⟨u, hrun, hd⟩ := run_queue (t := t) rfl hs.undisturbed hq
  refine ⟨t, u, acceptCommand_accepts hs.inv.configured hs.accepts hr, rfl, ⟨hrun, hd.queue, hd.busy, ?_⟩,
    ⟨⟨hd.config, hd.chainLen⟩, hd.buf, hd.trace, hd.latches, hd.undisturbed⟩⟩
  exact hd.fault.trans (canAccept_iff.1 hs.accepts).2.1

/-- A request is taken at a free port, whatever the fault code, and runs to its end. -/
theorem takeRequest_completes {free : Bool} {es : List PinEvent} {load : SeqRegs → SeqRegs} {drawn : Nat} {s : State}
    (hc : s.configured = true) (hu : s.undisturbed = true) (hf : free = true) :
    ∃ t u, takeRequest free es load drawn s = .next t ∧ t.queue = pins es ∧ t.fault = s.fault ∧ PerformedTo t u ∧
      EndsWith s (pins es) u := by
  let t : State := { (s.withSeqRegs (load s.seqRegs)) with
    queue := pins es, busy := busyWith (pins es), draws := s.draws + drawn }
  obtain ⟨u, hrun, hd⟩ := run_queue (t := t) rfl hu (by simp [t])
  exact ⟨t, u, takeRequest_takes hc hf, rfl, rfl, ⟨hrun, hd.queue, hd.busy, hd.fault⟩,
    ⟨⟨hd.config, hd.chainLen⟩, hd.buf, hd.trace, hd.latches, hd.undisturbed⟩⟩

end Sys2Proof.Machine
end

