-- ==== Sys2Proof/Laws/Sequencer.lean ====
section
/-! SUPPORT. What the reference machines do over one byte of a frame: `ser_busy` is 0 before it and after it (40_serializer.md R72),
and they perform exactly its 24 events (R75, 41_broadcaster.md R86). -/

namespace Sys2Proof.Machine

/-- With `ser_busy = 1` the serializer goes on with its byte. -/
theorem bcServe_busy {buf : Memory} {draws : Nat} {b : BcRegs} {r : SerRegs} (h : r.ph ≠ .idle) : bcServe buf draws b r = r := by
  simp [bcServe, SerRegs.serBusy, h]

/-- With `ser_busy = 0` it takes the request for the byte that `Select` gives. -/
theorem bcServe_free {buf : Memory} {draws : Nat} {b : BcRegs} {r : SerRegs} (h : r.ph = .idle) :
    bcServe buf draws b r = serLoad .msbFirst (bcSelect buf draws b) := by
  simp [bcServe, SerRegs.serBusy, h]

/-- While the pairs of a frame are sent, the next action is the serializer's next event. -/
theorem seqAdvance_pairs {cfg : Config} {n : BitVec 4} {buf : Memory} {draws : Nat} {q : SeqRegs} {e : PinEvent} {r : SerRegs}
    (hf : q.bc.fph = .pairs) (hl : serLine (bcServe buf draws q.bc q.ser) = some (e, r)) :
    seqAdvance cfg n buf draws q =
      some (.pin e, { q with bc := if r.serBusy then q.bc else bcAfterByte n q.bc, ser := r }) := by
  unfold seqAdvance
  simp only [bcLine, hf, hl]
  cases decodeCommand q.drv.cmdreg <;> simp

/-- The same of a run of the machines: the event, then what they do from there. -/
theorem seqUnroll_pairs {cfg : Config} {n : BitVec 4} {buf : Memory} {draws fuel : Nat} {q : SeqRegs} {e : PinEvent} {r : SerRegs}
    (hf : q.bc.fph = .pairs) (hl : serLine (bcServe buf draws q.bc q.ser) = some (e, r)) :
    seqUnroll cfg n draws (fuel + 1) buf q =
      let later := seqUnroll cfg n draws fuel buf { q with bc := if r.serBusy then q.bc else bcAfterByte n q.bc, ser := r }
      (.pin e :: later.1, later.2) := by
  simp only [seqUnroll, seqAdvance_pairs hf hl, bufAfter]

/-- One bit cell of a byte in a frame. -/
theorem seqUnroll_cell {cfg : Config} {n : BitVec 4} {buf : Memory} {draws fuel : Nat} {b : BcRegs} {d : DrvRegs} {r : SerRegs}
    {sr : Byte} {c : BitVec 4} (hf : b.fph = .pairs) (hr : bcServe buf draws b r = ⟨sr, .msbFirst, c, .data⟩) :
    seqUnroll cfg n draws (fuel + 3) buf ⟨r, b, d⟩ =
      let last := c - 1 = 0
      let later := seqUnroll cfg n draws fuel buf
        ⟨⟨sr <<< 1, .msbFirst, c - 1, if last then .idle else .data⟩, if last then bcAfterByte n b else b, d⟩
      (pins (cell (sr.getLsbD 7)) ++ later.1, later.2) := by
  rw [seqUnroll_pairs (e := .d (sr.getLsbD 7)) (r := ⟨sr, .msbFirst, c, .high⟩) hf (by simp [hr, serLine, serBit])]
  simp only [SerRegs.serBusy, ne_eq, reduceCtorEq, not_false_eq_true, decide_true, if_true]
  rw [seqUnroll_pairs (e := .c true) (r := ⟨sr, .msbFirst, c, .low⟩) hf (by simp [bcServe, SerRegs.serBusy, serLine])]
  simp only [SerRegs.serBusy, ne_eq, reduceCtorEq, not_false_eq_true, decide_true, if_true]
  rw [seqUnroll_pairs (e := .c false) (r := ⟨sr <<< 1, .msbFirst, c - 1, if c - 1 = 0 then .idle else .data⟩) hf
    (by simp [bcServe, SerRegs.serBusy, serLine, serShift])]
  by_cases h : c - 1 = 0 <;> simp [SerRegs.serBusy, pins, cell]

/-- One byte of a frame: from a free serializer its 24 events, and the serializer free again. -/
theorem seqUnroll_byte {cfg : Config} {n : BitVec 4} {buf : Memory} {draws fuel : Nat} {b : BcRegs} {d : DrvRegs} {r : SerRegs}
    (hf : b.fph = .pairs) (hr : r.ph = .idle) :
    seqUnroll cfg n draws (fuel + 24) buf ⟨r, b, d⟩ =
      let later := seqUnroll cfg n draws fuel buf ⟨SerRegs.reset, bcAfterByte n b, d⟩
      (pins (serEvents .msbFirst (bcSelect buf draws b)) ++ later.1, later.2) := by
  generalize hv : bcSelect buf draws b = v
  have busy (sr : Byte) (c : BitVec 4) : bcServe buf draws b ⟨sr, .msbFirst, c, .data⟩ = ⟨sr, .msbFirst, c, .data⟩ :=
    bcServe_busy (by simp)
  rw [seqUnroll_cell hf (by rw [bcServe_free hr, hv]; rfl)]
  simp only [BitVec.reduceSub, BitVec.reduceEq, if_false]
  iterate 7
    rw [seqUnroll_cell hf (busy _ _)]
    simp only [BitVec.reduceSub, BitVec.reduceEq, if_false, if_true]
  simp [pins, serEvents, cellBit, cell, List.range, List.range.loop, SerRegs.reset]

end Sys2Proof.Machine
end

