-- ==== Sys2Proof/Laws/Step.lean ====
section
/-! SUPPORT. The whole of what a step can be, and of what an instruction can be. -/

namespace Sys2Proof.Machine

/-- A step is a reset, the next pending action, or the host's move. -/
theorem step_cases (s : State) :
    (∃ strap rest, s.inputs = .reset strap :: rest ∧ step s = resetBlock strap rest s) ∨
    ((∀ strap rest, s.inputs ≠ .reset strap :: rest) ∧
      ((∃ a rest, s.queue = a :: rest ∧ step s = performNext a rest s) ∨ (s.queue = [] ∧ step s = hostStep s))) := by
  unfold step stepBlock
  cases hi : s.inputs with
  | nil => cases hq : s.queue <;> simp
  | cons m ms => cases m <;> cases hq : s.queue <;> simp

theorem undisturbed_no_reset {s : State} (h : s.undisturbed = true) : ∀ strap rest, s.inputs ≠ .reset strap :: rest := by
  intro n r he
  simp [State.undisturbed, he, HostMove.isReset] at h

/-- Every instruction is a command that is accepted or a request that is taken when its port is free. -/
theorem exec_cases (i : Instr) (s : State) :
    (∃ inRange q, exec i s = acceptCommand i inRange q s ∧ s.takes i = s.canAccept) ∨
    (∃ es load drawn, exec i s = takeRequest (s.takes i) es load drawn s) := by
  cases i <;> simp only [exec, execSerMsb, execSerLsb, execBcSame, execBcAddr, execBcBuf]
  case serMsb => exact .inr ⟨_, _, _, rfl⟩
  case serLsb => exact .inr ⟨_, _, _, rfl⟩
  case bcSame => exact .inr ⟨_, _, _, rfl⟩
  case bcAddr => exact .inr ⟨_, _, _, rfl⟩
  case bcBuf => exact .inr ⟨_, _, _, rfl⟩
  all_goals exact .inl ⟨_, _, rfl, rfl⟩

/-- The whole of what accepting an illegal word can do. -/
theorem acceptIllegal_cases (s : State) :
    (s.configured = false ∧ acceptIllegal s = .refused .notAConfiguration) ∨
    (s.configured = true ∧ s.canAccept = false ∧ acceptIllegal s = .next s) ∨
    (s.configured = true ∧ s.canAccept = true ∧ acceptIllegal s = .next (raise .illegalCommand s)) := by
  unfold acceptIllegal
  cases s.configured <;> cases s.canAccept <;> simp

/-- The end of an instruction presented to a ready block leaves the block ready, if its queue is in range and leaves the clock
and load lines as they settle. -/
theorem ready_of_ends {s t u : State} {q : List Action} (hs : s.Ready) (hc : CompletesTo t u) (he : EndsWith s q u)
    (hq : ((writesOf q).all fun w => decide (w.1 < bufLen)) = true)
    (hclk : (s.latches.afterAll (eventsOf q)).clk ≠ .high) (hload : (s.latches.afterAll (eventsOf q)).load ≠ .low) : u.Ready where
  inv := {
    configured := by
      have h := hs.inv.configured
      simp only [State.configured] at *
      rw [he.settings.config, he.settings.chainLen]
      exact h
    bufWf := by rw [he.buf]; exact Memory.wf_writeAll hs.inv.bufWf (by simpa using hq)
    busyIff := by rw [hc.queue, hc.idle]; rfl
    queueInRange := by rw [hc.queue]; rfl
    faultNoWrite := fun _ => by rw [hc.queue]; rfl
    latchesOfTrace := by rw [he.latches, he.trace, afterAll_append, ← hs.inv.latchesOfTrace]
    clockSettles := by rw [hc.queue, he.latches]; exact hclk
    loadSettles := by rw [hc.queue, he.latches]; exact hload }
  accepts := canAccept_iff.2 ⟨hc.idle, hc.fault, hc.queue⟩
  undisturbed := he.undisturbed

end Sys2Proof.Machine
end

