-- ==== Sys2Proof/Laws/Wire.lean ====
section
/-! SUPPORT. The laws of the wires and of the display under failing pin writes: requests one after the other, requests all
carried out, and a frame all of whose writes are carried out. -/

namespace Sys2Proof.Machine

/-! ### Wires -/

@[simp] theorem request_cannot_fail (d : Option Level) (e : PinEvent) (w : Levels) : w.request false d e = w.after e := rfl
@[simp] theorem request_carried (c : Bool) (e : PinEvent) (w : Levels) : w.request c none e = w.after e := by cases c <;> rfl
@[simp] theorem request_failed (l : Level) (e : PinEvent) (w : Levels) : w.request true (some l) e = w.drive e l := rfl

theorem wiresFrom_append (c : Bool) (d : Nat → Option Level) (k : Nat) (w : Levels) (es es' : List PinEvent) :
    wiresFrom c d k w (es ++ es') = wiresFrom c d (k + es.length) (wiresFrom c d k w es) es' := by
  induction es generalizing k w with
  | nil => rfl
  | cons e es ih =>
    show wiresFrom c d (k + 1) _ (es ++ es') = _
    rw [ih, List.length_cons, show k + 1 + es.length = k + (es.length + 1) by omega]
    rfl

/-- Requests that cannot fail leave the wires as they leave the latches. -/
theorem wiresFrom_cannot_fail (d : Nat → Option Level) (k : Nat) (w : Levels) (es : List PinEvent) :
    wiresFrom false d k w es = w.afterAll es := by
  induction es generalizing k w with
  | nil => rfl
  | cons e es ih => exact ih (k + 1) _

/-! ### The display -/

@[simp] theorem writeFails_cannot (d : Option Level) : writeFails false d = false := rfl
@[simp] theorem writeFails_carried (c : Bool) : writeFails c none = false := by cases c <;> rfl
@[simp] theorem writeFails_failed (l : Level) : writeFails true (some l) = true := rfl

theorem watchFrom_append (n : Nat) (c : Bool) (d : Nat → Option Level) (sh : Nat → Image) (k : Nat) (w : Watch)
    (es es' : List PinEvent) :
    watchFrom n c d sh k w (es ++ es') = watchFrom n c d sh (k + es.length) (watchFrom n c d sh k w es) es' := by
  induction es generalizing k w with
  | nil => rfl
  | cons e es ih =>
    show watchFrom n c d sh (k + 1) _ (es ++ es') = _
    rw [ih, List.length_cons, show k + 1 + es.length = k + (es.length + 1) by omega]
    rfl

/-- What is in a frame does not depend on what failed before. -/
theorem see_frame_congr (n : Nat) {o o' : Observer} (e : PinEvent) (h : o.frame = o'.frame) : (o.see n e).frame = (o'.see n e).frame := by
  obtain ⟨fr, img⟩ := o
  obtain ⟨fr', img'⟩ := o'
  obtain rfl : fr = fr' := h
  cases fr <;> cases e with
  | d b => rfl
  | c b => rfl
  | l b => cases b <;> rfl

/-- Frames are read off the requests, carried out or not. -/
theorem watchFrom_frame (n : Nat) (c : Bool) (d : Nat → Option Level) (sh : Nat → Image) (k : Nat) (w : Watch) (o : Observer)
    (es : List PinEvent) (h : w.obs.frame = o.frame) : (watchFrom n c d sh k w es).obs.frame = (o.seeAll n es).frame := by
  induction es generalizing k w o with
  | nil => exact h
  | cons e es ih =>
    refine ih (k + 1) _ _ ?_
    have := see_frame_congr n e h
    rw [← this]
    unfold Watch.see
    dsimp only
    split <;> rfl

/-- Requests that are all carried out, seen by a watch that nothing has spoiled, are seen as `Img` sees them. -/
theorem watchFrom_carried (n : Nat) (c : Bool) (d : Nat → Option Level) (sh : Nat → Image) (k : Nat) (o : Observer)
    (es : List PinEvent) (h : ∀ j, k ≤ j → writeFails c (d j) = false) :
    watchFrom n c d sh k ⟨o, false⟩ es = ⟨o.seeAll n es, false⟩ := by
  induction es generalizing k o with
  | nil => rfl
  | cons e es ih =>
    have one : Watch.see n (writeFails c (d k)) (sh k) ⟨o, false⟩ e = ⟨o.see n e, false⟩ := by
      simp [Watch.see, h k (Nat.le_refl k)]
    show watchFrom n c d sh (k + 1) (Watch.see n (writeFails c (d k)) (sh k) ⟨o, false⟩ e) es = _
    rw [one]
    exact ih (k + 1) _ fun j hj => h j (by omega)

/-- A frame of one pair for each chip, all carried out and seen from outside a frame, latches its pairs, whatever failed before. -/
theorem watchFrom_frameEvents (c : Bool) (d : Nat → Option Level) (sh : Nat → Image) (k : Nat) (w : Watch) (ps : List Pair)
    (hw : w.obs.frame = none) (h : ∀ j, k ≤ j → writeFails c (d j) = false) :
    watchFrom ps.length c d sh k w (frameEvents ps) = ⟨⟨none, Image.latch ps w.obs.image⟩, false⟩ := by
  obtain ⟨⟨fr, img⟩, sp⟩ := w
  obtain rfl : fr = none := hw
  have one : Watch.see ps.length (writeFails c (d k)) (sh k) ⟨⟨none, img⟩, sp⟩ (.l false) = ⟨⟨some [], img⟩, false⟩ := by
    simp [Watch.see, Observer.begins, Observer.see, h k (Nat.le_refl k)]
  show watchFrom ps.length c d sh (k + 1) (Watch.see ps.length (writeFails c (d k)) (sh k) ⟨⟨none, img⟩, sp⟩ (.l false)) _ = _
  rw [one, watchFrom_carried _ _ _ _ _ _ _ fun j hj => h j (by omega)]
  exact congrArg (Watch.mk · false) (seeAll_frameEvents img ps)

/-- The last write of a list of requests fails: the display is what the environment draws. -/
theorem watchFrom_last_fails (n : Nat) (d : Nat → Option Level) (sh : Nat → Image) (k : Nat) (w : Watch) (es : List PinEvent)
    (e : PinEvent) (h : (d (k + es.length)).isSome = true) :
    (watchFrom n true d sh k w (es ++ [e])).obs.image = sh (k + es.length) := by
  rw [watchFrom_append]
  show (Watch.see n (writeFails true (d (k + es.length))) (sh (k + es.length)) _ e).obs.image = _
  simp [Watch.see, writeFails, h]

/-- Several frames, all carried out and seen from outside a frame, latch their pairs one frame after the other. -/
theorem watchFrom_frames (n : Nat) (c : Bool) (d : Nat → Option Level) (sh : Nat → Image) (fs : List (List Pair))
    (hl : ∀ f ∈ fs, f.length = n) (k : Nat) (w : Watch) (hw : w.obs.frame = none) (h : ∀ j, k ≤ j → writeFails c (d j) = false) :
    (watchFrom n c d sh k w (fs.flatMap frameEvents)).obs = ⟨none, fs.foldl (fun img ps => Image.latch ps img) w.obs.image⟩ := by
  induction fs generalizing k w with
  | nil =>
    obtain ⟨⟨fr, img⟩, sp⟩ := w
    obtain rfl : fr = none := hw
    rfl
  | cons f fs ih =>
    rw [List.flatMap_cons, watchFrom_append]
    obtain rfl := hl f (by simp)
    rw [watchFrom_frameEvents c d sh k w f hw h, ih (fun g hg => hl g (by simp [hg])) _ _ rfl fun j hj => h j (by omega)]
    rfl

/-- No frame is open on the bus of a ready block. -/
theorem ready_outside_frame {s : State} (hs : s.Ready) : (Observer.start.seeAll s.chips s.trace).frame = none := by
  have h := frame_open_iff s.chips Observer.start Levels.unknown s.trace (by simp [Observer.start, Levels.unknown])
  rw [← hs.inv.latchesOfTrace] at h
  have l := hs.inv.loadSettles
  rw [(canAccept_iff.1 hs.accepts).2.2] at l
  cases hf : (Observer.start.seeAll s.chips s.trace).frame with
  | none => rfl
  | some b =>
    rw [hf] at h
    exact absurd (h.1 rfl) l

end Sys2Proof.Machine
end

