-- ==== Sys2Proof/Tests/Slice0.lean ====
section
/-! SUPPORT. Tests and witnesses. Expected values come from 95_test_vectors.md and 30_encoding.md, never from the model. -/

namespace Sys2Proof.Machine.Tests

set_option Elab.async false

/-! ### Decoding: words written out from 30_encoding.md R52 and R64 -/

theorem test_decode_init : decode (.cmd 0b00000001_00000000_00000000_00000000) = .ok .init := by decide
theorem test_decode_clear : decode (.cmd 0b00000010_00000000_00000000_00000000) = .ok .clear := by decide
theorem test_decode_setIntensity : decode (.cmd 0b00000011_00000000_00000000_11110001) = .ok (.setIntensity 0xF1) := by decide
theorem test_decode_setColumn : decode (.cmd 0b00000100_00001001_00000000_10100101) = .ok (.setColumn 9 0xA5) := by decide
theorem test_decode_setColumnAll : decode (.cmd 0b00000101_00000111_00000000_10000001) = .ok (.setColumnAll 7 0x81) := by decide
theorem test_decode_updateBufferAt : decode (.cmd 0b00000110_00001111_00000110_00000001) = .ok (.updateBufferAt 15 6 true) := by
  decide
theorem test_decode_setDot : decode (.cmd 0b00000111_00000011_00000010_00000000) = .ok (.setDot 3 2 false) := by decide
theorem test_decode_shiftLeft : decode (.cmd 0b00001000_00000000_00000001_00000000) = .ok (.shiftLeft true false) := by decide
theorem test_decode_shiftRight : decode (.cmd 0b00001001_00000000_00000010_00000000) = .ok (.shiftRight false true) := by decide
theorem test_decode_shiftUp : decode (.cmd 0b00001010_00000000_00000001_00000000) = .ok (.shiftUp true) := by decide
theorem test_decode_shiftDown : decode (.cmd 0b00001011_00000000_00000000_00000000) = .ok (.shiftDown false) := by decide
theorem test_decode_reload : decode (.cmd 0b00001100_00000000_00000000_00000000) = .ok .reload := by decide
theorem test_decode_serMsb : decode (.ser 0b0_00001011) = .ok (.serMsb 0x0B) := by decide
theorem test_decode_serLsb : decode (.ser 0b1_00001011) = .ok (.serLsb 0x0B) := by decide
theorem test_decode_bcSame : decode (.bc 0b00_0000_00001010_00001111) = .ok (.bcSame 0x0A 0x0F) := by decide
theorem test_decode_bcAddr : decode (.bc 0b01_1001_00001000_11111111) = .ok (.bcAddr 9 0x08 0xFF) := by decide
theorem test_decode_bcBuf : decode (.bc 0b10_0000_00000100_00000000) = .ok (.bcBuf 4) := by decide

/-- X5, X6: undefined `op`. -/
theorem test_reject_undefinedOp :
    decode (.cmd 0x0D000000) = .error .undefinedOp ∧ decode (.cmd 0x00000000) = .error .undefinedOp ∧
    decode (.cmd 0xFF000000) = .error .undefinedOp := by decide

/-- X7 to X11 and X13: a must-be-zero bit is set. -/
theorem test_reject_mustBeZero :
    decode (.cmd 0x01000001) = .error .mustBeZero ∧ decode (.cmd 0x07000002) = .error .mustBeZero ∧
    decode (.cmd 0x08000400) = .error .mustBeZero ∧ decode (.cmd 0x0A000200) = .error .mustBeZero ∧
    decode (.cmd 0x03001000) = .error .mustBeZero ∧ decode (.cmd 0x0610FF02) = .error .mustBeZero := by decide

/-- R64: kind 11 has no meaning; the fields a kind does not use are zero. -/
theorem test_reject_requests :
    decode (.bc 0b11_0000_00000000_00000000) = .error .requestKind ∧
    decode (.bc 0b00_0001_00000001_00000000) = .error .requestMustBeZero ∧
    decode (.bc 0b10_0000_00000001_00000001) = .error .requestMustBeZero := by decide

/-- The three widths of a table word choose the three ports. -/
theorem test_tableWords :
    decodeTableWord 32 0x040900A5 = some (.setColumn 9 0xA5) ∧ decodeTableWord 9 0x10B = some (.serLsb 0x0B) ∧
    decodeTableWord 16 0x00B = some (.serMsb 0x0B) ∧ decodeTableWord 22 0x1205C3 = some (.bcAddr 2 0x05 0xC3) ∧
    decodeTableWord 24 0x200800 = some (.bcBuf 8) ∧ decodeTableWord 32 0x0D000000 = none := by decide

/-! ### Well-formedness -/

theorem test_wf_refuses :
    (Instr.bcAddr 10 1 0).wellFormed = false ∧ (Instr.bcBuf 0).wellFormed = false ∧ (Instr.bcBuf 9).wellFormed = false := by decide
theorem test_wf_admits :
    (Instr.bcAddr 9 1 0).wellFormed = true ∧ (Instr.bcBuf 1).wellFormed = true ∧ (Instr.bcBuf 8).wellFormed = true ∧
    (Instr.setDot 255 255 true).wellFormed = true := by decide

/-! ### One step on small states -/

/-- An idle block with `n` chips and a framebuffer, right after reset otherwise. -/
def idle (n : BitVec 4) (buf : Memory) (ms : List HostMove) : State := { State.resetWith Config.standard n ms with buf := buf }

/-- The pending actions when a step has accepted the word that the host presents; none when the step stops. -/
def pending (s : State) : Option (List Action) :=
  match step s with
  | .next t => some t.queue
  | .fault _ => none
  | .refused _ => none

/-- The events of a frame in the cell rendering of 95_test_vectors.md section 1, one list of bits a byte. -/
def fromCells (bytes : List (List Nat)) : List PinEvent :=
  [.l false] ++ bytes.flatten.flatMap (fun b => [.d (b == 1), .c true, .c false]) ++ [.l false, .l true]

/-- What the pending writes leave at these indices. -/
def bytesAt (s : State) (js : List Nat) : List Byte :=
  match pending s with
  | some q => js.map fun j => Memory.read (Memory.writeAll s.buf (writesOf q)) j
  | none => []

/-- How many writes and events are pending. -/
def counts (s : State) : Option (Nat × Nat) := (pending s).map fun q => ((writesOf q).length, (eventsOf q).length)

/-- K5: 664 events and 80 writes, and the first eight events. -/
theorem test_init :
    counts (idle 1 [] [.command 0x01000000]) = some (80, 664) ∧
    (pending (idle 1 [] [.command 0x01000000])).map (fun q => (eventsOf q).take 8) =
      some [.c true, .l false, .d false, .c true, .c false, .d false, .c true, .c false] := by decide +kernel

/-- S2: 408 events, and all bytes zero, padding included. -/
theorem test_clear :
    counts (idle 1 [(0, 0xFF), (79, 0x55)] [.command 0x02000000]) = some (80, 408) ∧
    bytesAt (idle 1 [(0, 0xFF), (79, 0x55)] [.command 0x02000000]) [0, 79] = [0, 0] := by decide +kernel

/-- K3: `[0A 03 | 0A 03]`. -/
theorem test_setIntensity : pending (idle 2 [] [.command 0x03000003]) =
    some (pins (fromCells [[0,0,0,0,1,0,1,0], [0,0,0,0,0,0,1,1], [0,0,0,0,1,0,1,0], [0,0,0,0,0,0,1,1]])) := by decide +kernel

/-- M8: `buf[9] = A5`, then `[00 00 | 02 A5]`. -/
theorem test_setColumn : pending (idle 2 [] [.command 0x040900A5]) =
    some (.wr 9 0xA5 :: pins (fromCells [[0,0,0,0,0,0,0,0], [0,0,0,0,0,0,0,0], [0,0,0,0,0,0,1,0], [1,0,1,0,0,1,0,1]])) := by
  decide +kernel

/-- S6, the legacy index rule at `N = 3`: indices 0, 2, 4. -/
theorem test_setColumnAll_legacy :
    bytesAt (idle 3 [] [.command 0x050200FF]) [0, 2, 4, 10, 18] = [0xFF, 0xFF, 0xFF, 0, 0] ∧
    counts (idle 3 [] [.command 0x050200FF]) = some (3, 147) := by decide +kernel

/-- S6, the other index rule: indices 2, 10, 18. -/
theorem test_setColumnAll_consistent :
    bytesAt { idle 3 [] [.command 0x050200FF] with config := { Config.standard with columnAllIndexing := .consistent } }
      [0, 2, 4, 10, 18] = [0, 0xFF, 0, 0xFF, 0xFF] := by decide +kernel

/-- M3: one write, no event. -/
theorem test_updateBufferAt : pending (idle 2 [(5, 0xFF)] [.command 0x06050300]) = some [.wr 5 0xF7] := by decide

/-- S5: `N = 4`, the no-operation pair for chips 1 to 3. -/
theorem test_setDot : pending (idle 4 [] [.command 0x07000001]) =
    some (.wr 0 1 :: pins (fromCells ([[0,0,0,0,0,0,0,1], [0,0,0,0,0,0,0,1]] ++ List.replicate 6 [0,0,0,0,0,0,0,0]))) := by
  decide +kernel

/-- The framebuffer of section 3.4. -/
def shiftBuf : Memory := [(0, 0x11), (1, 0x22), (79, 0x99)]

/-- H1: the edge byte stays. -/
theorem test_shiftLeft_keeps_edge : bytesAt (idle 1 shiftBuf [.command 0x08000000]) [0, 1, 77, 78, 79] = [0x22, 0, 0, 0x99, 0x99] := by
  decide +kernel
/-- H4: `rotate` wins over `fill_zero`. -/
theorem test_shiftLeft_rotate_wins : bytesAt (idle 1 shiftBuf [.command 0x08000300]) [0, 78, 79] = [0x22, 0x99, 0x11] := by
  decide +kernel
/-- H6. -/
theorem test_shiftRight_rotate : bytesAt (idle 1 shiftBuf [.command 0x09000100]) [0, 1, 2, 79] = [0x99, 0x11, 0x22, 0] := by
  decide +kernel
/-- H7. -/
theorem test_shiftRight_fill : bytesAt (idle 1 shiftBuf [.command 0x09000200]) [0, 1, 2, 79] = [0, 0x11, 0x22, 0] := by
  decide +kernel
/-- V2, with the padding byte 8 left alone. -/
theorem test_shiftUp : bytesAt (idle 1 [(0, 0x81), (7, 0x01), (8, 0x03)] [.command 0x0A000100]) [0, 7, 8] = [0xC0, 0x80, 0x03] := by
  decide +kernel
/-- V3. -/
theorem test_shiftDown : bytesAt (idle 1 [(0, 0x81), (7, 0x01), (8, 0x03)] [.command 0x0B000000]) [0, 7, 8] = [0x02, 0x02, 0x03] := by
  decide +kernel

/-- K1, the third frame: `[03 02 | 03 0A]`. -/
theorem test_reload :
    (pending (idle 2 [(2, 0x02), (10, 0x0A)] [.command 0x0C000000])).map (fun q => ((eventsOf q).drop 198).take 99) =
      some (fromCells [[0,0,0,0,0,0,1,1], [0,0,0,0,0,0,1,0], [0,0,0,0,0,0,1,1], [0,0,0,0,1,0,1,0]]) ∧
    counts (idle 2 [(2, 0x02), (10, 0x0A)] [.command 0x0C000000]) = some (0, 792) := by decide +kernel

/-- Section 3.1, `SER(0x0B, MSB)` in full. -/
theorem test_serMsb : pending (idle 1 [] [.serRequest 0b000001011]) = some (pins
    [.d false, .c true, .c false, .d false, .c true, .c false, .d false, .c true, .c false, .d false, .c true, .c false,
     .d true, .c true, .c false, .d false, .c true, .c false, .d true, .c true, .c false, .d true, .c true, .c false]) := by decide

/-- Section 3.1, `SER(0x0B, LSB)`: cells 11010000. -/
theorem test_serLsb : pending (idle 1 [] [.serRequest 0b100001011]) = some (pins
    ([true, true, false, true, false, false, false, false].flatMap fun b => [.d b, .c true, .c false])) := by decide

/-- B2: `[0A 0F]`. -/
theorem test_bcSame : pending (idle 1 [] [.bcRequest 0b0000000000101000001111]) =
    some (pins (fromCells [[0,0,0,0,1,0,1,0], [0,0,0,0,1,1,1,1]])) := by decide +kernel

/-- B4: `[00 00 | 00 00 | 05 C3 | 00 00]`. -/
theorem test_bcAddr : pending (idle 4 [] [.bcRequest 0b0100100000010111000011]) =
    some (pins (fromCells (List.replicate 4 [0,0,0,0,0,0,0,0] ++ [[0,0,0,0,0,1,0,1], [1,1,0,0,0,0,1,1]] ++
      List.replicate 2 [0,0,0,0,0,0,0,0]))) := by decide +kernel

/-- B7: `[04 12 | 04 34]`. -/
theorem test_bcBuf : pending (idle 2 [(3, 0x12), (11, 0x34)] [.bcRequest 0b1000000000010000000000]) =
    some (pins (fromCells [[0,0,0,0,0,1,0,0], [0,0,0,1,0,0,1,0], [0,0,0,0,0,1,0,0], [0,0,1,1,0,1,0,0]])) := by decide +kernel

/-- The fault code after a step, if the step goes on. -/
def codeAfter (s : State) : Option Nat :=
  match step s with
  | .next t => some (faultValue t.fault)
  | .fault _ => none
  | .refused _ => none

/-- X1, X3, X4, X12, X14: `OperandRange` (2). -/
theorem test_operandRange :
    codeAfter (idle 2 [] [.command 0x04100000]) = some 2 ∧ codeAfter (idle 2 [] [.command 0x07000801]) = some 2 ∧
    codeAfter (idle 2 [] [.command 0x05080000]) = some 2 ∧ codeAfter (idle 2 [] [.command 0x06FF0901]) = some 2 ∧
    codeAfter (idle 1 [] [.command 0x060A0001]) = some 2 := by decide

/-- X5, X7, X10, X13: `IllegalCommand` (1), which is checked first. -/
theorem test_illegalCommand :
    codeAfter (idle 2 [] [.command 0x0D000000]) = some 1 ∧ codeAfter (idle 2 [] [.command 0x01000001]) = some 1 ∧
    codeAfter (idle 2 [] [.command 0x0A000200]) = some 1 ∧ codeAfter (idle 2 [] [.command 0x0610FF02]) = some 1 := by decide

/-- The state placed by `withFetchWord` accepts the word in the next step, as the first instruction after reset. -/
theorem test_withFetchWord :
    counts (State.reset.withFetchWord 32 0x03000003) = some (0, 195) ∧
    counts (State.reset.withFetchWord 9 0x10B) = some (0, 24) ∧
    counts (State.reset.withFetchWord 22 0x1205C3) = some (0, 195) := by decide +kernel

/-- P5 rows 2 to 4: a word is not accepted while the block is faulted, and a reset clears the fault. -/
theorem test_faulted :
    step { idle 2 [] [.command 0x02000000] with fault := .operandRange } =
      .next { idle 2 [] [.command 0x02000000] with fault := .operandRange } ∧
    codeAfter { idle 2 [] [.reset 2] with fault := .operandRange } = some 0 := ⟨rfl, rfl⟩

/-- `ser_busy` after `k` steps, if the block goes on. -/
def serBusyAfter (k : Nat) (s : State) : Option Bool :=
  match Host.Core.run core k s with
  | .next t => some t.ser.serBusy
  | .fault _ => none
  | .refused _ => none

/-- R72: `ser_busy` is 1 from the taking of a request to its last `C(0)`; in a frame it returns to 0 after the first byte (26
steps: the taking, `L(0)`, 24 events) and is 1 again with the next data event. -/
theorem test_serBusy :
    [0, 1, 24, 25].map (fun k => serBusyAfter k (idle 1 [] [.serRequest 0x0B])) = [some false, some true, some true, some false] ∧
    [2, 3, 25, 26, 27].map (fun k => serBusyAfter k (idle 1 [] [.bcRequest 0x000A0F])) =
      [some false, some true, some true, some false, some true] := by decide +kernel

/-- R72: `ser_busy = 0` is all that a serializer request waits for; a fault does not stop it, and stays. -/
theorem test_request_while_faulted :
    pending { idle 1 [] [.serRequest 0x0FF] with fault := .illegalCommand } =
      some (pins ((List.replicate 8 [.d true, .c true, .c false]).flatten)) ∧
    codeAfter { idle 1 [] [.serRequest 0x0FF] with fault := .illegalCommand } = some 1 := by decide

/-! ### Witnesses: states and operands that meet the hypotheses of the obligations -/

/-- An idle block that has sent a cell and pulled the load line up. -/
def ready (n : BitVec 4) : State :=
  { idle n [(0, 0x11), (7, 0x22), (79, 0x99)] [.wait] with
    trace := [.l false, .d true, .c true, .c false, .l true], data := .high, clk := .low, load := .high }

/-- A busy block: a write and the close of a frame are pending. -/
def busy : State :=
  { ready 2 with queue := [.wr 79 0x7E, .pin (.l false), .pin (.l true)], busy := true, inputs := [.command 0x02000000] }

/-- A faulted block. -/
def faulted : State := { ready 2 with fault := .operandRange, inputs := [.command 0x02000000] }

theorem witness_ready (n : BitVec 4) (h : n = 1 ∨ n = 2 ∨ n = 10) : (ready n).Ready := by
  rcases h with rfl | rfl | rfl <;>
    exact ⟨⟨by decide, by decide, by decide, by decide, fun h => absurd rfl h, by decide, by decide, by decide⟩, by decide, by decide⟩

theorem witness_busy : busy.Inv :=
  ⟨by decide, by decide, by decide, by decide, fun h => absurd rfl h, by decide, by decide, by decide⟩

theorem witness_faulted : faulted.Inv :=
  ⟨by decide, by decide, by decide, by decide, fun _ => rfl, by decide, by decide, by decide⟩

/-- `EncodeAfterDecodeIsIdentity`, `OperandsAreTheFields`. -/
theorem witness_decoded : decode (.cmd 0x07030201) = .ok (.setDot 3 2 true) := by decide

/-- `CommandWordsSelectOneRow`: a word that a row selects. -/
theorem witness_selected : (OpcodeRow.mk "SET_DOT" 0x07000000 0xFF0000FE) ∈ opcodeRows ∧
    (OpcodeRow.mk "SET_DOT" 0x07000000 0xFF0000FE).selects 0x07FFFF01 = true := by decide

/-- A state whose machines are idle takes a request, faulted or not. -/
theorem witness_readyFor :
    (ready 1).ReadyFor (.serMsb 0x80) ∧ faulted.ReadyFor (.serMsb 0x80) ∧ (ready 10).ReadyFor (.bcAddr 9 8 7) ∧
    faulted.ReadyFor (.bcSame 0x0B 7) ∧ faulted.ReadyFor (.bcAddr 1 8 7) ∧ (ready 10).ReadyFor (.bcSame 0 7) :=
  ⟨⟨(witness_ready 1 (by decide)).inv, by decide, by decide⟩, ⟨witness_faulted, by decide, by decide⟩,
    ⟨(witness_ready 10 (by decide)).inv, by decide, by decide⟩, ⟨witness_faulted, by decide, by decide⟩,
    ⟨witness_faulted, by decide, by decide⟩, ⟨(witness_ready 10 (by decide)).inv, by decide, by decide⟩⟩

/-- `SerBusyFollowsTheTransfer`: free ports with machines that agree, and a serializer that is busy. -/
theorem witness_serBusy :
    (ready 2).SeqAgrees ∧ (ready 2).ReadyFor (.serLsb 1) ∧ (ready 2).ReadyFor (.bcBuf 8) ∧
    encode (.bcBuf 8) = .bc 0x200800 ∧ (∀ w, encode (.serLsb 1) ≠ .cmd w) ∧
    ({ ready 2 with ser := serLoad .msbFirst 1 }.configured = true ∧ { ready 2 with ser := serLoad .msbFirst 1 }.takes (.serLsb 1) = false) :=
  ⟨⟨by decide, by decide⟩, ⟨(witness_ready 2 (by decide)).inv, by decide, by decide⟩,
    ⟨(witness_ready 2 (by decide)).inv, by decide, by decide⟩, by decide, (fun w h => by cases h), by decide, by decide⟩

/-- `StepRunsTheDecodedInstruction`: a command, and a request while faulted. -/
theorem witness_step :
    ({ ready 2 with inputs := [.command 0x0C000000] }.inputs = presents (.cmd 0x0C000000) :: [] ∧
      { ready 2 with inputs := [.command 0x0C000000] }.takesWord (.cmd 0x0C000000) = true ∧ decode (.cmd 0x0C000000) = .ok .reload) ∧
    ({ faulted with inputs := [.serRequest 0x10B] }.inputs = presents (.ser 0x10B) :: [] ∧
      { faulted with inputs := [.serRequest 0x10B] }.takesWord (.ser 0x10B) = true ∧ decode (.ser 0x10B) = .ok (.serLsb 0x0B)) := by
  decide

/-- `StepPerformsTheNextAction`, for a write at the last location and for an event. -/
theorem witness_performs :
    busy.undisturbed = true ∧ busy.queue = .wr 79 0x7E :: [.pin (.l false), .pin (.l true)] ∧
    { busy with queue := [.pin (.l true)] }.queue = .pin (.l true) :: [] := by decide

/-- `StepMakesAtMostOneAction`, `PortIsNotLookedAtDuringACommand`, `EveryStepKeepsTheInvariant`. -/
theorem witness_busy_step : busy.queue ≠ [] ∧ (∀ strap rest, busy.inputs ≠ .reset strap :: rest) ∧
    (∀ strap rest, [HostMove.wait] ≠ .reset strap :: rest) ∧
    step busy = .next { busy with
      buf := [(0, 0x11), (7, 0x22), (79, 0x7E)], queue := [.pin (.l false), .pin (.l true)] } := by
  refine ⟨by decide, ?_, ?_, by rfl⟩ <;> intro strap rest h <;> cases h

/-- `AcceptanceFrame`: an accepted command, and one whose operand is out of range. -/
theorem witness_acceptance :
    exec (.updateBufferAt 15 7 true) (ready 2) = .next { ready 2 with
      queue := [.wr 15 0x80], busy := true, drv := { DrvRegs.reset with cmdreg := 0x060F0701 } } ∧
    exec (.updateBufferAt 16 0 true) (ready 2) = .next { ready 2 with fault := .operandRange } := ⟨by rfl, by rfl⟩

/-- `WordIsHeldWhileNotReady`: a command word while busy and while faulted, request words while busy. -/
theorem witness_held :
    busy.inputs = presents (.cmd 0x02000000) :: [] ∧ busy.cmdReady = false ∧ busy.takesWord (.cmd 0x02000000) = false ∧
    faulted.inputs = presents (.cmd 0x02000000) :: [] ∧ faulted.cmdReady = false ∧ faulted.takesWord (.cmd 0x02000000) = false ∧
    { busy with inputs := [.serRequest 1] }.inputs = presents (.ser 1) :: [] ∧
    { busy with inputs := [.serRequest 1] }.takesWord (.ser 1) = false ∧
    { busy with inputs := [.bcRequest 1] }.inputs = presents (.bc 1) :: [] ∧
    { busy with inputs := [.bcRequest 1] }.takesWord (.bc 1) = false := by decide

/-- `OnlyResetChangesTheChainLength`, `StepStopsOnlyForTheHostsError`, `FaultsArePrecise`, `ResetGivesTheResetState`,
`IllegalStrapIsRefused`: straps at the ends of the range and just outside it, a broadcaster word without meaning. -/
theorem witness_reset :
    step { faulted with inputs := [.reset 1] } = .next (State.resetWith Config.standard 1 []) ∧
    step { busy with inputs := [.reset 10] } = .next (State.resetWith Config.standard 10 []) ∧
    step { busy with inputs := [.reset 0] } = .refused .notAConfiguration ∧
    step { busy with inputs := [.reset 11] } = .refused .notAConfiguration ∧
    step { ready 2 with inputs := [.bcRequest 0x300000] } = .refused .requestWithoutMeaning :=
  ⟨rfl, rfl, rfl, rfl, rfl⟩

/-- The pixel and column statements: the last pixel of a chain of 2, the last column of the longest chain, a local column. -/
theorem witness_pixel :
    (ready 2).Ready ∧ (15 : Byte).toNat < 8 * (ready 2).chips ∧ (7 : Byte).toNat < 8 ∧
    (ready 10).Ready ∧ (79 : Byte).toNat < 8 * (ready 10).chips :=
  ⟨witness_ready 2 (by decide), by decide, by decide, witness_ready 10 (by decide), by decide⟩

/-- `SetColumnAllStoresByTheIndexRule` under each index rule. -/
theorem witness_columnAll :
    (ready 10).Ready ∧ (7 : Byte).toNat < 8 ∧ (ready 10).config.columnAllIndexing = .legacyProduct ∧
    { ready 10 with config := { Config.standard with columnAllIndexing := .consistent } }.Ready :=
  ⟨witness_ready 10 (by decide), by decide, by decide,
    ⟨⟨by decide, by decide, by decide, by decide, fun h => absurd rfl h, by decide, by decide, by decide⟩, by decide, by decide⟩⟩

/-- `DotRoundTripAndClearProperty`: a dot that is off and a dot that is on. -/
theorem witness_dot :
    (ready 1).Ready ∧ (0 : Byte).toNat < 8 * (ready 1).chips ∧ (Memory.read (ready 1).buf 0).getLsbD 1 = false ∧
    (Memory.read (ready 1).buf 0).getLsbD 4 = true :=
  ⟨witness_ready 1 (by decide), by decide, by decide, by decide⟩

/-- The shift, driver and micro-operation statements: ready blocks of the shortest and the longest chain. -/
theorem witness_chains : (ready 1).Ready ∧ (ready 10).Ready := ⟨witness_ready 1 (by decide), witness_ready 10 (by decide)⟩

/-- `BcBufSendsOneColumnOfTheBuffer`: local columns 0 and 7 by the address bytes 1 and 8, and the address bytes 0 and 9 just
outside, in a ready and in a faulted block. -/
theorem witness_bcBuf :
    (ready 2).ReadyFor (.bcBuf 8) ∧ 7 < 8 ∧ (8 : Byte).toNat = 7 + 1 ∧ (1 : Byte).toNat = 0 + 1 ∧ 1 < (ready 2).chips ∧
    (ready 2).ReadyFor (.bcBuf 0) ∧ (∀ k, (0 : Byte).toNat ≠ k + 1) ∧
    faulted.ReadyFor (.bcBuf 9) ∧ (∀ k, k < 8 → (9 : Byte).toNat ≠ k + 1) :=
  ⟨⟨(witness_ready 2 (by decide)).inv, by decide, by decide⟩, by decide, by decide, by decide, by decide,
    ⟨(witness_ready 2 (by decide)).inv, by decide, by decide⟩, fun k h => absurd h (by simp),
    ⟨witness_faulted, by decide, by decide⟩, by decide⟩

/-- `DisplayAfterEachCommand`, the request arms: a broadcast, an addressed write and a column of the buffer are taken by a ready
block, the fault code as it was; a request of the serializer runs to its end. -/
theorem witness_requests : (0x0B : Byte) ≠ 0 ∧ (1#4).toNat < (ready 2).chips ∧ (8 : Byte).toNat = 7 + 1 ∧
    (∃ t, exec (.bcSame 0x0B 7) (ready 2) = .next t ∧ t.fault = (ready 2).fault) ∧
    (∃ t, exec (.bcAddr 1 8 7) (ready 2) = .next t ∧ t.fault = (ready 2).fault) ∧
    (∃ t, exec (.bcBuf 8) (ready 2) = .next t ∧ t.fault = (ready 2).fault) ∧
    (∃ t u, exec (.serMsb 7) faulted = .next t ∧ t.fault = faulted.fault ∧ PerformedTo t u) :=
  ⟨by decide, by decide, by decide, ⟨_, rfl, rfl⟩, ⟨_, rfl, rfl⟩, ⟨_, rfl, rfl⟩,
    let ⟨t, u, h, _, hf, hp, _⟩ := takeRequest_completes (s := faulted) (free := faulted.serTakes) (es := serEvents .msbFirst 7)
      (load := fun q => { q with ser := serLoad .msbFirst 7 }) (drawn := 0) witness_faulted.configured (by decide) (by decide)
    ⟨t, u, h, hf, hp⟩⟩

/-- `FrameDiscipline`. -/
theorem witness_frame : ([(0x01, 0xFF)] : List Pair) ≠ [] ∧ ([(0x01, 0xFF)] : List Pair).getLast? = some (0x01, 0xFF) := by decide

/-- `SerializerMachineEmitsSer`, `BroadcasterMachineEmitsTheFrame`. -/
theorem witness_machines :
    SerRegs.reset.ph = .idle ∧ 1 ≤ (10#4).toNat ∧ (10#4).toNat ≤ 10 ∧ (SeqRegs.mk SerRegs.reset BcRegs.reset DrvRegs.reset).idle = true := by
  decide

/-- `ReferenceMachinesFollowTheQueue`: a command in progress. -/
theorem witness_machines_follow :
    let s : State := { ready 2 with
      queue := [.wr 15 0x80], busy := true, drv := { DrvRegs.reset with cmdreg := 0x060F0701 } }
    s.Inv ∧ s.SeqAgrees ∧ step s = .next { ready 2 with
      buf := [(0, 0x11), (7, 0x22), (15, 0x80), (79, 0x99)], inputs := [] } :=
  ⟨⟨by decide, by decide, by decide, by decide, fun h => absurd rfl h, by decide, by decide, by decide⟩,
    ⟨by decide, by decide⟩, by rfl⟩

/-- `ActionCounts`, `CommandsSendOnlyWholeFramesOfKnownPairs`, `DisplayAfterEachCommand`: a command. -/
theorem witness_completes : (ready 2).Ready ∧ (ready 2).ReadyFor (.updateBufferAt 15 7 true) ∧ encode (.updateBufferAt 15 7 true) = .cmd 0x060F0701 ∧
    ∃ t u, exec (.updateBufferAt 15 7 true) (ready 2) = .next t ∧ t.fault = (ready 2).fault ∧ PerformedTo t u :=
  ⟨witness_ready 2 (by decide), ⟨(witness_ready 2 (by decide)).inv, by decide, by decide⟩, by decide, _, { ready 2 with
    buf := [(0, 0x11), (7, 0x22), (15, 0x80), (79, 0x99)], inputs := [] }, witness_acceptance.1, by decide,
    ⟨by rfl, by decide, by decide, by decide⟩⟩

/-- `OperandRangeIsRaisedBeforeAnyEffect`, and the range clauses of the pixel and column statements: the last legal operands and
the first illegal ones. -/
theorem witness_operands :
    (ready 2).configured = true ∧ (ready 2).takes (.setColumn 16 0) = true ∧ (ready 2).takes (.setColumn 15 0) = true ∧
    faulted.configured = true ∧ faulted.takes (.bcBuf 0) = true ∧ 8 * (ready 2).chips ≤ (16 : Byte).toNat ∧
    ¬ 8 * (ready 2).chips ≤ (15 : Byte).toNat ∧ 8 ≤ (8 : Byte).toNat ∧ ¬ 8 ≤ (7 : Byte).toNat := by decide

/-- `IllegalWordRaisesIllegalCommand`. -/
theorem witness_illegal :
    let s : State := { ready 2 with inputs := [.command 0x01000001] }
    s.inputs = .command 0x01000001 :: [] ∧ s.configured = true ∧ s.canAccept = true ∧
    ∀ r ∈ opcodeRows, r.selects 0x01000001 = false := by decide

/-- `FaultIsStickyUntilReset`: a presented command word, an event of a request to perform, and a reset with the largest strap. -/
theorem witness_sticky :
    (faulted.Inv ∧ faulted.fault ≠ .none ∧ (∀ strap rest, faulted.inputs ≠ .reset strap :: rest) ∧ faulted.queue = [] ∧
      ∀ p rest, faulted.inputs = presents p :: rest → ∃ w, p = .cmd w) ∧
    ({ faulted with queue := [.pin (.c false)], busy := true }.Inv ∧
      ∃ t, step { faulted with queue := [.pin (.c false)], busy := true } = .next t) ∧
    ({ faulted with inputs := [.reset 10] }.Inv ∧ { faulted with inputs := [.reset 10] }.fault ≠ .none ∧
      { faulted with inputs := [.reset 10] }.inputs = .reset 10 :: [] ∧ 1 ≤ (10#4).toNat ∧ (10#4).toNat ≤ 10) :=
  ⟨⟨witness_faulted, by decide, fun strap rest h => (by cases h), rfl, fun p rest h => by cases p <;> cases h; exact ⟨_, rfl⟩⟩,
    ⟨⟨by decide, by decide, by decide, by decide, fun _ => rfl, by decide, by decide, by decide⟩, _, rfl⟩,
    ⟨⟨by decide, by decide, by decide, by decide, fun _ => rfl, by decide, by decide, by decide⟩, by decide, by decide, by decide, by decide⟩⟩

/-- `FaultsArePrecise`: a step that raises a fault. -/
theorem witness_precise :
    step { ready 2 with inputs := [.command 0x04100000] } = .next { ready 2 with inputs := [], fault := .operandRange } := rfl

/-- `InvariantHoldsAtReset`. -/
theorem witness_parameters : configLegal { Config.standard with regShutdown := 0x10 } = true ∧
    1 ≤ (10#4).toNat ∧ (10#4).toNat ≤ 10 := by decide

/-- `AddressedAndBroadcastWritesOnTheDisplay`. -/
theorem witness_display : (ready 2).ReadyFor (.bcAddr 1 8 7) ∧ faulted.ReadyFor (.bcSame 0x0B 7) ∧ (1#4).toNat < (ready 2).chips ∧
    7 < 8 ∧ (0x0B : Byte) ≠ 0 :=
  ⟨⟨(witness_ready 2 (by decide)).inv, by decide, by decide⟩, ⟨witness_faulted, by decide, by decide⟩, by decide, by decide,
    by decide⟩

/-- U3: a failed `L(0)` on a low wire can leave it high; without `PIN_CAN_FAIL` it cannot. -/
theorem test_failed_load_reads_high :
    (wiresFrom true (fun k => if k = 1 then some .high else none) 0 Levels.unknown [.l false, .l false]).load = .high ∧
    (wiresFrom false (fun k => if k = 1 then some .high else none) 0 Levels.unknown [.l false, .l false]).load = .low := by decide

/-- R151, R131: a frame `[01 01]` shows its pair; with a failed write in it the display is the environment's draw; the same frame
sent again shows the pair. -/
theorem test_failed_frame_and_repair :
    let frame := fromCells [[0,0,0,0,0,0,0,1], [0,0,0,0,0,0,0,1]]
    let fails (k : Nat) : Option Level := if k = 7 then some .low else none
    let shows (_ : Nat) : Image := fun _ _ => some 0x77
    (watchFrom 1 false fails shows 0 Watch.start frame).obs.image 0 1 = some 1 ∧
    (watchFrom 1 true fails shows 0 Watch.start frame).obs.image 0 1 = some 0x77 ∧
    (watchFrom 1 true fails shows 0 Watch.start (frame ++ frame)).obs.image 0 1 = some 1 := by decide +kernel

/-- `PinFailuresAreInvisibleToTheBlock`, `WiresFollowTheLatches` with and without failing writes. -/
theorem witness_pins : busy.Inv ∧ busy.config.pinCanFail = false ∧ (∃ t, step (busy.withPinCanFail true) = .next t) ∧
    (busy.withPinCanFail true).Inv ∧ (busy.withPinCanFail true).config.pinCanFail = true :=
  ⟨witness_busy, by decide, ⟨_, rfl⟩,
    ⟨by decide, by decide, by decide, by decide, fun h => absurd rfl h, by decide, by decide, by decide⟩, by decide⟩

/-- `FailedWritesPartTheDisplayFromTheBuffer`, `AFailedColumnWriteIsSilent`: a ready block whose pin writes can fail, and draws
that fail none of the writes to come. -/
theorem witness_failing :
    (ready 1).Ready ∧ (ready 1).config.pinCanFail = false ∧
    ((ready 2).withPinCanFail true).Ready ∧ ((ready 2).withPinCanFail true).config.pinCanFail = true ∧
    (15 : Byte).toNat < 8 * ((ready 2).withPinCanFail true).chips ∧
    ∀ k, ((ready 2).withPinCanFail true).trace.length ≤ k → (if k = 1 then some Level.high else none) = none :=
  ⟨witness_ready 1 (by decide), by decide,
    ⟨⟨by decide, by decide, by decide, by decide, fun h => absurd rfl h, by decide, by decide, by decide⟩, by decide, by decide⟩,
    by decide, by decide, fun k hk => if_neg (by
      have : 5 ≤ k := hk
      omega)⟩

/-- `ColumnDecodeIsExact`. -/
theorem witness_column : 10 ≤ 10 ∧ (79 : Byte).toNat < 8 * 10 ∧ 9 < 10 ∧ (7 : Byte).toNat < 8 := by decide

end Sys2Proof.Machine.Tests
end

section
/-! PROOFS. What a step and an acceptance can do, said once, and the statements of 10_state.md that follow from it. -/

namespace Sys2Proof.Machine

/-! ### Acceptance -/

/-- What the acceptance of a word never touches: the framebuffer, the pins and the settings (R18). -/
structure SameOutputs (s t : State) : Prop where
  buf : t.buf = s.buf
  trace : t.trace = s.trace
  latches : t.latches = s.latches
  config : t.config = s.config
  chainLen : t.chainLen = s.chainLen

/-- The whole of what an instruction that answers a next state has done: nothing at a port that does not take it, else the
fault of a command, else a queue to perform. -/
theorem exec_next {i : Instr} {s t : State} (h : exec i s = .next t) :
    (s.takes i = false ∧ t = s) ∨
    (s.takes i = true ∧ s.canAccept = true ∧ t = raise .operandRange s) ∨
    (s.takes i = true ∧ ∃ regs q drawn,
      t = { (s.withSeqRegs regs) with queue := q, busy := busyWith q, draws := s.draws + drawn }) := by
  rcases exec_cases i s with ⟨inRange, q, he, ht⟩ | ⟨es, load, drawn, he⟩
  · rw [ht]
    rcases acceptCommand_cases i inRange q s with ⟨-, ha⟩ | ⟨-, hn, ha⟩ | ⟨-, hn, -, ha⟩ | ⟨-, hn, -, ha⟩ <;> rw [he, ha] at h <;>
      cases h
    · exact .inl ⟨hn, rfl⟩
    · exact .inr (.inl ⟨hn, hn, rfl⟩)
    · exact .inr (.inr ⟨hn, _, q, 0, rfl⟩)
  · rcases takeRequest_cases (s.takes i) es load drawn s with ⟨-, ha⟩ | ⟨-, hn, ha⟩ | ⟨-, hn, ha⟩ <;> rw [he, ha] at h <;> cases h
    · exact .inl ⟨hn, rfl⟩
    · exact .inr (.inr ⟨hn, _, pins es, drawn, rfl⟩)

theorem exec_sameOutputs {i : Instr} {s t : State} (h : exec i s = .next t) : SameOutputs s t := by
  rcases exec_next h with ⟨-, rfl⟩ | ⟨-, -, rfl⟩ | ⟨-, regs, q, drawn, rfl⟩ <;> exact ⟨rfl, rfl, rfl, rfl, rfl⟩

theorem exec_inputs {i : Instr} {s t : State} (h : exec i s = .next t) : t.inputs = s.inputs := by
  rcases exec_next h with ⟨-, rfl⟩ | ⟨-, -, rfl⟩ | ⟨-, regs, q, drawn, rfl⟩ <;> rfl

/-- The fault code changes at acceptance only by `OperandRange`, which is then all that changes (R120). -/
theorem exec_faultChange {i : Instr} {s t : State} (h : exec i s = .next t) (hf : t.fault ≠ s.fault) :
    t = raise .operandRange s := by
  rcases exec_next h with ⟨-, rfl⟩ | ⟨-, -, rfl⟩ | ⟨-, regs, q, drawn, rfl⟩
  · exact absurd rfl hf
  · rfl
  · exact absurd rfl hf

/-- In a configuration of the hardware every instruction answers a next state. -/
theorem exec_answers (i : Instr) {s : State} (hc : s.configured = true) : ∃ t, exec i s = .next t := by
  rcases exec_cases i s with ⟨inRange, q, he, -⟩ | ⟨es, load, drawn, he⟩
  · rcases acceptCommand_cases i inRange q s with ⟨hn, -⟩ | ⟨-, -, ha⟩ | ⟨-, -, -, ha⟩ | ⟨-, -, -, ha⟩
    · rw [hc] at hn; cases hn
    all_goals exact ⟨_, he.trans ha⟩
  · rcases takeRequest_cases (s.takes i) es load drawn s with ⟨hn, -⟩ | ⟨-, -, ha⟩ | ⟨-, -, ha⟩
    · rw [hc] at hn; cases hn
    all_goals exact ⟨_, he.trans ha⟩

theorem acceptIllegal_sameOutputs {s t : State} (h : acceptIllegal s = .next t) : SameOutputs s t := by
  rcases acceptIllegal_cases s with ⟨-, ha⟩ | ⟨-, -, ha⟩ | ⟨-, -, ha⟩ <;> rw [ha] at h <;> cases h <;>
    exact ⟨rfl, rfl, rfl, rfl, rfl⟩

theorem acceptIllegal_answers {s : State} (hc : s.configured = true) : ∃ t, acceptIllegal s = .next t := by
  rcases acceptIllegal_cases s with ⟨hn, -⟩ | ⟨-, -, ha⟩ | ⟨-, -, ha⟩
  · rw [hc] at hn; cases hn
  all_goals exact ⟨_, ha⟩

/-! ### The host's move -/

theorem takesWord_queue {s : State} {p : PortWord} (h : s.takesWord p = true) : s.queue = [] := by
  cases p with
  | cmd w => exact (canAccept_iff.1 h).2.2
  | ser w => exact (serTakes_iff.1 h).1
  | bc w => exact (bcTakes_iff.1 h).1

/-- Every word at the serializer's port is a request (R64). -/
theorem decode_ser (w : SerWord) : ∃ i, decode (.ser w) = .ok i := by
  simp only [decode, decodeSer]
  split <;> exact ⟨_, rfl⟩

/-- A word that its port takes and that decodes is run, taken off the port (R45). -/
theorem hostStep_runs {s : State} {p : PortWord} {rest : List HostMove} {i : Instr} (hi : s.inputs = presents p :: rest)
    (ht : s.takesWord p = true) (hd : decode p = .ok i) : hostStep s = exec i { s with inputs := rest } := by
  cases p <;> simp_all [hostStep, presents, State.takesWord, runCommandWord, runRequestWord]

/-- A word that its port does not take is held (R50). -/
theorem hostStep_holds {s : State} {p : PortWord} {rest : List HostMove} (hi : s.inputs = presents p :: rest)
    (ht : s.takesWord p = false) : hostStep s = .next s := by
  cases p <;> simp_all [hostStep, presents, State.takesWord]

/-- With nothing to take, the step leaves everything but a `wait` that passes. -/
theorem hostStep_quiet {s : State} (hn : ∀ strap rest, s.inputs ≠ .reset strap :: rest)
    (hp : ∀ p rest, s.inputs = presents p :: rest → s.takesWord p = false) :
    hostStep s = .next { s with inputs := afterWait s.inputs } := by
  cases hi : s.inputs with
  | nil => simp only [hostStep, hi, afterWait]; rw [← hi]
  | cons m rest =>
    have held (p : PortWord) (hm : m = presents p) : hostStep s = .next { s with inputs := afterWait (m :: rest) } := by
      subst hm
      rw [hostStep_holds hi (hp p rest hi), show afterWait (presents p :: rest) = s.inputs by rw [hi]; cases p <;> rfl]
    cases m with
    | wait => simp only [hostStep, hi, afterWait]
    | reset strap => exact absurd hi (hn strap rest)
    | command w => exact held (.cmd w) rfl
    | serRequest w => exact held (.ser w) rfl
    | bcRequest w => exact held (.bc w) rfl

/-- The whole of what the host's move can be, when it is no reset: nothing taken; a word that decodes; a word that is no
command; a broadcaster's word without meaning. -/
theorem hostStep_cases {s : State} (hn : ∀ strap rest, s.inputs ≠ .reset strap :: rest) :
    hostStep s = .next { s with inputs := afterWait s.inputs } ∨
    (∃ p rest i, s.inputs = presents p :: rest ∧ s.takesWord p = true ∧ decode p = .ok i ∧
      hostStep s = exec i { s with inputs := rest }) ∨
    (∃ w rest e, s.inputs = .command w :: rest ∧ s.canAccept = true ∧ decode (.cmd w) = .error e ∧
      hostStep s = acceptIllegal { s with inputs := rest }) ∨
    (∃ w rest e, s.inputs = .bcRequest w :: rest ∧ s.bcTakes = true ∧ decode (.bc w) = .error e ∧
      hostStep s = .refused .requestWithoutMeaning) := by
  by_cases hp : ∀ p rest, s.inputs = presents p :: rest → s.takesWord p = false
  · exact .inl (hostStep_quiet hn hp)
  · push Not at hp
    obtain ⟨p, rest, hi, ht⟩ := hp
    have ht : s.takesWord p = true := by simpa using ht
    cases hd : decode p with
    | ok i => exact .inr (.inl ⟨p, rest, i, hi, ht, hd, hostStep_runs hi ht hd⟩)
    | error e =>
      cases p with
      | cmd w =>
        refine .inr (.inr (.inl ⟨w, rest, e, hi, ht, hd, ?_⟩))
        simp_all [hostStep, presents, State.takesWord, runCommandWord]
      | ser w =>
        obtain ⟨i, hi⟩ := decode_ser w
        rw [hi] at hd; cases hd
      | bc w =>
        refine .inr (.inr (.inr ⟨w, rest, e, hi, ht, hd, ?_⟩))
        simp_all [hostStep, presents, State.takesWord, runRequestWord]

theorem hostStep_sameOutputs {s t : State} (hn : ∀ strap rest, s.inputs ≠ .reset strap :: rest) (h : hostStep s = .next t) :
    SameOutputs s t := by
  rcases hostStep_cases hn with he | ⟨p, rest, i, -, -, -, he⟩ | ⟨w, rest, e, -, -, -, he⟩ | ⟨w, rest, e, -, -, -, he⟩ <;>
    rw [he] at h
  · cases h
    exact ⟨rfl, rfl, rfl, rfl, rfl⟩
  · exact { exec_sameOutputs h with }
  · exact { acceptIllegal_sameOutputs h with }
  · cases h

/-! ### The step -/

/-- With nothing pending the step is the host's move, a reset included. -/
theorem step_of_queue_nil {s : State} (hq : s.queue = []) : step s = hostStep s := by
  rcases step_cases s with ⟨strap, rest, hi, hs⟩ | ⟨-, ⟨a, rest, hq', -⟩ | ⟨-, hs⟩⟩
  · rw [hs, hostStep, hi]
  · rw [hq] at hq'; cases hq'
  · exact hs

/-- What a step makes of `u`, which is `s` with the first pending action done and `rest` left. -/
def State.afterAction (s u : State) (rest : List Action) : State :=
  { (u.withSeqRegs s.advanceSeq) with queue := rest, busy := busyWith rest, inputs := afterWait s.inputs }

@[simp] theorem afterAction_config (s u : State) (rest : List Action) : (s.afterAction u rest).config = u.config := rfl
@[simp] theorem afterAction_chainLen (s u : State) (rest : List Action) : (s.afterAction u rest).chainLen = u.chainLen := rfl
@[simp] theorem afterAction_buf (s u : State) (rest : List Action) : (s.afterAction u rest).buf = u.buf := rfl
@[simp] theorem afterAction_latches (s u : State) (rest : List Action) : (s.afterAction u rest).latches = u.latches := rfl
@[simp] theorem afterAction_trace (s u : State) (rest : List Action) : (s.afterAction u rest).trace = u.trace := rfl
@[simp] theorem afterAction_fault (s u : State) (rest : List Action) : (s.afterAction u rest).fault = u.fault := rfl
@[simp] theorem afterAction_busy (s u : State) (rest : List Action) : (s.afterAction u rest).busy = busyWith rest := rfl
@[simp] theorem afterAction_queue (s u : State) (rest : List Action) : (s.afterAction u rest).queue = rest := rfl

theorem performNext_pin (e : PinEvent) (rest : List Action) (s : State) :
    performNext (.pin e) rest s = .next (s.afterAction (emit e s) rest) := rfl

theorem performNext_wr {i : Nat} (v : Byte) (rest : List Action) (s : State) (hi : i < 80) :
    performNext (.wr i v) rest s = .next (s.afterAction { s with buf := Memory.write s.buf i v } rest) := by
  simp [performNext, performAction, hi, State.afterAction]

/-- The whole of what a step that answers a next state has done: a reset, the first pending action, or, with nothing pending,
the host's move. -/
theorem step_next {s t : State} (h : step s = .next t) :
    (∃ strap rest, s.inputs = .reset strap :: rest ∧ strapLegal strap = true ∧
      t = { State.resetWith s.config strap rest with draws := s.draws }) ∨
    ((∀ strap rest, s.inputs ≠ .reset strap :: rest) ∧
      ((∃ e rest, s.queue = .pin e :: rest ∧ t = s.afterAction (emit e s) rest) ∨
       (∃ i v rest, s.queue = .wr i v :: rest ∧ i < 80 ∧ t = s.afterAction { s with buf := Memory.write s.buf i v } rest) ∨
       (s.queue = [] ∧ hostStep s = .next t))) := by
  rcases step_cases s with ⟨strap, rest, hi, hs⟩ | ⟨hn, ⟨a, rest, hq, hs⟩ | ⟨hq, hs⟩⟩ <;> rw [hs] at h
  · rw [resetBlock_eq] at h
    split at h
    · next hl => exact .inl ⟨strap, rest, hi, hl, by cases h; rfl⟩
    · cases h
  · obtain ⟨u, hu, rfl⟩ := performNext_next h
    rcases performAction_next hu with ⟨e, rfl, rfl⟩ | ⟨i, v, rfl, hi, rfl⟩
    · exact .inr ⟨hn, .inl ⟨e, rest, hq, rfl⟩⟩
    · exact .inr ⟨hn, .inr (.inl ⟨i, v, rest, hq, hi, rfl⟩)⟩
  · exact .inr ⟨hn, .inr (.inr ⟨hq, h⟩)⟩

/-! ### Action lists that can be queued -/

/-- What the invariant asks of an action list that is queued on settled lines: writes inside the framebuffer, and a clock and
a load line that are settled again at its end (R18, R73, R87 (d)). -/
structure Settles (q : List Action) : Prop where
  inRange : ∀ w ∈ writesOf q, w.1 < 80
  clock : ∀ w : Levels, w.clk ≠ .high → (w.afterAll (eventsOf q)).clk ≠ .high
  load : ∀ w : Levels, w.load ≠ .low → (w.afterAll (eventsOf q)).load ≠ .low

theorem settles_writes {ws : List (Nat × Byte)} (h : ∀ w ∈ ws, w.1 < 80) : Settles (writes ws) where
  inRange := by simpa using h
  clock := by simp
  load := by simp

theorem settles_pins {es : List PinEvent} (hc : ∀ w : Levels, (w.afterAll es).clk = .low)
    (hl : ∀ w : Levels, w.load ≠ .low → (w.afterAll es).load ≠ .low) : Settles (pins es) where
  inRange := by simp
  clock w _ := by simp [hc]
  load w h := by simpa using hl w h

theorem Settles.append {q q' : List Action} (h : Settles q) (h' : Settles q') : Settles (q ++ q') where
  inRange w hw := by
    rw [writesOf_append, List.mem_append] at hw
    exact hw.elim (h.inRange w) (h'.inRange w)
  clock w hw := by
    rw [eventsOf_append, afterAll_append]
    exact h'.clock _ (h.clock w hw)
  load w hw := by
    rw [eventsOf_append, afterAll_append]
    exact h'.load _ (h.load w hw)

theorem settles_serEvents (o : BitOrder) (v : Byte) : Settles (pins (serEvents o v)) :=
  settles_pins (fun w => by rw [afterAll_serEvents]) (fun w h => by rwa [afterAll_serEvents])

theorem settles_frame {ps : List Pair} (h : ps ≠ []) : Settles (pins (frameEvents ps)) :=
  settles_pins (fun w => afterAll_frameEvents_clk w ps h) (by simp)

theorem settles_clear {n : Nat} (hn : 1 ≤ n) : Settles (clearActions n) :=
  (settles_pins (fun w => afterAll_clearEvents_clk w hn) (by simp [afterAll_clearEvents_load])).append
    (settles_writes clearWrites_lt)

theorem settles_reload {n : Nat} (buf : Memory) (hn : 1 ≤ n) : Settles (pins (reloadEvents n buf)) :=
  settles_pins (fun w => afterAll_reloadEvents_clk w buf hn) (by simp [afterAll_reloadEvents_load])

theorem settles_shift {n : Nat} (old : Memory) {ws : List (Nat × Byte)} (hn : 1 ≤ n) (h : ∀ w ∈ ws, w.1 < 80) :
    Settles (shiftActions n old ws) :=
  (settles_writes h).append (settles_reload _ hn)

/-- `INIT` opens with the clock high, and the first frame brings it down again (R112). -/
theorem settles_initOpening (cfg : Config) {n : Nat} (hn : 1 ≤ n) : Settles (pins (initOpening cfg n)) :=
  settles_pins (fun w => by simp [initOpening, afterAll_append, afterAll_frameEvents_clk _ _ (samePairs_ne hn)])
    (fun w _ => by simp [initOpening, afterAll_append])

/-- A column in range names a location of the framebuffer (R34, R122). -/
theorem settles_columnWrite {n : Nat} {col : Byte} (v : Byte) (hn : n ≤ 10) (hc : columnInRange n col = true) :
    Settles (writes [(col.toNat, v)]) := by
  have hlt : col.toNat < 8 * n := of_decide_eq_true hc
  refine settles_writes fun w hw => ?_
  obtain rfl := List.mem_singleton.1 hw
  show col.toNat < 80
  omega

theorem settles_columnAllWrites (rule : ColumnAllIndexing) {n : Nat} {col : Byte} (v : Byte) (hn : n ≤ 10)
    (hc : localColumnInRange col = true) : Settles (writes (columnAllWrites rule n col v)) := by
  refine settles_writes fun w hw => ?_
  obtain ⟨i, hi, rfl⟩ := List.mem_map.1 hw
  have hlt := columnAllIndex_lt rule (List.mem_range.1 hi) (of_decide_eq_true hc)
  show columnAllIndex rule col i < 80
  omega

theorem columnInRange_of_pixelInRange {n : Nat} {col row : Byte} (h : pixelInRange n col row = true) :
    columnInRange n col = true :=
  (Bool.and_eq_true_iff.1 h).1

/-- Every instruction, in a configuration of the hardware, queues an action list that settles. -/
theorem exec_cases_settling (i : Instr) {s : State} (hc : s.configured = true) :
    (∃ inRange q, exec i s = acceptCommand i inRange q s ∧ (inRange = true → Settles q)) ∨
    (∃ free es load drawn, exec i s = takeRequest free es load drawn s ∧ (free = true → s.queue = []) ∧ Settles (pins es)) := by
  have ser (h : s.serTakes = true) : s.queue = [] := (serTakes_iff.1 h).1
  have bc (h : s.bcTakes = true) : s.queue = [] := (bcTakes_iff.1 h).1
  obtain ⟨hn, hn', -⟩ := configured_iff.1 hc
  have same (a v : Byte) := settles_frame (samePairs_ne (a := a) (v := v) hn)
  have addressed (k : Nat) (a v : Byte) := settles_frame (addressedPairs_ne (t := k) (a := a) (v := v) hn)
  cases i <;> simp only [exec, execSerMsb, execSerLsb, execBcSame, execBcAddr, execBcBuf]
  case init => exact .inl ⟨_, _, rfl, fun _ => ((settles_initOpening _ hn).append (settles_clear hn)).append (same _ _)⟩
  case clear => exact .inl ⟨_, _, rfl, fun _ => settles_clear hn⟩
  case setIntensity level => exact .inl ⟨_, _, rfl, fun _ => same _ _⟩
  case setColumn col v => exact .inl ⟨_, _, rfl, fun h => (settles_columnWrite v hn' h).append (addressed _ _ _)⟩
  case setColumnAll col v => exact .inl ⟨_, _, rfl, fun h => (settles_columnAllWrites _ v hn' h).append (same _ _)⟩
  case updateBufferAt col row val =>
    exact .inl ⟨_, _, rfl, fun h => settles_columnWrite _ hn' (columnInRange_of_pixelInRange h)⟩
  case setDot col row val =>
    exact .inl ⟨_, _, rfl, fun h => (settles_columnWrite _ hn' (columnInRange_of_pixelInRange h)).append (addressed _ _ _)⟩
  case shiftLeft r f => exact .inl ⟨_, _, rfl, fun _ => settles_shift _ hn (shiftLeftWrites_lt s.buf r f)⟩
  case shiftRight r f => exact .inl ⟨_, _, rfl, fun _ => settles_shift _ hn (shiftRightWrites_lt s.buf r f)⟩
  case shiftUp r => exact .inl ⟨_, _, rfl, fun _ => settles_shift _ hn (verticalWrites_lt hn' s.buf _)⟩
  case shiftDown r => exact .inl ⟨_, _, rfl, fun _ => settles_shift _ hn (verticalWrites_lt hn' s.buf _)⟩
  case reload => exact .inl ⟨_, _, rfl, fun _ => settles_reload _ hn⟩
  case serMsb v => exact .inr ⟨_, _, _, _, rfl, ser, settles_serEvents _ v⟩
  case serLsb v => exact .inr ⟨_, _, _, _, rfl, ser, settles_serEvents _ v⟩
  case bcSame a v => exact .inr ⟨_, _, _, _, rfl, bc, same a v⟩
  case bcAddr n a v => exact .inr ⟨_, _, _, _, rfl, bc, addressed _ a v⟩
  case bcBuf a => exact .inr ⟨_, _, _, _, rfl, bc, settles_frame (bufferPairs_ne hn)⟩

/-! ### The invariant, operation by operation -/

/-- The invariant does not speak of the host's moves. -/
theorem State.Inv.withInputs {s : State} (h : s.Inv) (ms : List HostMove) : { s with inputs := ms }.Inv := { h with }

theorem State.Inv.raise {s : State} (h : s.Inv) (hq : s.queue = []) (f : FaultCode) : (raise f s).Inv :=
  { h with faultNoWrite := fun _ => by rw [raise_queue, hq]; rfl }

/-- Queueing a list that settles, with nothing pending, keeps the invariant; a faulted block queues no write (R120). -/
theorem State.Inv.enqueue {s : State} (h : s.Inv) (hq : s.queue = []) {q : List Action} (hs : Settles q)
    (hf : s.fault ≠ .none → writesOf q = []) (regs : SeqRegs) (draws : Nat) :
    { (s.withSeqRegs regs) with queue := q, busy := busyWith q, draws := draws }.Inv where
  configured := h.configured
  bufWf := h.bufWf
  busyIff := rfl
  queueInRange := by simpa using hs.inRange
  faultNoWrite := hf
  latchesOfTrace := h.latchesOfTrace
  clockSettles := hs.clock s.latches (by simpa [hq] using h.clockSettles)
  loadSettles := hs.load s.latches (by simpa [hq] using h.loadSettles)

theorem State.Inv.reset {s : State} (h : s.Inv) {strap : BitVec 4} (hl : strapLegal strap = true) (rest : List HostMove) :
    { State.resetWith s.config strap rest with draws := s.draws }.Inv where
  configured := Bool.and_eq_true_iff.2 ⟨hl, (Bool.and_eq_true_iff.1 h.configured).2⟩
  bufWf := rfl
  busyIff := rfl
  queueInRange := rfl
  faultNoWrite _ := rfl
  latchesOfTrace := rfl
  clockSettles := by show Level.x ≠ Level.high; decide
  loadSettles := by show Level.x ≠ Level.low; decide

theorem State.Inv.afterPin {s : State} (h : s.Inv) {e : PinEvent} {rest : List Action} (hq : s.queue = .pin e :: rest) :
    (s.afterAction (emit e s) rest).Inv where
  configured := by simpa [State.configured] using h.configured
  bufWf := by simpa using h.bufWf
  busyIff := rfl
  queueInRange := by simpa [hq] using h.queueInRange
  faultNoWrite hf := by simpa [hq] using h.faultNoWrite (by simpa using hf)
  latchesOfTrace := by simp [afterAll_append, ← h.latchesOfTrace]
  clockSettles := by simpa [hq] using h.clockSettles
  loadSettles := by simpa [hq] using h.loadSettles

theorem State.Inv.afterWrite {s : State} (h : s.Inv) {i : Nat} {v : Byte} {rest : List Action} (hq : s.queue = .wr i v :: rest)
    (hi : i < 80) : (s.afterAction { s with buf := Memory.write s.buf i v } rest).Inv where
  configured := h.configured
  bufWf := Memory.wf_write h.bufWf hi
  busyIff := rfl
  queueInRange := by simpa [hq, hi] using h.queueInRange
  faultNoWrite hf := absurd (h.faultNoWrite hf) (by simp [hq])
  latchesOfTrace := h.latchesOfTrace
  clockSettles := hq ▸ h.clockSettles
  loadSettles := hq ▸ h.loadSettles

theorem exec_keeps_inv {i : Instr} {s t : State} (hs : s.Inv) (h : exec i s = .next t) : t.Inv := by
  rcases exec_cases_settling i hs.configured with ⟨inRange, q, he, hset⟩ | ⟨free, es, load, drawn, he, hfree, hset⟩ <;> rw [he] at h
  · rcases acceptCommand_cases i inRange q s with ⟨-, ha⟩ | ⟨-, -, ha⟩ | ⟨-, hn, -, ha⟩ | ⟨-, hn, hr, ha⟩ <;> rw [ha] at h <;> cases h
    · exact hs
    · exact hs.raise (canAccept_iff.1 hn).2.2 _
    · obtain ⟨-, hf, hq⟩ := canAccept_iff.1 hn
      exact hs.enqueue hq (hset hr) (absurd hf) _ _
  · rcases takeRequest_cases free es load drawn s with ⟨-, ha⟩ | ⟨-, -, ha⟩ | ⟨-, hn, ha⟩ <;> rw [ha] at h <;> cases h
    · exact hs
    · exact hs.enqueue (hfree hn) hset (fun _ => writesOf_pins es) _ _

theorem acceptIllegal_keeps_inv {s t : State} (hs : s.Inv) (h : acceptIllegal s = .next t) : t.Inv := by
  rcases acceptIllegal_cases s with ⟨-, ha⟩ | ⟨-, -, ha⟩ | ⟨-, hn, ha⟩ <;> rw [ha] at h <;> cases h
  · exact hs
  · exact hs.raise (canAccept_iff.1 hn).2.2 _

theorem hostStep_keeps_inv {s t : State} (hs : s.Inv) (hn : ∀ strap rest, s.inputs ≠ .reset strap :: rest)
    (h : hostStep s = .next t) : t.Inv := by
  rcases hostStep_cases hn with he | ⟨p, rest, i, -, -, -, he⟩ | ⟨w, rest, e, -, -, -, he⟩ | ⟨w, rest, e, -, -, -, he⟩ <;>
    rw [he] at h
  · cases h
    exact hs.withInputs _
  · exact exec_keeps_inv (hs.withInputs rest) h
  · exact acceptIllegal_keeps_inv (hs.withInputs rest) h
  · cases h

theorem step_keeps_inv {s t : State} (hs : s.Inv) (h : step s = .next t) : t.Inv := by
  rcases step_next h with ⟨strap, rest, -, hl, rfl⟩ | ⟨hn, ⟨e, rest, hq, rfl⟩ | ⟨i, v, rest, hq, hi, rfl⟩ | ⟨-, hh⟩⟩
  · exact hs.reset hl rest
  · exact hs.afterPin hq
  · exact hs.afterWrite hq hi
  · exact hostStep_keeps_inv hs hn hh

/-! ### No stop but for the host's error -/

/-- In a state of the invariant the first pending action can be performed: a write that is queued is inside the framebuffer. -/
theorem performNext_answers {s : State} (hs : s.Inv) {a : Action} {rest : List Action} (hq : s.queue = a :: rest) :
    ∃ t, performNext a rest s = .next t := by
  cases a with
  | pin e => exact ⟨_, performNext_pin e rest s⟩
  | wr i v =>
    have hi : i < 80 := of_decide_eq_true (List.all_eq_true.1 hs.queueInRange (i, v) (by simp [hq]))
    exact ⟨_, performNext_wr v rest s hi⟩

/-- The whole of how a step of a state of the invariant can stop: at a strap that is no configuration (R135), or at a
broadcaster's word without meaning (R64). -/
theorem step_answers_or_refuses {s : State} (hs : s.Inv) :
    (∃ t, step s = .next t) ∨
    (∃ strap rest, s.inputs = .reset strap :: rest ∧ strapLegal strap = false ∧ step s = .refused .notAConfiguration) ∨
    (∃ w rest e, s.inputs = .bcRequest w :: rest ∧ decode (.bc w) = .error e ∧ step s = .refused .requestWithoutMeaning) := by
  rcases step_cases s with ⟨strap, rest, hi, he⟩ | ⟨hn, ⟨a, rest, hq, he⟩ | ⟨-, he⟩⟩ <;> rw [he]
  · rw [resetBlock_eq]
    cases hl : strapLegal strap with
    | true => exact .inl ⟨_, rfl⟩
    | false => exact .inr (.inl ⟨strap, rest, hi, hl, rfl⟩)
  · exact .inl (performNext_answers hs hq)
  · rcases hostStep_cases hn with he | ⟨p, rest, i, -, -, -, he⟩ | ⟨w, rest, e, -, -, -, he⟩ | ⟨w, rest, e, hi, -, hd, he⟩ <;> rw [he]
    · exact .inl ⟨_, rfl⟩
    · exact .inl (exec_answers i (hs.withInputs rest).configured)
    · exact .inl (acceptIllegal_answers (hs.withInputs rest).configured)
    · exact .inr (.inr ⟨w, rest, e, hi, hd, rfl⟩)

theorem strapLegal_iff {strap : BitVec 4} : strapLegal strap = true ↔ 1 ≤ strap.toNat ∧ strap.toNat ≤ 10 := by
  simp [strapLegal]

end Sys2Proof.Machine

open Sys2Proof Sys2Proof.Machine

/-- Settles O45: `step_next` says what a step can be, and the invariant is kept by each: by a reset, by an event or a write
performed, and by the acceptance of a word, whose action list settles (`exec_cases_settling`). -/
theorem everyStepKeepsTheInvariant : Obligations.EveryStepKeepsTheInvariant := fun _ _ hs h => step_keeps_inv hs h

/-- Settles O7, by the two kinds of action. -/
theorem stepPerformsTheNextAction : Obligations.StepPerformsTheNextAction := by
  intro s a rest hu hq hr
  have busy_iff : busyWith rest = true ↔ rest ≠ [] := by simp [busyWith]
  rw [step_performs hu hq]
  cases a with
  | pin e =>
    refine ⟨_, performNext_pin e rest s, rfl, busy_iff, by simp, ⟨by simp, by simp⟩, fun e' he => ?_, nofun⟩
    cases he
    exact ⟨by simp, by simp, by simp⟩
  | wr i v =>
    refine ⟨_, performNext_wr v rest s (hr i v rfl), rfl, busy_iff, rfl, ⟨rfl, rfl⟩, nofun, fun i' v' he => ?_⟩
    cases he
    exact ⟨rfl, rfl, rfl⟩

/-- Settles O8, by what a step can be (`step_next`). -/
theorem stepMakesAtMostOneAction : Obligations.StepMakesAtMostOneAction := by
  intro s t h hn
  rcases step_next h with ⟨strap, rest, hi, -⟩ | ⟨-, ⟨e, rest, hq, rfl⟩ | ⟨i, v, rest, hq, hi, rfl⟩ | ⟨-, hh⟩⟩
  · exact absurd hi (hn strap rest)
  · exact .inr (.inl ⟨e, by simp [hq], by simp, by simp, by simp⟩)
  · exact .inr (.inr ⟨i, v, by simp [hq], hi, rfl, rfl, rfl⟩)
  · have same := hostStep_sameOutputs hn hh
    exact .inl ⟨same.trace, same.latches, same.buf⟩

/-- Settles O9, by what an instruction can do at acceptance (`exec_next`). -/
theorem acceptanceFrame : Obligations.AcceptanceFrame := by
  intro i s t h
  have same := exec_sameOutputs h
  exact ⟨same.buf, same.trace, same.latches, same.config, same.chainLen, exec_inputs h, exec_faultChange h⟩

/-- Settles O12, by what a step can be (`step_next`). -/
theorem onlyResetChangesTheChainLength : Obligations.OnlyResetChangesTheChainLength := by
  intro s t h
  rcases step_next h with ⟨strap, rest, hi, -, rfl⟩ | ⟨hn, ⟨e, rest, -, rfl⟩ | ⟨i, v, rest, -, -, rfl⟩ | ⟨-, hh⟩⟩
  · exact ⟨rfl, fun _ => ⟨strap, rest, hi, rfl⟩⟩
  · exact ⟨by simp, fun hne => absurd (by simp) hne⟩
  · exact ⟨rfl, fun hne => absurd rfl hne⟩
  · have same := hostStep_sameOutputs hn hh
    exact ⟨same.config, fun hne => absurd same.chainLen hne⟩

/-- Settles O13, by how a step of a state of the invariant can stop (`step_answers_or_refuses`). -/
theorem stepStopsOnlyForTheHostsError : Obligations.StepStopsOnlyForTheHostsError := by
  intro s hs
  rcases step_answers_or_refuses hs with ⟨t, he⟩ | ⟨strap, rest, hi, hl, he⟩ | ⟨w, rest, e, hi, hd, he⟩ <;> rw [he]
  · exact ⟨nofun, nofun⟩
  · exact ⟨nofun, fun r _ => .inl ⟨strap, rest, hi, by simp [← strapLegal_iff, hl]⟩⟩
  · exact ⟨nofun, fun r _ => .inr ⟨w, rest, e, hi, hd⟩⟩

/-- Settles O6: a word that is taken finds nothing pending, so the step is the host's move, which runs it. -/
theorem stepRunsTheDecodedInstruction : Obligations.StepRunsTheDecodedInstruction := by
  intro s p rest i hi ht hd
  rw [step_of_queue_nil (takesWord_queue ht), hostStep_runs hi ht hd]
end

section
/-! PROOFS. The column decode (20_memory.md R34, R35), and what a command may send on the bus: whole frames of `N` known pairs
(R36, 30_encoding.md R62, R63). -/

namespace Sys2Proof.Machine

/-! ### The column decode -/

theorem regAddr_toNat {k : Nat} (hk : k < 8) : (regAddr k).toNat = k + 1 := by
  rw [regAddr, BitVec.toNat_ofNat]
  omega

theorem localCol_lt (c : Byte) : localCol c < 8 := Nat.mod_lt _ (by decide)

/-- The local column is bits 2:0 of the column (R34). -/
theorem localCol_eq_bits (c : Byte) : localCol c = (c.extractLsb' 0 3).toNat := by
  rw [BitVec.extractLsb'_toNat]
  rfl

/-- The chip index is bits 6:3 of a column of the longest chain (R34). -/
theorem chipIndex_eq_bits {c : Byte} (hc : c.toNat < 128) : chipIndex c = (c.extractLsb' 3 4).toNat := by
  rw [BitVec.extractLsb'_toNat, Nat.shiftRight_eq_div_pow]
  show c.toNat / 8 = c.toNat / 8 % 16
  omega

/-! ### Known pairs and whole frames -/

/-- A pair that the bus may carry: the no-operation pair, a column register, or a global register (30_encoding.md R62). -/
def KnownPair (cfg : Config) (p : Pair) : Prop :=
  p = (0, 0) ∨ (1 ≤ p.1.toNat ∧ p.1.toNat ≤ 8) ∨ p.1 ∈ globalRegs cfg

theorem knownPair_column (cfg : Config) {k : Nat} (hk : k < 8) (v : Byte) : KnownPair cfg (regAddr k, v) := by
  refine .inr (.inl ?_)
  rw [regAddr_toNat hk]
  omega

theorem knownPair_global {cfg : Config} {a : Byte} (ha : a ∈ globalRegs cfg) (v : Byte) : KnownPair cfg (a, v) :=
  .inr (.inr ha)

/-- A frame for this chain: one known pair for each chip (R63). -/
def KnownFrame (cfg : Config) (n : Nat) (ps : List Pair) : Prop := ps.length = n ∧ ∀ p ∈ ps, KnownPair cfg p

theorem knownFrame_same {cfg : Config} {a v : Byte} (h : KnownPair cfg (a, v)) (n : Nat) :
    KnownFrame cfg n (samePairs n a v) :=
  ⟨length_samePairs n a v, fun _ hp => List.eq_of_mem_replicate hp ▸ h⟩

/-- Every chip but the target gets the no-operation pair (41_broadcaster.md R84). -/
theorem knownFrame_addressed {cfg : Config} {a v : Byte} (h : KnownPair cfg (a, v)) (n t : Nat) :
    KnownFrame cfg n (addressedPairs n t a v) := by
  refine ⟨length_addressedPairs n t a v, fun p hp => ?_⟩
  obtain ⟨i, -, rfl⟩ := List.mem_map.1 hp
  split
  · exact h
  · exact .inl rfl

/-- The events are those of frames sent one after the other, each a known frame. -/
def SendsKnownFrames (cfg : Config) (n : Nat) (es : List PinEvent) : Prop :=
  ∃ fs : List (List Pair), es = fs.flatMap frameEvents ∧ ∀ ps ∈ fs, KnownFrame cfg n ps

theorem sendsKnownFrames_nil (cfg : Config) (n : Nat) : SendsKnownFrames cfg n [] := ⟨[], rfl, nofun⟩

theorem KnownFrame.sends {cfg : Config} {n : Nat} {ps : List Pair} (h : KnownFrame cfg n ps) :
    SendsKnownFrames cfg n (frameEvents ps) :=
  ⟨[ps], by simp, by simpa using h⟩

theorem SendsKnownFrames.append {cfg : Config} {n : Nat} {es es' : List PinEvent} (h : SendsKnownFrames cfg n es)
    (h' : SendsKnownFrames cfg n es') : SendsKnownFrames cfg n (es ++ es') := by
  obtain ⟨fs, rfl, hfs⟩ := h
  obtain ⟨fs', rfl, hfs'⟩ := h'
  exact ⟨fs ++ fs', List.flatMap_append.symm, fun ps hps => (List.mem_append.1 hps).elim (hfs ps) (hfs' ps)⟩

theorem sendsKnownFrames_same {cfg : Config} {a v : Byte} (h : KnownPair cfg (a, v)) (n : Nat) :
    SendsKnownFrames cfg n (frameEvents (samePairs n a v)) :=
  (knownFrame_same h n).sends

theorem sendsKnownFrames_columnFrame (cfg : Config) (n : Nat) (col v : Byte) : SendsKnownFrames cfg n (columnFrame n col v) :=
  (knownFrame_addressed (knownPair_column cfg (localCol_lt col) v) n _).sends

theorem sendsKnownFrames_clear (cfg : Config) (n : Nat) : SendsKnownFrames cfg n (clearEvents n) := by
  refine ⟨_, clearEvents_eq n, fun ps hps => ?_⟩
  obtain ⟨k, hk, rfl⟩ := List.mem_map.1 hps
  exact knownFrame_same (knownPair_column cfg (List.mem_range.1 hk) 0) n

theorem sendsKnownFrames_reload (cfg : Config) (n : Nat) (buf : Memory) : SendsKnownFrames cfg n (reloadEvents n buf) := by
  refine ⟨_, reloadEvents_eq n buf, fun ps hps => ?_⟩
  obtain ⟨k, hk, rfl⟩ := List.mem_map.1 hps
  refine ⟨by simp, fun p hp => ?_⟩
  obtain ⟨i, -, rfl⟩ := List.mem_map.1 hp
  exact knownPair_column cfg (List.mem_range.1 hk) _

theorem sendsKnownFrames_intensity (cfg : Config) (n : Nat) (level : Byte) :
    SendsKnownFrames cfg n (intensityEvents cfg n level) :=
  sendsKnownFrames_same (knownPair_global (by simp [globalRegs]) level) n

/-- `INIT` opens with `C(1)`, then sends four frames of global registers (44_driver_ops.md R112). -/
theorem initOpening_sends (cfg : Config) (n : Nat) :
    ∃ es, initOpening cfg n = .c true :: es ∧ SendsKnownFrames cfg n es := by
  have global {a : Byte} (ha : a ∈ globalRegs cfg) (v : Byte) := sendsKnownFrames_same (knownPair_global ha v) n
  exact ⟨_, rfl, (((global (by simp [globalRegs]) _).append (global (by simp [globalRegs]) _)).append
    (global (by simp [globalRegs]) _)).append (global (by simp [globalRegs]) _)⟩

/-! ### What each command queues -/

theorem SendsKnownFrames.ofPins {cfg : Config} {n : Nat} {es : List PinEvent} (h : SendsKnownFrames cfg n es) :
    SendsKnownFrames cfg n (eventsOf (pins es)) := by
  rwa [eventsOf_pins]

/-- Buffer writes queued before the frames send nothing (42_buffer_ops.md R90). -/
theorem SendsKnownFrames.afterWrites {cfg : Config} {n : Nat} {es : List PinEvent} (h : SendsKnownFrames cfg n es)
    (ws : List (Nat × Byte)) : SendsKnownFrames cfg n (eventsOf (writes ws ++ pins es)) := by
  rwa [eventsOf_append, eventsOf_writes, eventsOf_pins, List.nil_append]

theorem eventsOf_clearActions (n : Nat) : eventsOf (clearActions n) = clearEvents n := by simp [clearActions]

theorem sendsKnownFrames_shift (cfg : Config) (n : Nat) (old : Memory) (ws : List (Nat × Byte)) :
    SendsKnownFrames cfg n (eventsOf (shiftActions n old ws)) :=
  (sendsKnownFrames_reload cfg n _).afterWrites ws

/-- Every command but `INIT` is an acceptance whose action list, when the operands are in range, sends known frames. -/
theorem exec_command_sendsKnownFrames {i : Instr} {w : CmdWord} (hw : encode i = .cmd w) (hi : i ≠ .init) (s : State) :
    ∃ inRange q, exec i s = acceptCommand i inRange q s ∧
      (inRange = true → SendsKnownFrames s.config s.chips (eventsOf q)) := by
  cases i
  case init => exact absurd rfl hi
  case clear => exact ⟨_, _, rfl, fun _ => eventsOf_clearActions _ ▸ sendsKnownFrames_clear _ _⟩
  case setIntensity level => exact ⟨_, _, rfl, fun _ => (sendsKnownFrames_intensity _ _ level).ofPins⟩
  case setColumn col v => exact ⟨_, _, rfl, fun _ => (sendsKnownFrames_columnFrame _ _ col v).afterWrites _⟩
  case setColumnAll col v =>
    exact ⟨_, _, rfl, fun hr => (sendsKnownFrames_same (knownPair_column _ (of_decide_eq_true hr) v) _).afterWrites _⟩
  case updateBufferAt col row val => exact ⟨_, _, rfl, fun _ => sendsKnownFrames_nil _ _⟩
  case setDot col row val => exact ⟨_, _, rfl, fun _ => (sendsKnownFrames_columnFrame _ _ col _).afterWrites _⟩
  case shiftLeft r f => exact ⟨_, _, rfl, fun _ => sendsKnownFrames_shift _ _ _ _⟩
  case shiftRight r f => exact ⟨_, _, rfl, fun _ => sendsKnownFrames_shift _ _ _ _⟩
  case shiftUp r => exact ⟨_, _, rfl, fun _ => sendsKnownFrames_shift _ _ _ _⟩
  case shiftDown r => exact ⟨_, _, rfl, fun _ => sendsKnownFrames_shift _ _ _ _⟩
  case reload => exact ⟨_, _, rfl, fun _ => (sendsKnownFrames_reload _ _ s.buf).ofPins⟩
  all_goals cases hw

/-- A command but `INIT`, presented to a ready block, leaves known frames pending; with an operand out of range, none. -/
theorem exec_command_pendingFrames {i : Instr} {w : CmdWord} {s t : State} (hs : s.Ready) (hw : encode i = .cmd w)
    (hi : i ≠ .init) (h : exec i s = .next t) : SendsKnownFrames s.config s.chips (eventsOf t.queue) := by
  obtain ⟨inRange, q, he, hq⟩ := exec_command_sendsKnownFrames hw hi s
  rw [he] at h
  cases hr : inRange with
  | false =>
    rw [acceptCommand_faults hs.inv.configured hs.accepts hr] at h
    cases h
    rw [raise_queue, (canAccept_iff.1 hs.accepts).2.2]
    exact sendsKnownFrames_nil _ _
  | true =>
    rw [acceptCommand_accepts hs.inv.configured hs.accepts hr] at h
    cases h
    exact hq hr

/-- `INIT`, presented to a ready block, leaves `C(1)` and then known frames pending. -/
theorem exec_init_pendingFrames {s t : State} (hs : s.Ready) (h : exec .init s = .next t) :
    ∃ es, eventsOf t.queue = .c true :: es ∧ SendsKnownFrames s.config s.chips es := by
  rw [exec, execInit, acceptCommand_accepts hs.inv.configured hs.accepts rfl] at h
  cases h
  obtain ⟨es, he, hes⟩ := initOpening_sends s.config s.chips
  exact ⟨_, by simp [he, eventsOf_clearActions],
    hes.append ((sendsKnownFrames_clear _ _).append (sendsKnownFrames_intensity _ _ 0x0F))⟩

end Sys2Proof.Machine

open Sys2Proof Sys2Proof.Machine

/-- Settles O37, by what each command leaves pending at acceptance (`exec_command_pendingFrames`), `INIT` with its opening event
(`exec_init_pendingFrames`). -/
theorem commandsSendOnlyWholeFramesOfKnownPairs : Obligations.CommandsSendOnlyWholeFramesOfKnownPairs := by
  intro i w s t hs hw h
  by_cases hi : i = .init
  · subst hi
    obtain ⟨_, he, fs, rfl, hfs⟩ := exec_init_pendingFrames hs h
    exact ⟨fs, he, hfs⟩
  · obtain ⟨fs, he, hfs⟩ := exec_command_pendingFrames hs hw hi h
    exact ⟨fs, by rw [if_neg hi, he, List.nil_append], hfs⟩

/-- Settles O50: the column decode splits the column into its bits, and an index rule of `SET_COLUMN_ALL` stays in the active
window (`columnAllIndex_lt`). -/
theorem columnDecodeIsExact : Obligations.ColumnDecodeIsExact := by
  refine ⟨fun n c hn hc => ?_, fun n i c _ hn hi hc => ?_⟩
  · have chip_lt : chipIndex c < n := Nat.div_lt_of_lt_mul hc
    have split : c.toNat = chipIndex c * 8 + localCol c := (Nat.div_add_mod' c.toNat 8).symm
    exact ⟨chip_lt, localCol_lt c, split, chipIndex_eq_bits (by omega), localCol_eq_bits c, regAddr_toNat (localCol_lt c)⟩
  · have product_le : c.toNat * i ≤ 7 * 9 := Nat.mul_le_mul (by omega) (by omega)
    exact ⟨product_le, columnAllIndex_lt _ hi hc, columnAllIndex_lt _ hi hc, Nat.mul_zero _⟩
end

section
/-! PROOFS. Decoding and encoding are inverse to each other (30_encoding.md R51, R52, R60, R64), with what follows for the rows of
the opcode map and for the operands; and a port that does not take what is presented (R50). -/

namespace Sys2Proof

/-! ### The fields of the words -/

@[simp] theorem opField_cmdOf (op a b v : Byte) : opField (cmdOf op a b v) = op := (fields_cmdOf op a b v).1
@[simp] theorem aField_cmdOf (op a b v : Byte) : aField (cmdOf op a b v) = a := (fields_cmdOf op a b v).2.1
@[simp] theorem bField_cmdOf (op a b v : Byte) : bField (cmdOf op a b v) = b := (fields_cmdOf op a b v).2.2.1
@[simp] theorem vField_cmdOf (op a b v : Byte) : vField (cmdOf op a b v) = v := (fields_cmdOf op a b v).2.2.2

/-- The command word of given fields is the word that has them. -/
theorem cmd_cmdOf_eq {op a b v : Byte} {w : CmdWord} (hop : opField w = op) (ha : aField w = a) (hb : bField w = b)
    (hv : vField w = v) : PortWord.cmd (cmdOf op a b v) = .cmd w := by
  subst hop ha hb hv
  rw [cmdOf_fields]

section
variable {op a b v : Byte} {k : Nat} (hk : k < 8)
include hk

/-- The `a` field is bits 23:16 (R51). -/
theorem getLsbD_cmdOf_a : (cmdOf op a b v).getLsbD (16 + k) = a.getLsbD k := by
  conv_rhs => rw [← aField_cmdOf op a b v, aField, BitVec.getLsbD_extractLsb']
  simp [hk]

/-- The `b` field is bits 15:8 (R51). -/
theorem getLsbD_cmdOf_b : (cmdOf op a b v).getLsbD (8 + k) = b.getLsbD k := by
  conv_rhs => rw [← bField_cmdOf op a b v, bField, BitVec.getLsbD_extractLsb']
  simp [hk]

/-- The `v` field is bits 7:0 (R51). -/
theorem getLsbD_cmdOf_v : (cmdOf op a b v).getLsbD k = v.getLsbD k := by
  conv_rhs => rw [← vField_cmdOf op a b v, vField, BitVec.getLsbD_extractLsb']
  simp [hk]

end

/-- A serializer request is its order bit and its byte (R64). -/
theorem serWord_fields (w : SerWord) : BitVec.ofBool (w.getLsbD 8) ++ w.extractLsb' 0 8 = w := by
  ext k hk
  rw [← BitVec.getLsbD_eq_getElem hk, ← BitVec.getLsbD_eq_getElem hk, BitVec.getLsbD_append]
  by_cases h : k < 8
  · simp [h]
  · obtain rfl : k = 8 := by omega
    simp

theorem fields_ser (o : Bool) (v : Byte) :
    (BitVec.ofBool o ++ v : SerWord).getLsbD 8 = o ∧ (BitVec.ofBool o ++ v : SerWord).extractLsb' 0 8 = v := by
  refine ⟨by rw [BitVec.getLsbD_append]; cases o <;> rfl, ?_⟩
  ext k hk
  simp only [BitVec.getElem_extractLsb', BitVec.getLsbD_append]
  simp [hk]

/-- A broadcaster request is its four fields (R64). -/
theorem bcWord_fields (w : BcWord) :
    w.extractLsb' 20 2 ++ w.extractLsb' 16 4 ++ w.extractLsb' 8 8 ++ w.extractLsb' 0 8 = w := by
  iterate 3 rw [BitVec.extractLsb'_append_extractLsb'_eq_extractLsb' (by rfl)]
  exact BitVec.extractLsb'_eq_self

/-! ### The bits of the flag bytes -/

@[simp] theorem bitByte_masked (b : Bool) : bitByte b &&& 0xFE#8 = 0#8 := by cases b <;> rfl
@[simp] theorem bitByte_getElem_zero (b : Bool) : (bitByte b)[0] = b := by cases b <;> rfl
@[simp] theorem flagByte_masked (r f : Bool) : flagByte r f &&& 0xFC#8 = 0#8 := by cases r <;> cases f <;> rfl
@[simp] theorem flagByte_rotate_masked (r : Bool) : flagByte r false &&& 0xFE#8 = 0#8 := by cases r <;> rfl
@[simp] theorem flagByte_getElem_zero (r f : Bool) : (flagByte r f)[0] = r := by cases r <;> cases f <;> rfl
@[simp] theorem flagByte_getElem_one (r f : Bool) : (flagByte r f)[1] = f := by cases r <;> cases f <;> rfl

/-- A byte whose bits 7:1 are zero is its bit 0. -/
theorem eq_bitByte_of_masked {v : Byte} : v &&& 0xFE#8 = 0 → v = bitByte (v.getLsbD 0) := by
  revert v
  decide

/-- A byte whose bits 7:2 are zero is its bits 0 and 1. -/
theorem eq_flagByte_of_masked {v : Byte} : v &&& 0xFC#8 = 0 → v = flagByte (v.getLsbD 0) (v.getLsbD 1) := by
  revert v
  decide

theorem eq_flagByte_rotate_of_masked {v : Byte} : v &&& 0xFE#8 = 0 → v = flagByte (v.getLsbD 0) false := by
  revert v
  decide

/-! ### Decode after encode -/

theorem decodeSer_ofBool (o : Bool) (v : Byte) :
    decodeSer (BitVec.ofBool o ++ v) = .ok (if o then .serLsb v else .serMsb v) := by
  obtain ⟨ho, hv⟩ := fields_ser o v
  rw [decodeSer, ho, hv]
  cases o <;> rfl

/-- The decoder gives every instruction back from its own word. -/
theorem decode_encode (i : Instr) : decode (encode i) = .ok i := by
  cases i
  case serMsb v => exact decodeSer_ofBool false v
  case serLsb v => exact decodeSer_ofBool true v
  case bcSame a v =>
    obtain ⟨hk, ht, ha, hv⟩ := fields_bc 0#2 0#4 a v
    simp only [decode, encode, decodeBc, hk, ht, ha, hv]
    rfl
  case bcAddr n a v =>
    obtain ⟨hk, ht, ha, hv⟩ := fields_bc 1#2 n a v
    simp only [decode, encode, decodeBc, hk, ht, ha, hv]
    rfl
  case bcBuf a =>
    obtain ⟨hk, ht, ha, hv⟩ := fields_bc 2#2 0#4 a 0#8
    simp only [decode, encode, decodeBc, hk, ht, ha, hv]
    rfl
  -- the twelve commands: the fields are read back, and a flag byte has only its flag bits set
  all_goals simp [decode, encode, decodeCommand, ifZero]

/-! ### Encode after decode -/

/-- A command word that decodes is the encoder's own: its `op` is the instruction's and its must-be-zero bits are zero (R60). The
cases are the twelve opcodes in the order of R52. -/
theorem encode_of_decodeCommand {w : CmdWord} {i : Instr} (h : decodeCommand w = .ok i) : encode i = .cmd w := by
  simp only [decodeCommand, ite_eq_iff, ifZero_eq_ok, Bool.and_eq_true, beq_iff_eq] at h
  rcases h with ⟨hop, ⟨⟨ha, hb⟩, hv⟩, rfl⟩ | ⟨-, h⟩
  · exact cmd_cmdOf_eq hop ha hb hv
  rcases h with ⟨hop, ⟨⟨ha, hb⟩, hv⟩, rfl⟩ | ⟨-, h⟩
  · exact cmd_cmdOf_eq hop ha hb hv
  rcases h with ⟨hop, ⟨ha, hb⟩, rfl⟩ | ⟨-, h⟩
  · exact cmd_cmdOf_eq hop ha hb rfl
  rcases h with ⟨hop, hb, rfl⟩ | ⟨-, h⟩
  · exact cmd_cmdOf_eq hop rfl hb rfl
  rcases h with ⟨hop, hb, rfl⟩ | ⟨-, h⟩
  · exact cmd_cmdOf_eq hop rfl hb rfl
  rcases h with ⟨hop, hv, rfl⟩ | ⟨-, h⟩
  · exact cmd_cmdOf_eq hop rfl rfl (eq_bitByte_of_masked hv)
  rcases h with ⟨hop, hv, rfl⟩ | ⟨-, h⟩
  · exact cmd_cmdOf_eq hop rfl rfl (eq_bitByte_of_masked hv)
  rcases h with ⟨hop, ⟨⟨ha, hb⟩, hv⟩, rfl⟩ | ⟨-, h⟩
  · exact cmd_cmdOf_eq hop ha (eq_flagByte_of_masked hb) hv
  rcases h with ⟨hop, ⟨⟨ha, hb⟩, hv⟩, rfl⟩ | ⟨-, h⟩
  · exact cmd_cmdOf_eq hop ha (eq_flagByte_of_masked hb) hv
  rcases h with ⟨hop, ⟨⟨ha, hb⟩, hv⟩, rfl⟩ | ⟨-, h⟩
  · exact cmd_cmdOf_eq hop ha (eq_flagByte_rotate_of_masked hb) hv
  rcases h with ⟨hop, ⟨⟨ha, hb⟩, hv⟩, rfl⟩ | ⟨-, h⟩
  · exact cmd_cmdOf_eq hop ha (eq_flagByte_rotate_of_masked hb) hv
  rcases h with ⟨hop, ⟨⟨ha, hb⟩, hv⟩, rfl⟩ | ⟨-, h⟩
  · exact cmd_cmdOf_eq hop ha hb hv
  · cases h

theorem encode_of_decodeSer {w : SerWord} {i : Instr} (h : decodeSer w = .ok i) : encode i = .ser w := by
  obtain ⟨o, v, rfl⟩ : ∃ o v, BitVec.ofBool o ++ v = w := ⟨_, _, serWord_fields w⟩
  rw [decodeSer_ofBool] at h
  cases o <;> cases h <;> rfl

theorem encode_of_decodeBc {w : BcWord} {i : Instr} (h : decodeBc w = .ok i) : encode i = .bc w := by
  simp only [decodeBc, ite_eq_iff, Except.ok.injEq, reduceCtorEq, and_false, or_false] at h
  conv_rhs => rw [← bcWord_fields w]
  rcases h with ⟨hk, ht, rfl⟩ | ⟨-, ⟨hk, rfl⟩ | ⟨-, hk, ⟨ht, hv⟩, rfl⟩⟩
  · rw [hk, ht]
    rfl
  · rw [hk]
    rfl
  · rw [hk, ht, hv]
    rfl

/-- Each word has at most one reading, and it is the one whose word it is (R51, R64). -/
theorem decode_eq_ok_iff {p : PortWord} {i : Instr} : decode p = .ok i ↔ encode i = p := by
  constructor
  · intro h
    cases p with
    | cmd w => exact encode_of_decodeCommand h
    | ser w => exact encode_of_decodeSer h
    | bc w => exact encode_of_decodeBc h
  · rintro rfl
    exact decode_encode i

/-! ### The rows of the opcode map -/

theorem selects_iff_fields {r : OpcodeRow} {w : CmdWord} :
    r.selects w = true ↔
      opField w &&& opField r.mask = opField r.bits ∧ aField w &&& aField r.mask = aField r.bits ∧
      bField w &&& bField r.mask = bField r.bits ∧ vField w &&& vField r.mask = vField r.bits := by
  have h := Laws.MatchesRow.selects_cmdOf r.mnemonic (opField r.bits) (aField r.bits) (bField r.bits) (vField r.bits)
    (opField r.mask) (aField r.mask) (bField r.mask) (vField r.mask) (opField w) (aField w) (bField w) (vField w)
  rwa [cmdOf_fields, cmdOf_fields, cmdOf_fields] at h

/-- The `op` byte is inside every mask (R52). -/
theorem opField_mask : ∀ r ∈ opcodeRows, opField r.mask = 0xFF#8 := by decide

/-- The `op` byte differs between rows (R52). -/
theorem eq_of_opField_bits : ∀ r ∈ opcodeRows, ∀ r' ∈ opcodeRows, opField r.bits = opField r'.bits → r = r' := by decide

theorem opField_of_selects {r : OpcodeRow} {w : CmdWord} (hr : r ∈ opcodeRows) (h : r.selects w = true) :
    opField w = opField r.bits := by
  obtain ⟨hop, -⟩ := selects_iff_fields.1 h
  rw [opField_mask r hr] at hop
  exact (BitVec.and_allOnes).symm.trans hop

/-- The word of every instruction belongs to the row of its mnemonic. -/
theorem matchesRow (i : Instr) : Laws.MatchesRow.Statement i := by
  cases i
  case init => exact Laws.MatchesRow.init
  case clear => exact Laws.MatchesRow.clear
  case setIntensity => exact Laws.MatchesRow.setIntensity _
  case setColumn => exact Laws.MatchesRow.setColumn _ _
  case setColumnAll => exact Laws.MatchesRow.setColumnAll _ _
  case updateBufferAt => exact Laws.MatchesRow.updateBufferAt _ _ _
  case setDot => exact Laws.MatchesRow.setDot _ _ _
  case shiftLeft => exact Laws.MatchesRow.shiftLeft _ _
  case shiftRight => exact Laws.MatchesRow.shiftRight _ _
  case shiftUp => exact Laws.MatchesRow.shiftUp _
  case shiftDown => exact Laws.MatchesRow.shiftDown _
  case reload => exact Laws.MatchesRow.reload
  case serMsb => exact Laws.MatchesRow.serMsb _
  case serLsb => exact Laws.MatchesRow.serLsb _
  case bcSame => exact Laws.MatchesRow.bcSame _ _
  case bcAddr => exact Laws.MatchesRow.bcAddr _ _ _
  case bcBuf => exact Laws.MatchesRow.bcBuf _

theorem row_of_encode {i : Instr} {w : CmdWord} (h : encode i = .cmd w) :
    ∃ r ∈ opcodeRows, r.selects w = true ∧ r.mnemonic = mnemonicOf i := by
  have row := matchesRow i
  rw [Laws.MatchesRow.Statement, h] at row
  obtain ⟨r, hr, hm, hs⟩ := row
  exact ⟨r, hr, hs, hm⟩

/-- A word that a row selects is the word of an instruction of that row: the fields the mask leaves free are its operands. -/
theorem encode_of_selects {r : OpcodeRow} {w : CmdWord} (hr : r ∈ opcodeRows) (h : r.selects w = true) :
    ∃ i, encode i = .cmd w ∧ mnemonicOf i = r.mnemonic := by
  have hop := opField_of_selects hr h
  obtain ⟨-, ha, hb, hv⟩ := selects_iff_fields.1 h
  simp only [opcodeRows, List.mem_cons, List.not_mem_nil, or_false] at hr
  have zero {v : Byte} : v &&& 0xFF#8 = 0 → v = 0 := BitVec.and_allOnes.symm.trans
  rcases hr with rfl | rfl | rfl | rfl | rfl | rfl | rfl | rfl | rfl | rfl | rfl | rfl
  · exact ⟨.init, cmd_cmdOf_eq hop (zero ha) (zero hb) (zero hv), rfl⟩
  · exact ⟨.clear, cmd_cmdOf_eq hop (zero ha) (zero hb) (zero hv), rfl⟩
  · exact ⟨.setIntensity _, cmd_cmdOf_eq hop (zero ha) (zero hb) rfl, rfl⟩
  · exact ⟨.setColumn _ _, cmd_cmdOf_eq hop rfl (zero hb) rfl, rfl⟩
  · exact ⟨.setColumnAll _ _, cmd_cmdOf_eq hop rfl (zero hb) rfl, rfl⟩
  · exact ⟨.updateBufferAt _ _ _, cmd_cmdOf_eq hop rfl rfl (eq_bitByte_of_masked hv), rfl⟩
  · exact ⟨.setDot _ _ _, cmd_cmdOf_eq hop rfl rfl (eq_bitByte_of_masked hv), rfl⟩
  · exact ⟨.shiftLeft _ _, cmd_cmdOf_eq hop (zero ha) (eq_flagByte_of_masked hb) (zero hv), rfl⟩
  · exact ⟨.shiftRight _ _, cmd_cmdOf_eq hop (zero ha) (eq_flagByte_of_masked hb) (zero hv), rfl⟩
  · exact ⟨.shiftUp _, cmd_cmdOf_eq hop (zero ha) (eq_flagByte_rotate_of_masked hb) (zero hv), rfl⟩
  · exact ⟨.shiftDown _, cmd_cmdOf_eq hop (zero ha) (eq_flagByte_rotate_of_masked hb) (zero hv), rfl⟩
  · exact ⟨.reload, cmd_cmdOf_eq hop (zero ha) (zero hb) (zero hv), rfl⟩

end Sys2Proof

namespace Sys2Proof.Machine

/-! ### What a step does not look at -/

theorem presents_not_reset (p : PortWord) (ms : List HostMove) (strap : BitVec 4) (rest : List HostMove) :
    presents p :: ms ≠ .reset strap :: rest := by
  cases p <;> nofun

theorem afterWait_presents (p : PortWord) (ms : List HostMove) : afterWait (presents p :: ms) = presents p :: ms := by
  cases p <;> rfl

/-- With an action pending and no reset asserted the step performs it. -/
theorem step_of_queue_cons {s : State} {a : Action} {rest : List Action} (hn : ∀ strap rest, s.inputs ≠ .reset strap :: rest)
    (hq : s.queue = a :: rest) : step s = performNext a rest s := by
  rcases step_cases s with ⟨strap, rest', hi, -⟩ | ⟨-, ⟨a', rest', hq', hs⟩ | ⟨hq', -⟩⟩
  · exact absurd hi (hn strap rest')
  · rw [hq] at hq'
    cases hq'
    exact hs
  · rw [hq] at hq'
    cases hq'

/-- Performing an action does not look at the host's moves. -/
theorem performNext_withInputs {a : Action} {rest : List Action} {s t : State} (h : performNext a rest s = .next t)
    (ms : List HostMove) :
    performNext a rest { s with inputs := ms } = .next { t with inputs := afterWait ms } := by
  obtain ⟨u, hu, rfl⟩ := performNext_next h
  rcases performAction_next hu with ⟨e, rfl, rfl⟩ | ⟨i, v, rfl, hi, rfl⟩
  · rw [performNext_pin]
    cases e <;> rfl
  · rw [performNext_wr v rest _ hi]
    rfl

/-- With actions pending and no reset asserted, the step is the same whatever the host presents (R45, R50). -/
theorem step_withInputs {s t : State} {ms : List HostMove} (hq : s.queue ≠ [])
    (hs : ∀ strap rest, s.inputs ≠ .reset strap :: rest) (hms : ∀ strap rest, ms ≠ .reset strap :: rest) (h : step s = .next t) :
    step { s with inputs := ms } = .next { t with inputs := afterWait ms } := by
  obtain ⟨a, rest, ha⟩ := List.exists_cons_of_ne_nil hq
  rw [step_of_queue_cons hs ha] at h
  exact (step_of_queue_cons (s := { s with inputs := ms }) hms ha).trans (performNext_withInputs h ms)

/-- A step that performs an action leaves the host's moves but for a `wait` that passes. -/
theorem step_inputs_of_pending {s t : State} (hq : s.queue ≠ []) (hs : ∀ strap rest, s.inputs ≠ .reset strap :: rest)
    (h : step s = .next t) : t.inputs = afterWait s.inputs := by
  obtain ⟨a, rest, ha⟩ := List.exists_cons_of_ne_nil hq
  rw [step_of_queue_cons hs ha] at h
  obtain ⟨u, -, rfl⟩ := performNext_next h
  rfl

/-- With nothing pending and nothing presented the block does nothing (R140). -/
theorem step_idle {s : State} (hq : s.queue = []) (hi : s.inputs = []) : step s = .next s := by
  rw [step_of_queue_nil hq, hostStep, hi]

end Sys2Proof.Machine

open Sys2Proof Sys2Proof.Machine

/-- Settles O1, instruction by instruction (`decode_encode`). -/
theorem decodeAfterEncodeIsIdentity : Obligations.DecodeAfterEncodeIsIdentity := decode_encode

/-- Settles O2, port by port (`decode_eq_ok_iff`). -/
theorem encodeAfterDecodeIsIdentity : Obligations.EncodeAfterDecodeIsIdentity := fun _ _ h => decode_eq_ok_iff.1 h

/-- Settles O3: the `op` byte tells the rows apart, and a word that decodes and a word that a row selects are both the word of
an instruction of the row. -/
theorem commandWordsSelectOneRow : Obligations.CommandWordsSelectOneRow := by
  refine fun w => ⟨fun r hr r' hr' h h' => ?_, fun i h => row_of_encode (decode_eq_ok_iff.1 h), fun r hr h => ?_⟩
  · exact eq_of_opField_bits r hr r' hr' ((opField_of_selects hr h).symm.trans (opField_of_selects hr' h'))
  · obtain ⟨i, hi, hm⟩ := encode_of_selects hr h
    exact ⟨i, decode_eq_ok_iff.2 hi, hm⟩

/-- Settles O4: the word is the encoder's own, whose fields are the operands. -/
theorem operandsAreTheFields : Obligations.OperandsAreTheFields := by
  intro w i h
  have own : encode i = .cmd w := decode_eq_ok_iff.1 h
  cases i <;> cases own
  case init | clear | reload => trivial
  case setIntensity level => exact fun k hk => (getLsbD_cmdOf_v hk).symm
  case setColumn col value | setColumnAll col value =>
    exact fun k hk => ⟨(getLsbD_cmdOf_a hk).symm, (getLsbD_cmdOf_v hk).symm⟩
  case updateBufferAt col row val | setDot col row val =>
    refine ⟨fun k hk => ⟨(getLsbD_cmdOf_a hk).symm, (getLsbD_cmdOf_b hk).symm⟩, ?_⟩
    rw [getLsbD_cmdOf_v (by decide)]
    simp
  case shiftLeft r f | shiftRight r f =>
    constructor
    · rw [getLsbD_cmdOf_b (k := 0) (by decide)]
      simp
    · rw [getLsbD_cmdOf_b (k := 1) (by decide)]
      simp
  case shiftUp r | shiftDown r =>
    rw [getLsbD_cmdOf_b (k := 0) (by decide)]
    simp

/-- Settles O5, by evaluation of the decoder. -/
theorem sampleWordsDecode : Obligations.SampleWordsDecode := by
  unfold Obligations.SampleWordsDecode
  decide

/-- Settles O10: with actions pending the step performs the next one (`step_withInputs`), else a held word is no move
(`hostStep_holds`). -/
theorem wordIsHeldWhileNotReady : Obligations.WordIsHeldWhileNotReady := by
  intro s p rest hi ht
  have no_reset : ∀ strap rest, s.inputs ≠ .reset strap :: rest := by
    rw [hi]
    exact presents_not_reset p rest
  have held : afterWait s.inputs = s.inputs := by rw [hi, afterWait_presents]
  refine ⟨fun hc w => by simp [State.takesWord, State.canAccept, hc], ?_⟩
  by_cases hq : s.queue = []
  · have quiet : step s = .next s := (step_of_queue_nil hq).trans (hostStep_holds hi ht)
    refine ⟨fun t h => ?_, fun t h => ?_⟩
    · cases quiet.symm.trans h
      rfl
    · cases (step_idle (s := { s with inputs := [] }) hq rfl).symm.trans h
      exact quiet
  · refine ⟨fun t h => (step_inputs_of_pending hq no_reset h).trans held, fun t h => ?_⟩
    have same := step_withInputs (s := { s with inputs := [] }) hq (fun _ _ => (List.cons_ne_nil _ _).symm) no_reset h
    rwa [held] at same

/-- Settles O11 (`step_withInputs`). -/
theorem portIsNotLookedAtDuringACommand : Obligations.PortIsNotLookedAtDuringACommand :=
  fun _ _ _ hq hs hms h => step_withInputs hq hs hms h
end

section
/-! PROOFS. The serializer (40_serializer.md): what its two requests send (R70, R71, R72), what its machine emits (R74, R75), and
when `ser_busy` is 1, in a request of its own and in a frame of the broadcaster (41_broadcaster.md R86). -/

namespace Sys2Proof.Machine

/-! ### A request that is not taken -/

/-- At a port that is not free nothing happens (R50, R72). -/
theorem exec_not_taken {i : Instr} {s : State} (hc : s.configured = true) (ht : s.takes i = false) : exec i s = .next s := by
  obtain ⟨t, h⟩ := exec_answers i hc
  rcases exec_next h with ⟨-, rfl⟩ | ⟨htakes, -⟩ | ⟨htakes, -⟩
  · exact h
  all_goals exact absurd htakes (by simp [ht])

/-! ### The requests (R70, R71) -/

/-- A request of the serializer at a free port sends its eight cells and touches no other thing but the data and clock lines. -/
theorem serRequest_completes {s : State} (hc : s.configured = true) (hu : s.undisturbed = true) (hf : s.serTakes = true)
    (o : BitOrder) (v : Byte) :
    ∃ t u, takeRequest s.serTakes (serEvents o v) (fun q => { q with ser := serLoad o v }) 0 s = .next t ∧ PerformedTo t u ∧
      SameSettings s u ∧ u.fault = s.fault ∧ u.buf = s.buf ∧ u.load = s.load ∧ t.queue = pins (serEvents o v) ∧
      u.trace = s.trace ++ serEvents o v ∧ u.data = Level.ofBool (cellBit o v 7) ∧ u.clk = .low := by
  obtain ⟨t, u, ht, hq, hfault, hp, he⟩ := takeRequest_completes (es := serEvents o v)
    (load := fun q => { q with ser := serLoad o v }) (drawn := 0) hc hu hf
  have lines := afterAll_serEvents s.latches o v
  refine ⟨t, u, ht, hp, he.settings, hp.fault.trans hfault, ?_, ?_, hq, ?_, ?_, ?_⟩
  · rw [he.buf, writesOf_pins]
    rfl
  · rw [he.load_eq, eventsOf_pins, lines]
    rfl
  · rw [he.trace, eventsOf_pins]
  · rw [he.data_eq, eventsOf_pins, lines]
  · rw [he.clk_eq, eventsOf_pins, lines]

/-! ### The serializer's machine alone (R74, R75) -/

/-- The serializer and the events it has emitted, after a request in `S_IDLE` and `k` further steps (R75). -/
def serAfter (o : BitOrder) (v : Byte) (r : SerRegs) (k : Nat) : SerRegs × List PinEvent :=
  (List.range k).foldl (fun acc _ => let next := serStep none acc.1; (next.1, acc.2 ++ next.2)) (serStep (some (o, v)) r)

theorem serAfter_zero {r : SerRegs} (hr : r.ph = .idle) (o : BitOrder) (v : Byte) : serAfter o v r 0 = (serLoad o v, []) := by
  simp [serAfter, serStep, serLine, hr]

theorem serAfter_succ (o : BitOrder) (v : Byte) (r : SerRegs) (k : Nat) :
    serAfter o v r (k + 1) =
      ((serStep none (serAfter o v r k).1).1, (serAfter o v r k).2 ++ (serStep none (serAfter o v r k).1).2) := by
  simp [serAfter, List.range_succ]

/-- The byte in the shift register at the start of cell `i` (R75). -/
def shifted (o : BitOrder) (v : Byte) (i : Nat) : Byte :=
  match o with
  | .msbFirst => v <<< i
  | .lsbFirst => v >>> i

/-- The bit that `S_DATA` sends from the shifted byte is that of the cell. -/
theorem serBit_shifted (o : BitOrder) (v : Byte) {i : Nat} (hi : i < 8) (c : BitVec 4) (p : SerPhase) :
    serBit ⟨shifted o v i, o, c, p⟩ = cellBit o v i := by
  cases o with
  | msbFirst =>
    have : ¬ 7 < i := by omega
    simp only [serBit, shifted, cellBit, BitVec.getLsbD_shiftLeft]
    simp [this, -BitVec.getLsbD_eq_getElem]
  | lsbFirst => simp [serBit, shifted, cellBit]

theorem serShift_shifted (o : BitOrder) (v : Byte) (i : Nat) (c : BitVec 4) (p : SerPhase) :
    serShift ⟨shifted o v i, o, c, p⟩ = shifted o v (i + 1) := by
  cases o with
  | msbFirst => exact (BitVec.shiftLeft_add v i 1).symm
  | lsbFirst => exact (BitVec.shiftRight_add v i 1).symm

theorem shifted_eight (o : BitOrder) (v : Byte) : shifted o v 8 = 0 := by
  cases o with
  | msbFirst => exact BitVec.shiftLeft_eq_zero (by decide)
  | lsbFirst => exact BitVec.ushiftRight_eq_zero (by decide)

/-- The serializer at the start of cell `i`; after cell 7 it is idle. -/
def serAtCell (o : BitOrder) (v : Byte) (i : Nat) : SerRegs where
  sr := shifted o v i
  ord := o
  cnt := BitVec.ofNat 4 (8 - i)
  ph := if i < 8 then .data else .idle

/-- The count after cell `i`, and the phase that R74 reads off it. -/
theorem count_after_cell : ∀ i < 8, BitVec.ofNat 4 (8 - i) - 1 = BitVec.ofNat 4 (8 - (i + 1)) ∧
    (if BitVec.ofNat 4 (8 - (i + 1)) = 0 then SerPhase.idle else .data) = if i + 1 < 8 then .data else .idle := by
  decide

/-- Three steps of the machine send a cell (R74). -/
theorem serAfter_cell {o : BitOrder} {v : Byte} {r : SerRegs} {k i : Nat} {es : List PinEvent} (hi : i < 8)
    (h : serAfter o v r k = (serAtCell o v i, es)) :
    serAfter o v r (k + 3) = (serAtCell o v (i + 1), es ++ cell (cellBit o v i)) := by
  obtain ⟨count, phase⟩ := count_after_cell i hi
  simp only [serAfter_succ, h, serStep, serLine, serAtCell, hi, if_true, serBit_shifted o v hi, serShift_shifted, count, phase]
  simp [cell]

/-- The machine at the start of each cell, and the events it has emitted. -/
theorem serAfter_cells {r : SerRegs} (hr : r.ph = .idle) (o : BitOrder) (v : Byte) {i : Nat} (hi : i ≤ 8) :
    serAfter o v r (3 * i) = (serAtCell o v i, (List.range i).flatMap fun j => cell (cellBit o v j)) := by
  induction i with
  | zero =>
    rw [serAfter_zero hr]
    cases o <;> simp [serLoad, serAtCell, shifted]
  | succ i ih =>
    rw [List.range_succ, List.flatMap_append, List.flatMap_singleton]
    exact serAfter_cell hi (ih (by omega))

/-! ### `ser_busy` over the events of a byte (R72, R74) -/

/-- So many events are still to come of the byte in the serializer. -/
def SerRegs.HasLeft (r : SerRegs) (m : Nat) : Prop :=
  match r.ph with
  | .idle => m = 0
  | .data => 0 < m ∧ m = 3 * r.cnt.toNat
  | .high => m + 1 = 3 * r.cnt.toNat
  | .low => m + 2 = 3 * r.cnt.toNat

theorem hasLeft_of_idle {r : SerRegs} (h : r.ph = .idle) : r.HasLeft 0 := by simp [SerRegs.HasLeft, h]

theorem hasLeft_serLoad (o : BitOrder) (v : Byte) : (serLoad o v).HasLeft 24 := ⟨by decide, rfl⟩

/-- `ser_busy` is 1 exactly while events of the byte are still to come. -/
theorem SerRegs.HasLeft.serBusy {r : SerRegs} {m : Nat} (h : r.HasLeft m) : r.serBusy = decide (m ≠ 0) := by
  cases hp : r.ph with
  | idle =>
    simp only [SerRegs.HasLeft, hp] at h
    simp [SerRegs.serBusy, hp, h]
  | data | high | low =>
    simp only [SerRegs.HasLeft, hp] at h
    have : m ≠ 0 := by omega
    simp [SerRegs.serBusy, hp, this]

/-- While events are to come, the serializer's next line makes one of them. -/
theorem SerRegs.HasLeft.serLine {r : SerRegs} {m : Nat} (h : r.HasLeft (m + 1)) :
    ∃ e r', Machine.serLine r = some (e, r') ∧ r'.HasLeft m := by
  cases hp : r.ph with
  | idle => simp [SerRegs.HasLeft, hp] at h
  | data =>
    refine ⟨.d (serBit r), { r with ph := .high }, by simp [Machine.serLine, hp], ?_⟩
    simp only [SerRegs.HasLeft, hp] at h ⊢
    exact h.2
  | high =>
    refine ⟨.c true, { r with ph := .low }, by simp [Machine.serLine, hp], ?_⟩
    simpa only [SerRegs.HasLeft, hp] using h
  | low =>
    refine ⟨.c false, { r with sr := serShift r, cnt := r.cnt - 1, ph := if r.cnt - 1 = 0 then .idle else .data },
      by simp [Machine.serLine, hp], ?_⟩
    simp only [SerRegs.HasLeft, hp] at h ⊢
    have count : (r.cnt - 1).toNat = r.cnt.toNat - 1 := by bv_omega
    by_cases hl : r.cnt - 1 = 0
    · have : (r.cnt - 1).toNat = 0 := by rw [hl]; rfl
      simp only [hl, if_true]
      omega
    · have : (r.cnt - 1).toNat ≠ 0 := fun h0 => hl (BitVec.eq_of_toNat_eq h0)
      simp only [hl, if_false]
      omega

/-! ### The registers along a run of pin events -/

theorem advanceSeq_eq {s : State} {a : Action} {q : SeqRegs}
    (h : seqAdvance s.config s.chainLen s.buf s.draws s.seqRegs = some (a, q)) : s.advanceSeq = q := by
  simp [State.advanceSeq, h]

/-- A step that performs a pin event. -/
theorem step_pin {s : State} {e : PinEvent} {es : List PinEvent} (hu : s.undisturbed = true) (hq : s.queue = pins (e :: es)) :
    step s = .next (s.afterAction (emit e s) (pins es)) :=
  (step_performs hu hq).trans (performNext_pin e (pins es) s)

@[simp] theorem afterAction_draws (s u : State) (rest : List Action) : (s.afterAction u rest).draws = u.draws := rfl
@[simp] theorem afterAction_seqRegs (s u : State) (rest : List Action) : (s.afterAction u rest).seqRegs = s.advanceSeq := rfl

theorem afterAction_undisturbed {s : State} (hu : s.undisturbed = true) (u : State) (rest : List Action) :
    (s.afterAction u rest).undisturbed = true :=
  afterWait_undisturbed hu

/-- What each of `k` pending pin events hands on to the next holds after all of them: `P j` of the registers after `j`. -/
theorem run_pins {s : State} {es : List PinEvent} {k : Nat} {P : Nat → SeqRegs → Prop} (hu : s.undisturbed = true)
    (hq : s.queue = pins es) (hk : k ≤ es.length)
    (advance : ∀ j < k, ∀ q, P j q →
      ∃ a q', seqAdvance s.config s.chainLen s.buf s.draws q = some (a, q') ∧ P (j + 1) q')
    (h0 : P 0 s.seqRegs) : ∃ u, Host.Core.run core k s = .next u ∧ P k u.seqRegs := by
  induction k generalizing s es P with
  | zero => exact ⟨s, rfl, h0⟩
  | succ k ih =>
    cases es with
    | nil => simp at hk
    | cons e es =>
      obtain ⟨a, q, ha, h1⟩ := advance 0 (by omega) s.seqRegs h0
      rw [run_succ (step_pin hu hq)]
      refine ih (P := fun j => P (j + 1)) (afterAction_undisturbed hu _ _) rfl (by simpa using hk) (fun j hj q hq => ?_) ?_
      · simpa using advance (j + 1) (by omega) q hq
      · rwa [afterAction_seqRegs, advanceSeq_eq ha]

/-! ### `ser_busy` over a request of the serializer's own (R72) -/

/-- In `F_IDLE` the next action is the serializer's next event. -/
theorem seqAdvance_idle {cfg : Config} {n : BitVec 4} {buf : Memory} {draws : Nat} {q : SeqRegs} {e : PinEvent} {r : SerRegs}
    (hf : q.bc.fph = .idle) (hl : serLine q.ser = some (e, r)) :
    seqAdvance cfg n buf draws q = some (.pin e, { q with ser := r }) := by
  unfold seqAdvance
  simp only [bcLine, hf, hl]
  cases decodeCommand q.drv.cmdreg <;> simp

/-- The machines of a state in which nothing is pending are idle. -/
theorem State.SeqAgrees.idle {s : State} (h : s.SeqAgrees) (hq : s.queue = []) : s.seqRegs.idle = true := by
  have := h.idleAfter
  rwa [State.unrolled, hq] at this

theorem State.SeqAgrees.bcIdle {s : State} (h : s.SeqAgrees) (hq : s.queue = []) : s.bc.fph = .idle := by
  have idle := h.idle hq
  simp only [SeqRegs.idle, Bool.and_eq_true] at idle
  obtain ⟨⟨-, hbc⟩, -⟩ := idle
  exact of_decide_eq_true hbc

/-- After `k` of the 24 events of a request at the serializer's own port, the broadcaster idle. -/
structure InOwnByte (k : Nat) (q : SeqRegs) : Prop where
  bcIdle : q.bc.fph = .idle
  left : q.ser.HasLeft (24 - k)

theorem InOwnByte.advance {cfg : Config} {n : BitVec 4} {buf : Memory} {draws k : Nat} {q : SeqRegs} (h : InOwnByte k q)
    (hk : k < 24) : ∃ a q', seqAdvance cfg n buf draws q = some (a, q') ∧ InOwnByte (k + 1) q' := by
  obtain ⟨hf, hleft⟩ := h
  rw [show 24 - k = 24 - (k + 1) + 1 by omega] at hleft
  obtain ⟨e, r, hl, hr⟩ := hleft.serLine
  exact ⟨_, _, seqAdvance_idle hf hl, hf, hr⟩

theorem InOwnByte.serBusy {k : Nat} {q : SeqRegs} (h : InOwnByte k q) : q.ser.serBusy = decide (k < 24) := by
  rw [h.left.serBusy]
  congr 1
  rw [eq_iff_iff]
  omega

/-- A request that the serializer's port takes has its 24 events pending, with none of them sent yet. -/
theorem serRequest_loads {s : State} (hc : s.configured = true) (hu : s.undisturbed = true) (hf : s.serTakes = true)
    (hs : s.SeqAgrees) (o : BitOrder) (v : Byte) :
    ∃ t, takeRequest s.serTakes (serEvents o v) (fun q => { q with ser := serLoad o v }) 0 s = .next t ∧
      t.undisturbed = true ∧ t.queue = pins (serEvents o v) ∧ InOwnByte 0 t.seqRegs := by
  obtain ⟨hq, -⟩ := serTakes_iff.1 hf
  exact ⟨_, takeRequest_takes hc hf, hu, rfl, hs.bcIdle hq, hasLeft_serLoad o v⟩

/-- A request at the serializer's port is taken, and `ser_busy` is 1 until the last of its 24 events. -/
theorem serRequest_serBusy {s : State} (hc : s.configured = true) (hu : s.undisturbed = true) (hf : s.serTakes = true)
    (hs : s.SeqAgrees) (o : BitOrder) (v : Byte) :
    ∃ t, takeRequest s.serTakes (serEvents o v) (fun q => { q with ser := serLoad o v }) 0 s = .next t ∧
      ∀ k, k ≤ 24 → ∃ u, Host.Core.run core k t = .next u ∧ u.ser.serBusy = decide (k < 24) := by
  obtain ⟨t, ht, htu, htq, h0⟩ := serRequest_loads hc hu hf hs o v
  refine ⟨t, ht, fun k hk => ?_⟩
  obtain ⟨u, hrun, hbyte⟩ := run_pins htu htq hk (fun j hj q h => h.advance (Nat.lt_of_lt_of_le hj hk)) h0
  exact ⟨u, hrun, hbyte.serBusy⟩

/-! ### `ser_busy` over a frame (R86) -/

/-- After `k` events of the bytes of a frame: how much of the byte is left, and, until the last byte is sent, which byte it is. -/
structure InPairs (n : BitVec 4) (k : Nat) (q : SeqRegs) : Prop where
  left : ∃ m, q.ser.HasLeft m ∧ m < 24 ∧ (k + m) % 24 = 0
  pairs : k < 48 * n.toNat → q.bc.fph = .pairs ∧ 2 * q.bc.pos.toNat + q.bc.half.toNat = k / 24

theorem InPairs.serBusy {n : BitVec 4} {k : Nat} {q : SeqRegs} (h : InPairs n k q) : q.ser.serBusy = decide (k % 24 ≠ 0) := by
  obtain ⟨m, hleft, hm, hk⟩ := h.left
  rw [hleft.serBusy]
  congr 1
  rw [eq_iff_iff]
  omega

/-- The serializer as it sends in `F_PAIRS` has an event of the byte to make: the next one, or the first. -/
theorem bcServe_serLine {buf : Memory} {draws : Nat} {b : BcRegs} {r : SerRegs} {m : Nat} (h : r.HasLeft m) :
    ∃ e r', serLine (bcServe buf draws b r) = some (e, r') ∧ r'.HasLeft (if m = 0 then 23 else m - 1) := by
  cases m with
  | zero =>
    rw [bcServe_free (by simpa [SerRegs.serBusy] using h.serBusy)]
    exact (hasLeft_serLoad _ _).serLine
  | succ m =>
    rw [bcServe_busy (by simpa [SerRegs.serBusy] using h.serBusy)]
    exact h.serLine

/-- After a byte that is not the frame's last, the next byte is sent. -/
theorem bcAfterByte_next {n : BitVec 4} {b : BcRegs} (hf : b.fph = .pairs)
    (hn : 2 * b.pos.toNat + b.half.toNat + 1 < 2 * n.toNat) :
    (bcAfterByte n b).fph = .pairs ∧
      2 * (bcAfterByte n b).pos.toNat + (bcAfterByte n b).half.toNat = 2 * b.pos.toNat + b.half.toNat + 1 := by
  cases hh : b.half with
  | false => simp [bcAfterByte, hh, hf]
  | true =>
    rw [hh] at hn
    simp only [Bool.toNat_true] at hn
    have hlast : b.pos ≠ n - 1 := by bv_omega
    have hpos : (b.pos + 1).toNat = b.pos.toNat + 1 := by bv_omega
    simp only [bcAfterByte, hh, Bool.true_eq_false, if_false, if_neg hlast]
    exact ⟨hf, by simp only [hpos, Bool.toNat_true, Bool.toNat_false]; omega⟩

/-- Each event of the bytes of a frame. -/
theorem InPairs.advance {cfg : Config} {n : BitVec 4} {buf : Memory} {draws k : Nat} {q : SeqRegs} (h : InPairs n k q)
    (hk : k < 48 * n.toNat) : ∃ a q', seqAdvance cfg n buf draws q = some (a, q') ∧ InPairs n (k + 1) q' := by
  obtain ⟨m, hleft, hm, hmod⟩ := h.left
  obtain ⟨hf, hbyte⟩ := h.pairs hk
  obtain ⟨e, r, hl, hr⟩ := bcServe_serLine (buf := buf) (draws := draws) (b := q.bc) hleft
  refine ⟨_, _, seqAdvance_pairs hf hl, ⟨_, hr, by split <;> omega, by split <;> omega⟩, fun hk' => ?_⟩
  by_cases hend : m = 1
  · have free : r.serBusy = false := by simpa [hend] using hr.serBusy
    obtain ⟨hf', hbyte'⟩ := bcAfterByte_next (n := n) hf (by omega)
    simp only [free]
    exact ⟨hf', hbyte'.trans (by omega)⟩
  · have busy : r.serBusy = true := by
      rw [hr.serBusy, decide_eq_true_iff]
      split <;> omega
    simp only [busy, if_true]
    exact ⟨hf, by omega⟩

/-- A frame is about to be opened: its events are pending, and the machines have its request. -/
structure State.OpensFrame (s : State) : Prop where
  undisturbed : s.undisturbed = true
  queue : ∃ ps : List Pair, ps.length = s.chips ∧ s.queue = pins (frameEvents ps)
  serFree : s.ser.ph = .idle
  request : ∃ mode tgt a v, s.bc = bcLoad mode tgt a v

/-- Every request of the broadcaster that is taken opens a frame (R82, R84, R85). -/
theorem exec_bc_opensFrame {i : Instr} {w : BcWord} {s : State} (hw : encode i = .bc w) (hs : s.ReadyFor i) :
    ∃ t, exec i s = .next t ∧ t.OpensFrame := by
  have opens {ps : List Pair} {mode : PairMode} {tgt : BitVec 4} {a v : Byte} {drawn : Nat} (ht : s.bcTakes = true)
      (hps : ps.length = s.chips) :
      ∃ t, takeRequest s.bcTakes (frameEvents ps) (fun q => { q with bc := bcLoad mode tgt a v }) drawn s = .next t ∧
        t.OpensFrame := by
    obtain ⟨-, hser, -⟩ := bcTakes_iff.1 ht
    exact ⟨_, takeRequest_takes hs.inv.configured ht, hs.undisturbed, ⟨ps, hps, rfl⟩, hser, ⟨mode, tgt, a, v, rfl⟩⟩
  cases i <;> cases hw
  case bcSame a v => exact opens hs.takes (length_samePairs _ _ _)
  case bcAddr n a v => exact opens hs.takes (length_addressedPairs _ _ _ _)
  case bcBuf a => exact opens hs.takes (length_bufferPairs _ _ _ _)

/-- The event that opens a frame; nothing of the first byte is sent yet. -/
theorem State.OpensFrame.advance {s : State} (h : s.OpensFrame) :
    ∃ a q, seqAdvance s.config s.chainLen s.buf s.draws s.seqRegs = some (a, q) ∧ InPairs s.chainLen 0 q := by
  obtain ⟨mode, tgt, a, v, hbc⟩ := h.request
  refine ⟨.pin (.l false), { s.seqRegs with bc := { s.bc with fph := .pairs } }, ?_,
    ⟨0, hasLeft_of_idle h.serFree, by decide, rfl⟩, fun _ => ⟨rfl, by simp [hbc, bcLoad]⟩⟩
  unfold seqAdvance
  simp only [bcLine, State.seqRegs, hbc, bcLoad]
  cases decodeCommand s.drv.cmdreg <;> simp

/-- In a frame `ser_busy` is 1 exactly inside a byte. -/
theorem State.OpensFrame.run_serBusy {s : State} (h : s.OpensFrame) {k : Nat} (hk : k ≤ 48 * s.chips) :
    ∃ u, Host.Core.run core (k + 1) s = .next u ∧ u.ser.serBusy = decide (k % 24 ≠ 0) := by
  obtain ⟨ps, hps, hq⟩ := h.queue
  obtain ⟨a, q, ha, h0⟩ := h.advance
  have long : k ≤ (ps.flatMap pairEvents ++ [PinEvent.l false, PinEvent.l true]).length := by
    rw [List.length_append, length_pairsEvents, hps]
    omega
  rw [run_succ (step_pin h.undisturbed hq)]
  obtain ⟨u, hrun, hu⟩ := run_pins (s := s.afterAction (emit (.l false) s) _) (P := InPairs s.chainLen)
    (afterAction_undisturbed h.undisturbed _ _) (afterAction_queue _ _ _) long
    (fun j hj q hq => hq.advance (Nat.lt_of_lt_of_le hj hk))
    (by rwa [afterAction_seqRegs, advanceSeq_eq ha])
  exact ⟨u, hrun, hu.serBusy⟩

end Sys2Proof.Machine

open Sys2Proof Sys2Proof.Machine

/-- Settles O28: the request of either order is taken and performed whole (`serRequest_completes`). -/
theorem serializerRequestsSendEightCells : Obligations.SerializerRequestsSendEightCells := by
  intro s v hs
  have completes := serRequest_completes hs.inv.configured hs.undisturbed hs.takes
  refine ⟨decode_encode (.serMsb v), decode_encode (.serLsb v), ?_, ?_⟩
  · obtain ⟨t, u, ht, hp, hset, hfault, hbuf, hload, hq, htrace, hdata, hclk⟩ := completes .msbFirst v
    exact ⟨t, u, _, ht, hp, hset, hfault, hbuf, hload, rfl, hq, htrace, hdata, hclk⟩
  · obtain ⟨t, u, ht, hp, hset, hfault, hbuf, hload, hq, htrace, hdata, hclk⟩ := completes .lsbFirst v
    exact ⟨t, u, _, ht, hp, hset, hfault, hbuf, hload, rfl, hq, htrace, hdata, hclk⟩

/-- Settles O33, cell by cell (`serAfter_cells`). -/
theorem serializerMachineEmitsSer : Obligations.SerializerMachineEmitsSer := by
  intro o v r hr after
  have atCell {i : Nat} (hi : i ≤ 8) :
      after (3 * i) = (serAtCell o v i, (List.range i).flatMap fun j => cell (cellBit o v j)) :=
    serAfter_cells hr o v hi
  rw [show after 24 = (serAtCell o v 8, serEvents o v) from atCell (Nat.le_refl 8)]
  refine ⟨rfl, rfl, shifted_eight o v, rfl, fun i hi => ?_⟩
  rw [atCell hi.le]
  exact ⟨if_pos hi, by cases o <;> rfl⟩

/-- Settles O53: the events to come of a byte are counted down in the serializer's registers (`SerRegs.HasLeft`), over a request
of its own (`serRequest_serBusy`) and byte after byte of a frame (`InPairs.advance`). -/
theorem serBusyFollowsTheTransfer : Obligations.SerBusyFollowsTheTransfer := by
  refine fun s => ⟨fun i _ hc ht => exec_not_taken hc ht, fun i v hi hs hagrees => ?_, fun i w hw hs _ => ?_⟩
  · rcases hi with rfl | rfl
    · exact serRequest_serBusy hs.inv.configured hs.undisturbed hs.takes hagrees .msbFirst v
    · exact serRequest_serBusy hs.inv.configured hs.undisturbed hs.takes hagrees .lsbFirst v
  · obtain ⟨t, ht, hopens⟩ := exec_bc_opensFrame hw hs
    have chips : t.chips = s.chips := congrArg BitVec.toNat (exec_sameOutputs ht).chainLen
    refine ⟨t, ht, by simp [SerRegs.serBusy, hopens.serFree], fun k hk => hopens.run_serBusy ?_⟩
    rwa [chips]
end

section
/-! PROOFS. The broadcaster (41_broadcaster.md): what its three requests send (R82, R84, R85), how a frame drives the three lines
(R81, R87), and what its machine over the serializer's emits (R86). -/

namespace Sys2Proof.Machine

/-! ### The requests (R82, R84, R85) -/

theorem exec_bcSame (a v : Byte) (s : State) : exec (.bcSame a v) s =
    takeRequest s.bcTakes (frameEvents (samePairs s.chips a v)) (fun q => { q with bc := bcLoad .same 0 a v }) 0 s := rfl

theorem exec_bcAddr (n : BitVec 4) (a v : Byte) (s : State) : exec (.bcAddr n a v) s =
    takeRequest s.bcTakes (frameEvents (addressedPairs s.chips n.toNat a v)) (fun q => { q with bc := bcLoad .addressed n a v }) 0 s :=
  rfl

theorem exec_bcBuf (a : Byte) (s : State) : exec (.bcBuf a) s =
    takeRequest s.bcTakes (frameEvents (bufferPairs s.chips s.buf s.draws a)) (fun q => { q with bc := bcLoad .buffer 0 a 0 })
      (columnDraws a) s := rfl

/-- A configured chain has a chip, so a list of one pair for each chip has a pair. -/
theorem pairs_ne_nil {s : State} {ps : List Pair} (hc : s.configured = true) (hps : ps.length = s.chips) : ps ≠ [] := by
  obtain ⟨hn, -⟩ := configured_iff.1 hc
  exact List.ne_nil_of_length_pos (by omega)

/-- An instruction that is the request for a frame of one pair for each chip sends that frame from a free port, and leaves the
framebuffer and the fault code alone. -/
theorem frameRequest_completes {i : Instr} {s : State} {ps : List Pair} {load : SeqRegs → SeqRegs} {drawn : Nat}
    (hs : s.ReadyFor i) (hi : exec i s = takeRequest (s.takes i) (frameEvents ps) load drawn s) (hps : ps.length = s.chips) :
    ∃ t u, exec i s = .next t ∧ PerformedTo t u ∧ SameSettings s u ∧
      u.fault = s.fault ∧ u.buf = s.buf ∧ t.queue = pins (frameEvents ps) ∧ u.trace = s.trace ++ frameEvents ps ∧
      u.load = .high ∧ u.clk = .low := by
  obtain ⟨t, u, ht, hq, hfault, hp, he⟩ := takeRequest_completes (es := frameEvents ps) (load := load) (drawn := drawn)
    hs.inv.configured hs.undisturbed hs.takes
  refine ⟨t, u, hi.trans ht, hp, he.settings, hp.fault.trans hfault, ?_, hq, ?_, ?_, ?_⟩
  · rw [he.buf, writesOf_pins, Memory.writeAll_nil]
  · rw [he.trace, eventsOf_pins]
  · rw [he.load_eq, eventsOf_pins, afterAll_frameEvents_load]
  · rw [he.clk_eq, eventsOf_pins, afterAll_frameEvents_clk _ _ (pairs_ne_nil hs.inv.configured hps)]

/-- For the address byte of a local column the value bytes are those of the framebuffer (R85). -/
theorem columnByte_of_column {a : Byte} {k : Nat} (hk : k < 8) (ha : a.toNat = k + 1) (buf : Memory) (draw i : Nat) :
    columnByte buf draw a i = Memory.read buf (i * 8 + k) := by
  rw [columnByte, if_pos (by omega), ha, Nat.add_sub_cancel]

/-! ### A frame as bit cells (R61, R87) -/

/-- The events of a pair are the cells of its bits. -/
theorem pairEvents_eq_cells (p : Pair) : pairEvents p = (pairBits p).flatMap cell := rfl

theorem pairsEvents_eq_cells (ps : List Pair) : ps.flatMap pairEvents = (ps.flatMap pairBits).flatMap cell :=
  (List.flatMap_assoc (f := pairBits) (g := cell)).symm

theorem length_pairsBits (ps : List Pair) : (ps.flatMap pairBits).length = 16 * ps.length := by
  induction ps with
  | nil => rfl
  | cons p ps ih => simp [pairBits, ih]; omega

theorem load_not_mem_cells (bits : List Bool) (b : Bool) : PinEvent.l b ∉ bits.flatMap cell := by
  simp [cell]

/-- The clock events of cells alternate, rising first (R87 (b)). -/
theorem clock_of_cells (bits : List Bool) :
    (bits.flatMap cell).filter (fun e => decide (e = PinEvent.c true ∨ e = PinEvent.c false)) =
      (List.replicate bits.length ([.c true, .c false] : List PinEvent)).flatten := by
  induction bits with
  | nil => rfl
  | cons b bits ih =>
    rw [List.flatMap_cons, List.filter_append, ih]
    rfl

/-- In cells the clock rises between a data event and its fall (R87 (c)). -/
theorem rising_in_cells {bits : List Bool} {k : Nat} (h : (bits.flatMap cell)[k + 1]? = some (.c true)) :
    (∃ b, (bits.flatMap cell)[k]? = some (.d b)) ∧ (bits.flatMap cell)[k + 2]? = some (.c false) := by
  induction bits generalizing k with
  | nil => cases h
  | cons b bits ih =>
    match k with
    | 0 => exact ⟨⟨b, rfl⟩, rfl⟩
    | 1 => cases h
    | 2 => cases bits <;> cases h
    | k + 3 => exact ih h

/-! ### Events the reference machines make -/

/-- From the registers `q` the machines make the pin events `es` and are then in `q'`, the framebuffer as it was. -/
def Emits (cfg : Config) (n : BitVec 4) (draws : Nat) (buf : Memory) (q : SeqRegs) (es : List PinEvent) (q' : SeqRegs) : Prop :=
  ∀ fuel, seqUnroll cfg n draws (fuel + es.length) buf q =
    (pins es ++ (seqUnroll cfg n draws fuel buf q').1, (seqUnroll cfg n draws fuel buf q').2)

section
variable {cfg : Config} {n : BitVec 4} {draws : Nat} {buf : Memory}

theorem Emits.refl (q : SeqRegs) : Emits cfg n draws buf q [] q := fun _ => rfl

theorem Emits.trans {q q' q'' : SeqRegs} {es es' : List PinEvent} (h : Emits cfg n draws buf q es q')
    (h' : Emits cfg n draws buf q' es' q'') : Emits cfg n draws buf q (es ++ es') q'' := by
  intro fuel
  rw [List.length_append, Nat.add_comm es.length, ← Nat.add_assoc, h, h']
  simp [pins]

/-- One action that is a pin event. -/
theorem Emits.of_seqAdvance {q q' : SeqRegs} {e : PinEvent} (h : seqAdvance cfg n buf draws q = some (.pin e, q')) :
    Emits cfg n draws buf q [e] q' := by
  intro fuel
  simp only [List.length_singleton, seqUnroll, h, bufAfter]
  rfl

/-- An event of the broadcaster that does not end the frame leaves the driver alone. -/
theorem Emits.of_bcLine {q : SeqRegs} {e : PinEvent} {b : BcRegs} {r : SerRegs} (hl : bcLine n buf draws q.bc q.ser = some (e, b, r))
    (hf : q.bc.fph ≠ .closeHigh) : Emits cfg n draws buf q [e] { q with bc := b, ser := r } := by
  apply Emits.of_seqAdvance
  unfold seqAdvance
  cases decodeCommand q.drv.cmdreg <;> simp [hl, hf]

/-- The event that ends the frame, with the driver idle. -/
theorem Emits.endOfFrame {r : SerRegs} {b : BcRegs} {d : DrvRegs} (hf : b.fph = .closeHigh) (hd : d.cmdreg = 0) :
    Emits cfg n draws buf ⟨r, b, d⟩ [.l true] ⟨r, { b with fph := .idle }, d⟩ := by
  apply Emits.of_seqAdvance
  have undriven : decodeCommand d.cmdreg = .error .undefinedOp := by rw [hd]; decide
  simp [seqAdvance, bcLine, hf, undriven]

/-- One byte of a frame (R75, R86). -/
theorem Emits.byte {r : SerRegs} {b : BcRegs} {d : DrvRegs} (hf : b.fph = .pairs) (hr : r.ph = .idle) :
    Emits cfg n draws buf ⟨r, b, d⟩ (serEvents .msbFirst (bcSelect buf draws b)) ⟨SerRegs.reset, bcAfterByte n b, d⟩ :=
  fun _ => seqUnroll_byte hf hr

/-! ### The pairs of a frame (R86) -/

/-- The broadcaster before the pair at position `i`, its request as loaded in `b`; past the last pair it closes the frame. -/
def bcAtPair (n : BitVec 4) (b : BcRegs) (i : Nat) : BcRegs :=
  { b with pos := BitVec.ofNat 4 i, half := false, fph := if i < n.toNat then .pairs else .closeLow }

/-- The pair that `Select` gives at position `i`: its address byte, then its value byte. -/
def bcPairAt (buf : Memory) (draws : Nat) (b : BcRegs) (i : Nat) : Pair :=
  (bcSelect buf draws { b with pos := BitVec.ofNat 4 i, half := false },
    bcSelect buf draws { b with pos := BitVec.ofNat 4 i, half := true })

/-- After its value byte the broadcaster goes on to the next pair. -/
theorem bcAfterByte_value (b : BcRegs) {i : Nat} (hi : i < n.toNat) :
    bcAfterByte n { bcAtPair n b i with half := true } = bcAtPair n b (i + 1) := by
  have last : BitVec.ofNat 4 i = n - 1#4 ↔ ¬ i + 1 < n.toNat := by bv_omega
  have pos : BitVec.ofNat 4 i + 1#4 = BitVec.ofNat 4 (i + 1) := by bv_omega
  by_cases h : i + 1 < n.toNat <;> simp [bcAfterByte, bcAtPair, last, pos, hi, h]

/-- One pair of a frame: its address byte, then its value byte. -/
theorem Emits.pair {r : SerRegs} {d : DrvRegs} (b : BcRegs) {i : Nat} (hi : i < n.toNat) (hr : r.ph = .idle) :
    Emits cfg n draws buf ⟨r, bcAtPair n b i, d⟩ (pairEvents (bcPairAt buf draws b i))
      ⟨SerRegs.reset, bcAtPair n b (i + 1), d⟩ := by
  have inPairs : (bcAtPair n b i).fph = .pairs := if_pos hi
  have value : Emits cfg n draws buf ⟨SerRegs.reset, { bcAtPair n b i with half := true }, d⟩ _ _ := Emits.byte inPairs rfl
  rw [bcAfterByte_value b hi] at value
  exact (Emits.byte inPairs hr).trans value

/-- The first `i` pairs of a frame. -/
theorem Emits.pairs {r : SerRegs} {d : DrvRegs} (b : BcRegs) {i : Nat} (hi : i ≤ n.toNat) (hr : r.ph = .idle) :
    ∃ r', r'.ph = .idle ∧ Emits cfg n draws buf ⟨r, bcAtPair n b 0, d⟩
      (((List.range i).map (bcPairAt buf draws b)).flatMap pairEvents) ⟨r', bcAtPair n b i, d⟩ := by
  induction i with
  | zero => exact ⟨r, hr, Emits.refl _⟩
  | succ i ih =>
    obtain ⟨r', hr', sent⟩ := ih (by omega)
    rw [List.range_succ, List.map_append, List.flatMap_append]
    refine ⟨SerRegs.reset, rfl, sent.trans ?_⟩
    simpa using Emits.pair b hi hr'

/-- A frame from its request up to the event that ends it, whatever the driver is doing. -/
theorem Emits.untilEndOfFrame {r : SerRegs} {d : DrvRegs} (mode : PairMode) (tgt : BitVec 4) (a v : Byte) (hn : 1 ≤ n.toNat)
    (hr : r.ph = .idle) :
    ∃ r' b', r'.ph = .idle ∧ b'.fph = .closeHigh ∧ Emits cfg n draws buf ⟨r, bcLoad mode tgt a v, d⟩
      (.l false :: (((List.range n.toNat).map (bcPairAt buf draws (bcLoad mode tgt a v))).flatMap pairEvents ++ [.l false]))
      ⟨r', b', d⟩ := by
  let b := bcLoad mode tgt a v
  have opens : Emits cfg n draws buf ⟨r, b, d⟩ [.l false] ⟨r, bcAtPair n b 0, d⟩ := by
    rw [bcAtPair, if_pos (Nat.lt_of_succ_le hn)]
    exact Emits.of_bcLine rfl nofun
  obtain ⟨r', hr', sent⟩ := Emits.pairs (cfg := cfg) (draws := draws) (buf := buf) (d := d) b (Nat.le_refl n.toNat) hr
  have past : (bcAtPair n b n.toNat).fph = .closeLow := if_neg (Nat.lt_irrefl _)
  have closes : Emits cfg n draws buf ⟨r', bcAtPair n b n.toNat, d⟩ [.l false]
      ⟨r', { bcAtPair n b n.toNat with fph := .closeHigh }, d⟩ :=
    Emits.of_bcLine (by simp [bcLine, past]) (by simp [past])
  exact ⟨r', _, hr', rfl, opens.trans (sent.trans closes)⟩

/-- With the driver idle, the machines loaded with a request make the frame of the pairs that `Select` gives, and are idle. -/
theorem seqUnroll_frame {q : SeqRegs} (hq : q.idle = true) (hn : 1 ≤ n.toNat) (mode : PairMode) (tgt : BitVec 4) (a v : Byte) :
    (seqUnroll cfg n draws (3 + 48 * n.toNat) buf { q with bc := bcLoad mode tgt a v }).1 =
      pins (frameEvents ((List.range n.toNat).map (bcPairAt buf draws (bcLoad mode tgt a v)))) ∧
    (seqUnroll cfg n draws (3 + 48 * n.toNat) buf { q with bc := bcLoad mode tgt a v }).2.idle = true := by
  obtain ⟨⟨hser, -⟩, hdrv⟩ : (q.ser.ph = .idle ∧ q.bc.fph = .idle) ∧ q.drv.cmdreg = 0 := by simpa [SeqRegs.idle] using hq
  obtain ⟨r, b, hr, hb, sent⟩ := Emits.untilEndOfFrame (cfg := cfg) (draws := draws) (buf := buf) (d := q.drv) mode tgt a v hn hser
  have frame := (sent.trans (Emits.endOfFrame hb hdrv)) 0
  generalize hps : (List.range n.toNat).map (bcPairAt buf draws (bcLoad mode tgt a v)) = ps at frame ⊢
  have hlen : ps.length = n.toNat := by simp [← hps]
  have events : .l false :: (ps.flatMap pairEvents ++ [.l false]) ++ [.l true] = frameEvents ps := by simp [frameEvents]
  rw [events, length_frameEvents, hlen, Nat.zero_add] at frame
  rw [frame]
  simp [seqUnroll, SeqRegs.idle, hr, hdrv]

end

/-! ### The pairs that `Select` gives (R82, R84, R85) -/

theorem bcPairAt_same (buf : Memory) (draws : Nat) (a v : Byte) (n : Nat) :
    (List.range n).map (bcPairAt buf draws (bcLoad .same 0 a v)) = samePairs n a v := by
  have every : bcPairAt buf draws (bcLoad .same 0 a v) = fun _ => (a, v) := rfl
  rw [every, List.map_const', List.length_range, samePairs]

theorem bcPairAt_addressed (buf : Memory) (draws : Nat) (t : BitVec 4) (a v : Byte) (n : Nat) (hn : n ≤ 10) :
    (List.range n).map (bcPairAt buf draws (bcLoad .addressed t a v)) = addressedPairs n t.toNat a v := by
  refine List.map_congr_left fun i hi => ?_
  have target : BitVec.ofNat 4 i = t ↔ i = t.toNat := by
    have := List.mem_range.1 hi
    bv_omega
  by_cases h : i = t.toNat <;> simp [bcPairAt, bcSelect, bcLoad, target, h]

theorem bcPairAt_buffer (buf : Memory) (draws : Nat) (a : Byte) (n : Nat) (hn : n ≤ 10) :
    (List.range n).map (bcPairAt buf draws (bcLoad .buffer 0 a 0)) = bufferPairs n buf (draws - 1) a := by
  refine List.map_congr_left fun i hi => ?_
  have pos : (BitVec.ofNat 4 i).toNat = i := by
    have := List.mem_range.1 hi
    bv_omega
  simp only [bcPairAt, bcSelect, bcLoad, pos]
  rfl

end Sys2Proof.Machine

open Sys2Proof Sys2Proof.Machine

/-- Settles O29: the request is taken and its frame performed whole (`frameRequest_completes`). -/
theorem bcSameSendsOnePairToEveryChip : Obligations.BcSameSendsOnePairToEveryChip := fun _ a v hs =>
  ⟨decode_encode (.bcSame a v), frameRequest_completes hs (exec_bcSame a v _) (length_samePairs _ a v)⟩

/-- Settles O30: as O29, with the pairs of R84 (`addressedPairs_at`). -/
theorem bcAddrSendsOnePairToOneChip : Obligations.BcAddrSendsOnePairToOneChip := by
  intro s n a v hs
  obtain ⟨t, u, ht, hp, hset, hfault, hbuf, hq, htrace, hend⟩ :=
    frameRequest_completes hs (exec_bcAddr n a v s) (length_addressedPairs s.chips n.toNat a v)
  refine ⟨decode_encode (.bcAddr n a v), t, u, ht, hp, hset, hfault, hbuf,
    ⟨_, length_addressedPairs _ _ _ _, hq, htrace, fun i hi => ?_⟩, hend⟩
  rw [addressedPairs_at, if_pos hi]

/-- Settles O31: as O29, with the pairs of R85, their value bytes read from the framebuffer (`columnByte_of_column`). -/
theorem bcBufSendsOneColumnOfTheBuffer : Obligations.BcBufSendsOneColumnOfTheBuffer := by
  intro s a hs
  obtain ⟨t, u, ht, hp, hset, hfault, hbuf, hq, htrace, hend⟩ :=
    frameRequest_completes hs (exec_bcBuf a s) (length_bufferPairs s.chips s.buf s.draws a)
  have pairs : bufferPairs s.chips s.buf s.draws a =
      ((List.range s.chips).map (columnByte s.buf s.draws a)).map fun v => (a, v) := by
    rw [List.map_map]
    rfl
  rw [pairs] at hq htrace
  refine ⟨decode_encode (.bcBuf a), t, u, ht, hp, hset, hfault, hbuf, ⟨_, by simp, hq, htrace, fun k hk ha i hi => ?_⟩, hend⟩
  simp [hi, columnByte_of_column hk ha]

/-- Settles O32: between the load events the frame is bit cells, whose clock rises after a data event and then falls
(`clock_of_cells`, `rising_in_cells`). -/
theorem frameDiscipline : Obligations.FrameDiscipline := by
  intro ps w hne
  refine ⟨length_frameEvents ps, ⟨(ps.flatMap pairBits).flatMap cell, ?_, load_not_mem_cells _, ?_, ?_, fun _ => rising_in_cells⟩,
    afterAll_frameEvents_load w ps, afterAll_frameEvents_clk w ps hne, afterAll_frameEvents_data w ps⟩
  · rw [← pairsEvents_eq_cells]
    rfl
  · obtain ⟨p, ps, rfl⟩ := List.exists_cons_of_ne_nil hne
    exact ⟨p.1.getLsbD 7, rfl⟩
  · rw [clock_of_cells, length_pairsBits]

/-- Settles O34: the machines make the frame of the pairs that `Select` gives (`seqUnroll_frame`), which are those of R82, R84 and
R85. -/
theorem broadcasterMachineEmitsTheFrame : Obligations.BroadcasterMachineEmitsTheFrame := by
  intro cfg n draws buf q t a v hn hn' hq emits
  have frame (mode : PairMode) (tgt : BitVec 4) (a v : Byte) :
      emits (bcLoad mode tgt a v) ((List.range n.toNat).map (bcPairAt buf draws (bcLoad mode tgt a v))) :=
    seqUnroll_frame hq hn mode tgt a v
  refine ⟨?_, ?_, fun k hk => ?_⟩
  · rw [← bcPairAt_same buf draws]
    exact frame _ _ _ _
  · rw [← bcPairAt_addressed buf draws t a v n.toNat hn']
    exact frame _ _ _ _
  · have column := frame .buffer 0 (regAddr k) 0
    simp only [bcPairAt_buffer buf draws _ n.toNat hn', bufferPairs, columnByte_of_column hk (regAddr_toNat hk)] at column
    exact column
end

section
/-! PROOFS. The pixel and column commands and `CLEAR` (42_buffer_ops.md R90 to R96): what each writes to the framebuffer, what it
sends, and the ready block it leaves. -/

namespace Sys2Proof.Machine

/-! ### Encoding, operand ranges and acceptance -/

theorem bitByte_eq_inBit0 (b : Bool) : bitByte b = inBit0 b := by cases b <;> rfl

theorem columnInRange_iff {n : Nat} {col : Byte} : columnInRange n col = true ↔ col.toNat < 8 * n := decide_eq_true_iff

theorem localColumnInRange_iff {col : Byte} : localColumnInRange col = true ↔ col.toNat < 8 := decide_eq_true_iff

theorem pixelInRange_iff {n : Nat} {col row : Byte} : pixelInRange n col row = true ↔ col.toNat < 8 * n ∧ row.toNat < 8 := by
  rw [pixelInRange, Bool.and_eq_true, columnInRange_iff, decide_eq_true_iff]

/-- A ready block answers a command with operands out of range by the fault, which is then all that changes (R120). -/
theorem State.Ready.faults {s : State} (hs : s.Ready) {i : Instr} {inRange : Bool} {q : List Action} (hr : ¬ inRange = true) :
    acceptCommand i inRange q s = .next { s with fault := .operandRange } :=
  acceptCommand_faults hs.inv.configured hs.accepts (Bool.eq_false_of_not_eq_true hr)

/-- A ready block performs the whole of an action list that settles, and is ready again. -/
theorem State.Ready.performs {s : State} (hs : s.Ready) {i : Instr} {inRange : Bool} {q : List Action} (hr : inRange = true)
    (hq : Settles q) :
    ∃ t u, acceptCommand i inRange q s = .next t ∧ t.queue = q ∧ CompletesTo t u ∧ EndsWith s q u ∧ u.Ready := by
  have writesInRange : ((writesOf q).all fun w => decide (w.1 < bufLen)) = true := by simpa using hq.inRange
  have nothingPending : s.queue = [] := (canAccept_iff.1 hs.accepts).2.2
  have clock : s.latches.clk ≠ .high := by simpa [nothingPending] using hs.inv.clockSettles
  have load : s.latches.load ≠ .low := by simpa [nothingPending] using hs.inv.loadSettles
  obtain ⟨t, u, ht, htq, hc, he⟩ := acceptCommand_completes (i := i) hs hr writesInRange
  exact ⟨t, u, ht, htq, hc, he, ready_of_ends hs hc he writesInRange (hq.clock _ clock) (hq.load _ load)⟩

theorem SameSettings.chips {s u : State} (h : SameSettings s u) : u.chips = s.chips := congrArg BitVec.toNat h.chainLen

/-! ### One byte stored, then sent (R90 to R93) -/

/-- The command accepted in `s` with the pending actions of `t` has stored `v` at `col` and then made the events `es`, and ends in
the ready state `u`. -/
structure StoresAndSends (s : State) (col v : Byte) (es : List PinEvent) (t u : State) : Prop where
  completes : CompletesTo t u
  settings : SameSettings s u
  read : ∀ j, Memory.read u.buf j = if j = col.toNat then v else Memory.read s.buf j
  queue : t.queue = .wr col.toNat v :: pins es
  trace : u.trace = s.trace ++ es
  latches : u.latches = s.latches.afterAll es
  ready : u.Ready

theorem State.Ready.storesAndSends {s : State} (hs : s.Ready) {i : Instr} {inRange : Bool} {col : Byte} (v : Byte)
    {es : List PinEvent} (hr : inRange = true) (hc : columnInRange s.chips col = true) (hes : Settles (pins es)) :
    ∃ t u, acceptCommand i inRange (writes [(col.toNat, v)] ++ pins es) s = .next t ∧ StoresAndSends s col v es t u := by
  obtain ⟨t, u, ht, hq, hdone, he, hready⟩ :=
    hs.performs (i := i) hr ((settles_columnWrite v (chips_bounds hs).2 hc).append hes)
  refine ⟨t, u, ht, hdone, he.settings, fun j => ?_, hq, by simpa using he.trace, by simpa using he.latches, hready⟩
  have stored : u.buf = Memory.write s.buf col.toNat v := by simpa using he.buf
  rw [stored, Memory.read_write hs.inv.bufWf]

namespace StoresAndSends

section
variable {s t u : State} {col v : Byte} {es : List PinEvent}

theorem read_column (h : StoresAndSends s col v es t u) : Memory.read u.buf col.toNat = v := by rw [h.read, if_pos rfl]

theorem load (h : StoresAndSends s col v es t u) : u.load = (s.latches.afterAll es).load := congrArg Levels.load h.latches

theorem clk (h : StoresAndSends s col v es t u) : u.clk = (s.latches.afterAll es).clk := congrArg Levels.clk h.latches

end

/-- The byte of a pixel command differs from the old one at the pixel alone (R91). -/
theorem bit {s t u : State} {col row : Byte} {val : Bool} {es : List PinEvent}
    (h : StoresAndSends s col (pixelByte s col row val) es t u) (j r : Nat) (hr : r < 8) :
    (Memory.read u.buf j).getLsbD r = if j = col.toNat ∧ r = row.toNat then val else (Memory.read s.buf j).getLsbD r := by
  rw [h.read]
  by_cases hj : j = col.toNat
  · simp [hj, pixelByte, updatedByte_bit _ _ _ r hr]
  · simp [hj]

end StoresAndSends

/-! ### The commands for one pixel or one column -/

section
variable {s : State} {col row : Byte}

theorem columnFrame_settles (hs : s.Ready) (col v : Byte) : Settles (pins (columnFrame s.chips col v)) :=
  settles_frame (addressedPairs_ne (chips_bounds hs).1)

/-- The lines after an addressed column write (R84, R87 (d)). -/
theorem columnFrame_lines (hs : s.Ready) (w : Levels) (col v : Byte) :
    (w.afterAll (columnFrame s.chips col v)).load = .high ∧ (w.afterAll (columnFrame s.chips col v)).clk = .low :=
  ⟨afterAll_frameEvents_load _ _, afterAll_frameEvents_clk _ _ (addressedPairs_ne (chips_bounds hs).1)⟩

theorem updateBufferAt_completes (hs : s.Ready) (hr : pixelInRange s.chips col row = true) (val : Bool) :
    ∃ t u, exec (.updateBufferAt col row val) s = .next t ∧ StoresAndSends s col (pixelByte s col row val) [] t u :=
  hs.storesAndSends _ (es := []) hr (columnInRange_of_pixelInRange hr) (settles_writes (ws := []) nofun)

theorem setDot_completes (hs : s.Ready) (hr : pixelInRange s.chips col row = true) (val : Bool) :
    ∃ t u, exec (.setDot col row val) s = .next t ∧
      StoresAndSends s col (pixelByte s col row val) (columnFrame s.chips col (pixelByte s col row val)) t u :=
  hs.storesAndSends _ hr (columnInRange_of_pixelInRange hr) (columnFrame_settles hs col _)

theorem setColumn_completes (hs : s.Ready) (hr : columnInRange s.chips col = true) (v : Byte) :
    ∃ t u, exec (.setColumn col v) s = .next t ∧ StoresAndSends s col v (columnFrame s.chips col v) t u :=
  hs.storesAndSends v hr hr (columnFrame_settles hs col v)

/-- A later update of a bit overrides an earlier one. -/
theorem updatedByte_updatedByte (b row : Byte) (v v' : Bool) :
    updatedByte (updatedByte b row v) row v' = updatedByte b row v' := by
  refine BitVec.eq_of_getLsbD_eq fun r hr => ?_
  simp only [updatedByte_bit _ _ _ r hr]
  split <;> rfl

/-- Giving a bit the value that it has changes nothing. -/
theorem updatedByte_eq_self (b row : Byte) : updatedByte b row (b.getLsbD row.toNat) = b := by
  refine BitVec.eq_of_getLsbD_eq fun r hr => ?_
  rw [updatedByte_bit _ _ _ r hr]
  split
  · next h => rw [h]
  · rfl

/-- After `SET_DOT` on and then off the byte is the old one with the bit cleared (R96 (a)). -/
theorem setDot_on_off (hs : s.Ready) (hr : pixelInRange s.chips col row = true) :
    ∃ u, RunsTo [.setDot col row true, .setDot col row false] s u ∧
      Memory.read u.buf col.toNat = updatedByte (Memory.read s.buf col.toNat) row false := by
  obtain ⟨t, v, ht, on⟩ := setDot_completes hs hr true
  obtain ⟨t', u, ht', off⟩ := setDot_completes on.ready (on.settings.chips.symm ▸ hr) false
  refine ⟨u, ⟨t, v, ht, on.completes, t', u, ht', off.completes, rfl⟩, ?_⟩
  rw [off.read_column, pixelByte, on.read_column, pixelByte, updatedByte_updatedByte]

end

/-! ### `SET_COLUMN_ALL` (R94) -/

section
variable {rule : ColumnAllIndexing} {n : Nat} {col v : Byte} {m : Memory}

theorem columnAllWrites_lt (hn : n ≤ 10) (hc : localColumnInRange col = true) : ∀ w ∈ columnAllWrites rule n col v, w.1 < 80 := by
  simpa using (settles_columnAllWrites rule v hn hc).inRange

/-- An index that the rule names holds the value, however often it is named: under `legacy_product` column 0 names index 0 for
every position. -/
theorem read_columnAllWrites_named (hm : Memory.wf m = true) (hn : n ≤ 10) (hc : localColumnInRange col = true) {i : Nat}
    (hi : i < n) : Memory.read (Memory.writeAll m (columnAllWrites rule n col v)) (columnAllIndex rule col i) = v := by
  refine Memory.read_writeAll_named hm (columnAllWrites_lt hn hc)
    ⟨_, List.mem_map.2 ⟨i, List.mem_range.2 hi, rfl⟩, rfl⟩ fun w hw _ => ?_
  obtain ⟨_, -, rfl⟩ := List.mem_map.1 hw
  rfl

theorem read_columnAllWrites_other (hm : Memory.wf m = true) (hn : n ≤ 10) (hc : localColumnInRange col = true) {j : Nat}
    (hj : ∀ i, i < n → columnAllIndex rule col i ≠ j) :
    Memory.read (Memory.writeAll m (columnAllWrites rule n col v)) j = Memory.read m j := by
  refine Memory.read_writeAll_other hm (columnAllWrites_lt hn hc) fun w hw => ?_
  obtain ⟨i, hi, rfl⟩ := List.mem_map.1 hw
  exact hj i (List.mem_range.1 hi)

/-- An index function that is each rule's own where that rule is in force is the index rule in force. -/
theorem eq_columnAllIndex {index : Nat → Nat} (hl : rule = .legacyProduct → ∀ i, index i = col.toNat * i)
    (hc : rule = .consistent → ∀ i, index i = i * 8 + col.toNat) : index = columnAllIndex rule col := by
  funext i
  cases rule with
  | legacyProduct => exact hl rfl i
  | consistent => exact hc rfl i

end

/-- `SET_COLUMN_ALL` in range performs its writes and then its broadcast. -/
theorem setColumnAll_completes {s : State} {col : Byte} (hs : s.Ready) (hr : localColumnInRange col = true) (v : Byte) :
    ∃ t u, exec (.setColumnAll col v) s = .next t ∧ CompletesTo t u ∧ SameSettings s u ∧
      u.buf = Memory.writeAll s.buf (columnAllWrites s.config.columnAllIndexing s.chips col v) ∧
      t.queue = writes (columnAllWrites s.config.columnAllIndexing s.chips col v) ++
        pins (frameEvents (samePairs s.chips (regAddr col.toNat) v)) ∧
      u.trace = s.trace ++ frameEvents (samePairs s.chips (regAddr col.toNat) v) ∧ u.load = .high ∧ u.clk = .low := by
  obtain ⟨hn, hn'⟩ := chips_bounds hs
  have hpairs : samePairs s.chips (regAddr col.toNat) v ≠ [] := samePairs_ne hn
  obtain ⟨t, u, ht, hq, hdone, he, -⟩ := hs.performs (i := .setColumnAll col v) hr
    ((settles_columnAllWrites s.config.columnAllIndexing v hn' hr).append (settles_frame hpairs))
  refine ⟨t, u, ht, hdone, he.settings, by simpa using he.buf, hq, by simpa using he.trace, by simp [he.load_eq], ?_⟩
  simpa [afterAll_frameEvents_clk _ _ hpairs] using he.clk_eq

/-! ### `CLEAR` (R95) -/

/-- The last bit that `CLEAR` sends is a 0. -/
theorem afterAll_clearEvents_data (w : Levels) {n : Nat} (hn : 1 ≤ n) : (w.afterAll (clearEvents n)).data = .low := by
  rw [clearEvents_eq]
  exact frames_data w _ (samePairs n (regAddr 7) 0) _ rfl (samePairs_getLast hn)

/-- `CLEAR` from a ready block: the framebuffer blank, the frames sent, the lines as R95 says. -/
theorem clear_completes {s : State} (hs : s.Ready) :
    ∃ t u, exec .clear s = .next t ∧ CompletesTo t u ∧ SameSettings s u ∧ (∀ j, Memory.read u.buf j = 0) ∧
      t.queue = clearActions s.chips ∧ u.trace = s.trace ++ clearEvents s.chips ∧
      u.load = .high ∧ u.clk = .low ∧ u.data = .low := by
  obtain ⟨hn, -⟩ := chips_bounds hs
  obtain ⟨t, u, ht, hq, hdone, he, -⟩ := hs.performs (i := .clear) rfl (settles_clear hn)
  have blank : u.buf = Memory.writeAll s.buf clearWrites := by simpa [clearActions] using he.buf
  refine ⟨t, u, ht, hdone, he.settings, fun j => ?_, hq, ?_, ?_, ?_, ?_⟩
  · rw [blank, read_clearWrites hs.inv.bufWf]
  · rw [he.trace, eventsOf_clearActions]
  · rw [he.load_eq, eventsOf_clearActions, afterAll_clearEvents_load]
  · rw [he.clk_eq, eventsOf_clearActions, afterAll_clearEvents_clk _ hn]
  · rw [he.data_eq, eventsOf_clearActions, afterAll_clearEvents_data _ hn]

end Sys2Proof.Machine

open Sys2Proof Sys2Proof.Machine

/-- Settles O14: the byte is stored with one bit changed (`StoresAndSends.bit`), and nothing is sent. -/
theorem updateBufferAtChangesOneBit : Obligations.UpdateBufferAtChangesOneBit := by
  intro s col row val hs
  refine ⟨bitByte_eq_inBit0 val ▸ decode_encode (.updateBufferAt col row val),
    fun h => hs.faults (mt pixelInRange_iff.1 (by omega)), fun hc hr => ?_⟩
  obtain ⟨t, u, ht, h⟩ := updateBufferAt_completes hs (pixelInRange_iff.2 ⟨hc, hr⟩) val
  refine ⟨t, u, ht, h.completes, h.settings, h.bit, ?_, by simpa using h.trace, h.latches⟩
  rw [h.read_column]
  exact h.queue

/-- Settles O15: as O14, and the byte stored is the one that the addressed frame carries. -/
theorem setDotChangesOneBitAndSendsTheByte : Obligations.SetDotChangesOneBitAndSendsTheByte := by
  intro s col row val hs
  refine ⟨bitByte_eq_inBit0 val ▸ decode_encode (.setDot col row val),
    fun h => hs.faults (mt pixelInRange_iff.1 (by omega)), fun hc hr => ?_⟩
  obtain ⟨t, u, ht, h⟩ := setDot_completes hs (pixelInRange_iff.2 ⟨hc, hr⟩) val
  obtain ⟨load, clk⟩ := columnFrame_lines hs s.latches col (pixelByte s col row val)
  refine ⟨t, u, _, ht, h.completes, h.settings, h.bit, ?_, ?_, h.trace, h.load.trans load, h.clk.trans clk⟩ <;> rw [h.read_column]
  · rfl
  · exact h.queue

/-- Settles O16: the byte is stored and the addressed frame carries it (`setColumn_completes`). -/
theorem setColumnStoresAndSendsTheByte : Obligations.SetColumnStoresAndSendsTheByte := by
  intro s col v hs
  refine ⟨decode_encode (.setColumn col v), fun h => hs.faults (mt columnInRange_iff.1 h.not_gt), fun hc => ?_⟩
  obtain ⟨t, u, ht, h⟩ := setColumn_completes hs (columnInRange_iff.2 hc) v
  obtain ⟨load, clk⟩ := columnFrame_lines hs s.latches col v
  exact ⟨t, u, _, ht, h.completes, h.settings, h.read, rfl, h.queue, h.trace, h.load.trans load, h.clk.trans clk⟩

/-- Settles O17: the index function is the rule in force (`eq_columnAllIndex`), and what its writes leave is read back index by
index. -/
theorem setColumnAllStoresByTheIndexRule : Obligations.SetColumnAllStoresByTheIndexRule := by
  intro s col v index hs hlegacy hconsistent
  obtain rfl := eq_columnAllIndex hlegacy hconsistent
  refine ⟨decode_encode (.setColumnAll col v), fun h => hs.faults (mt localColumnInRange_iff.1 h.not_gt), fun hc => ?_⟩
  have hr := localColumnInRange_iff.2 hc
  have hn := (chips_bounds hs).2
  obtain ⟨t, u, ht, hdone, hset, hbuf, hq, htrace, hlines⟩ := setColumnAll_completes hs hr v
  refine ⟨t, u, _, ht, hdone, hset, fun i hi => ⟨columnAllIndex_lt _ hi hc, ?_⟩, fun j hj => ?_, rfl, hq, htrace, hlines⟩ <;>
    rw [hbuf]
  · exact read_columnAllWrites_named hs.inv.bufWf hn hr hi
  · exact read_columnAllWrites_other hs.inv.bufWf hn hr hj

/-- Settles O18, by what `CLEAR` leaves (`clear_completes`). -/
theorem clearBlanksColumnsAndBuffer : Obligations.ClearBlanksColumnsAndBuffer := by
  intro s hs
  obtain ⟨t, u, ht, hdone, hset, hblank, hq, htrace, hlines⟩ := clear_completes hs
  exact ⟨decode_encode .clear, t, u, _, ht, hdone, hset, hblank, rfl, hq, htrace, hlines⟩

/-- Settles O19: the two dots leave the old byte with the bit cleared (`setDot_on_off`), which is the old byte exactly when the
bit was 0; `CLEAR` blanks the framebuffer (`clear_completes`). -/
theorem dotRoundTripAndClearProperty : Obligations.DotRoundTripAndClearProperty := by
  intro s hs
  refine ⟨fun col row hc hr => ?_, ?_⟩
  · obtain ⟨u, hrun, hbyte⟩ := setDot_on_off hs (pixelInRange_iff.2 ⟨hc, hr⟩)
    have cleared : (Memory.read u.buf col.toNat).getLsbD row.toNat = false := by
      rw [hbyte, updatedByte_bit _ _ _ _ hr, if_pos rfl]
    refine ⟨u, hrun, fun off => ?_, fun on => ⟨fun same => ?_, cleared⟩⟩
    · rw [hbyte, ← off, updatedByte_eq_self]
    · rw [same, on] at cleared
      cases cleared
  · obtain ⟨t, u, ht, hdone, -, hblank, -⟩ := clear_completes hs
    exact ⟨u, ⟨t, u, ht, hdone, rfl⟩, fun j _ => hblank j⟩
end

section
/-! PROOFS. The shift commands (43_shift_ops.md R100 to R105): what each leaves in the framebuffer, read back index by index, and
the rotations that undo one another. -/

namespace Sys2Proof.Machine

/-! ### What the writes of the horizontal shifts leave -/

section
variable {m : Memory} (hm : Memory.wf m = true)
include hm

/-- A sweep of writes upward from index `lo` leaves the bytes written there, and every other byte as it was. -/
theorem read_sweep {lo k : Nat} (hk : k + lo ≤ 80) (g : Nat → Byte) (j : Nat) :
    Memory.read (Memory.writeAll m ((List.range k).map fun i => (i + lo, g i))) j =
      if lo ≤ j ∧ j < k + lo then g (j - lo) else Memory.read m j := by
  have index {w : Nat × Byte} (hw : w ∈ (List.range k).map fun i => (i + lo, g i)) :
      lo ≤ w.1 ∧ w.1 < k + lo ∧ w.2 = g (w.1 - lo) := by
    obtain ⟨i, hi, rfl⟩ := List.mem_map.1 hw
    have := List.mem_range.1 hi
    exact ⟨by simp, by simpa, by simp⟩
  have inRange : ∀ w ∈ (List.range k).map fun i => (i + lo, g i), w.1 < 80 := fun w hw => (index hw).2.1.trans_le hk
  split
  · next hj =>
    have written : ((j - lo) + lo, g (j - lo)) ∈ (List.range k).map fun i => (i + lo, g i) :=
      List.mem_map.2 ⟨j - lo, List.mem_range.2 (by omega), rfl⟩
    exact Memory.read_writeAll_named hm inRange ⟨_, written, Nat.sub_add_cancel hj.1⟩ fun w hw hwj => hwj ▸ (index hw).2.2
  · next hj => exact Memory.read_writeAll_other hm inRange fun w hw hwj => hj (hwj ▸ ⟨(index hw).1, (index hw).2.1⟩)

/-- The write to the vacated edge: `rotate` wins over `fill_zero`, and with both flags false the edge keeps its byte (R101, R102). -/
theorem read_edgeWrite (r f : Bool) (e : Nat) (b : Byte) (j : Nat) :
    Memory.read (Memory.writeAll m (edgeWrite r f e b)) j =
      if j = e then (if r then b else if f then 0 else Memory.read m e) else Memory.read m j := by
  cases r <;> cases f
  case false.false => by_cases h : j = e <;> simp [edgeWrite, h]
  all_goals simp [edgeWrite, Memory.read_write hm]

/-- `SHIFT_LEFT`: every byte one index down, the edge 79 by the flags (R101). -/
theorem read_shiftLeftWrites (r f : Bool) {j : Nat} (hj : j < 80) :
    Memory.read (Memory.writeAll m (shiftLeftWrites m r f)) j =
      if j < 79 then Memory.read m (j + 1) else if r then Memory.read m 0 else if f then 0 else Memory.read m 79 := by
  have sweep (j : Nat) := read_sweep hm (lo := 0) (k := 79) (by omega) (fun i => Memory.read m (i + 1)) j
  have swept : Memory.wf (Memory.writeAll m ((List.range 79).map fun i => (i, Memory.read m (i + 1)))) = true :=
    Memory.wf_writeAll hm (by simp; omega)
  rw [shiftLeftWrites, Memory.writeAll_append, read_edgeWrite swept]
  simp only [Nat.add_zero] at sweep
  rw [sweep, sweep]
  by_cases h : j = 79
  · simp [h]
  · simp [h, show j < 79 by omega]

/-- `SHIFT_RIGHT`: every byte one index up, the edge 0 by the flags (R102). -/
theorem read_shiftRightWrites (r f : Bool) {j : Nat} (hj : j < 80) :
    Memory.read (Memory.writeAll m (shiftRightWrites m r f)) j =
      if 1 ≤ j then Memory.read m (j - 1) else if r then Memory.read m 79 else if f then 0 else Memory.read m 0 := by
  have sweep (j : Nat) := read_sweep hm (lo := 1) (k := 79) (by omega) (fun i => Memory.read m i) j
  have swept : Memory.wf (Memory.writeAll m ((List.range 79).map fun i => (i + 1, Memory.read m i))) = true :=
    Memory.wf_writeAll hm (by simp; omega)
  rw [shiftRightWrites, Memory.writeAll_append, read_edgeWrite swept, sweep, sweep]
  by_cases h : j = 0
  · simp [h]
  · simp [h, show 1 ≤ j by omega, hj]

end

/-- The edge write, when there is one, is of the byte that the edge then holds. -/
theorem edgeWrite_eq (r f : Bool) (e : Nat) (b old : Byte) :
    edgeWrite r f e b = if r || f then [(e, if r then b else if f then 0 else old)] else [] := by
  cases r <;> cases f <;> rfl

/-! ### A shift from a ready block (R100) -/

/-- The shift accepted in `s` with the pending actions of `t` has performed the writes `ws` and sent the whole of `RELOAD` from the
framebuffer they leave, and ends in the ready state `u`. -/
structure ShiftsBy (s : State) (ws : List (Nat × Byte)) (t u : State) : Prop where
  completes : CompletesTo t u
  settings : SameSettings s u
  buf : u.buf = Memory.writeAll s.buf ws
  queue : t.queue = writes ws ++ pins (reloadEvents s.chips u.buf)
  trace : u.trace = s.trace ++ reloadEvents s.chips u.buf
  load : u.load = .high
  clk : u.clk = .low
  ready : u.Ready

theorem State.Ready.shiftsBy {s : State} (hs : s.Ready) {i : Instr} {ws : List (Nat × Byte)} (hws : ∀ w ∈ ws, w.1 < 80) :
    ∃ t u, acceptCommand i true (shiftActions s.chips s.buf ws) s = .next t ∧ ShiftsBy s ws t u := by
  obtain ⟨hn, -⟩ := chips_bounds hs
  obtain ⟨t, u, ht, hq, hdone, he, hready⟩ := hs.performs (i := i) rfl (settles_shift s.buf hn hws)
  have events : eventsOf (shiftActions s.chips s.buf ws) = reloadEvents s.chips (Memory.writeAll s.buf ws) := by simp [shiftActions]
  have buf : u.buf = Memory.writeAll s.buf ws := by simpa [shiftActions] using he.buf
  refine ⟨t, u, ht, hdone, he.settings, buf, ?_, ?_, ?_, ?_, hready⟩
  · rw [hq, buf]; rfl
  · rw [he.trace, events, buf]
  · rw [he.load_eq, events, afterAll_reloadEvents_load]
  · rw [he.clk_eq, events, afterAll_reloadEvents_clk _ _ hn]

section
variable {s : State} (hs : s.Ready)
include hs

/-- `SHIFT_LEFT` from a ready block, its writes said by the bytes they leave. -/
theorem shiftLeft_completes (r f : Bool) :
    ∃ t u, exec (.shiftLeft r f) s = .next t ∧ ShiftsBy s (shiftLeftWrites s.buf r f) t u ∧
      (∀ j, j < 79 → Memory.read u.buf j = Memory.read s.buf (j + 1)) ∧
      Memory.read u.buf 79 = (if r then Memory.read s.buf 0 else if f then 0 else Memory.read s.buf 79) ∧
      shiftLeftWrites s.buf r f =
        ((List.range 79).map fun j => (j, Memory.read u.buf j)) ++ if r || f then [(79, Memory.read u.buf 79)] else [] := by
  obtain ⟨t, u, ht, h⟩ := hs.shiftsBy (i := .shiftLeft r f) (shiftLeftWrites_lt s.buf r f)
  have read {j : Nat} (hj : j < 80) := h.buf ▸ read_shiftLeftWrites hs.inv.bufWf r f hj
  have moved (j : Nat) (hj : j < 79) : Memory.read u.buf j = Memory.read s.buf (j + 1) := by rw [read (by omega), if_pos hj]
  refine ⟨t, u, ht, h, moved, read (by omega), ?_⟩
  rw [read (j := 79) (by omega), shiftLeftWrites, edgeWrite_eq (old := Memory.read s.buf 79)]
  exact congrArg (· ++ _) (List.map_congr_left fun j hj => by rw [moved j (List.mem_range.1 hj)])

/-- `SHIFT_RIGHT` from a ready block, its writes said by the bytes they leave. -/
theorem shiftRight_completes (r f : Bool) :
    ∃ t u, exec (.shiftRight r f) s = .next t ∧ ShiftsBy s (shiftRightWrites s.buf r f) t u ∧
      (∀ j, 1 ≤ j → j < 80 → Memory.read u.buf j = Memory.read s.buf (j - 1)) ∧
      Memory.read u.buf 0 = (if r then Memory.read s.buf 79 else if f then 0 else Memory.read s.buf 0) ∧
      shiftRightWrites s.buf r f =
        ((List.range 79).map fun j => (j + 1, Memory.read u.buf (j + 1))) ++ if r || f then [(0, Memory.read u.buf 0)] else [] := by
  obtain ⟨t, u, ht, h⟩ := hs.shiftsBy (i := .shiftRight r f) (shiftRightWrites_lt s.buf r f)
  have read {j : Nat} (hj : j < 80) := h.buf ▸ read_shiftRightWrites hs.inv.bufWf r f hj
  have moved (j : Nat) (hj : 1 ≤ j) (hj' : j < 80) : Memory.read u.buf j = Memory.read s.buf (j - 1) := by
    rw [read hj', if_pos hj]
  refine ⟨t, u, ht, h, moved, read (by omega), ?_⟩
  rw [read (j := 0) (by omega), shiftRightWrites, edgeWrite_eq (old := Memory.read s.buf 0)]
  refine congrArg (· ++ _) (List.map_congr_left fun j hj => ?_)
  have := List.mem_range.1 hj
  rw [moved (j + 1) (by omega) (by omega), Nat.add_sub_cancel]

/-- A vertical shift from a ready block: the active bytes go through the byte function, the padding stays, and the writes are of
the bytes that they leave (R103, R104). -/
theorem vertical_completes {i : Instr} (f : Byte → Byte)
    (hi : exec i s = acceptCommand i true (shiftActions s.chips s.buf (verticalWrites s.chips s.buf f)) s) :
    ∃ t u, exec i s = .next t ∧ ShiftsBy s (verticalWrites s.chips s.buf f) t u ∧
      (∀ j, Memory.read u.buf j = if j < 8 * s.chips then f (Memory.read s.buf j) else Memory.read s.buf j) ∧
      verticalWrites s.chips s.buf f = (List.range (8 * s.chips)).map fun c => (c, Memory.read u.buf c) := by
  obtain ⟨-, hn⟩ := chips_bounds hs
  obtain ⟨t, u, ht, h⟩ := hs.shiftsBy (i := i) (verticalWrites_lt hn s.buf f)
  have read (j : Nat) := h.buf ▸ read_verticalWrites hs.inv.bufWf hn f j
  exact ⟨t, u, hi.trans ht, h, read, List.map_congr_left fun c hc => by rw [read, if_pos (List.mem_range.1 hc)]⟩

end

/-! ### Rotations that undo one another (R105) -/

/-- Rotating a byte toward bit 0 and then toward bit 7 restores it. -/
theorem shiftByteDown_shiftByteUp (b : Byte) : shiftByteDown true (shiftByteUp true b) = b := by
  obtain ⟨up, up_edge⟩ := shiftByteUp_bits b true
  obtain ⟨down, down_edge⟩ := shiftByteDown_bits (shiftByteUp true b) true
  refine BitVec.eq_of_getLsbD_eq fun r hr => ?_
  cases r with
  | zero => rw [down_edge, up_edge, Bool.true_and, Bool.true_and]
  | succ r => rw [down r (by omega), up r (by omega)]

/-- After `k` rotations toward bit 0, bit `r` is the old bit `r + k` around the byte. -/
theorem iterate_shiftByteUp_bit (b : Byte) (k : Nat) {r : Nat} (hr : r < 8) :
    ((shiftByteUp true)^[k] b).getLsbD r = b.getLsbD ((r + k) % 8) := by
  induction k generalizing r with
  | zero => rw [Function.iterate_zero, id, Nat.add_zero, Nat.mod_eq_of_lt hr]
  | succ k ih =>
    rw [Function.iterate_succ_apply']
    obtain ⟨up, up_edge⟩ := shiftByteUp_bits ((shiftByteUp true)^[k] b) true
    by_cases h : r = 7
    · rw [h, up_edge, Bool.true_and, ih (by omega), show (7 + (k + 1)) % 8 = (0 + k) % 8 by omega]
    · rw [up r (by omega), ih (by omega), show r + (k + 1) = r + 1 + k by omega]

/-- Eight rotations are a full cycle. -/
theorem iterate_shiftByteUp_eight (b : Byte) : (shiftByteUp true)^[8] b = b :=
  BitVec.eq_of_getLsbD_eq fun r hr => by rw [iterate_shiftByteUp_bit b 8 hr, Nat.add_mod_right, Nat.mod_eq_of_lt hr]

/-- Some `SHIFT_UP` commands with rotation, one after the other, put every active byte through as many rotations. -/
theorem shiftUps_complete (k : Nat) {s : State} (hs : s.Ready) :
    ∃ u, RunsTo (List.replicate k (.shiftUp true)) s u ∧ u.Ready ∧
      ∀ j, Memory.read u.buf j =
        if j < 8 * s.chips then (shiftByteUp true)^[k] (Memory.read s.buf j) else Memory.read s.buf j := by
  induction k generalizing s with
  | zero => exact ⟨s, rfl, hs, by simp⟩
  | succ k ih =>
    obtain ⟨t, v, ht, h, first, -⟩ := vertical_completes hs (i := .shiftUp true) (shiftByteUp true) rfl
    obtain ⟨u, hrun, hu, later⟩ := ih h.ready
    refine ⟨u, ⟨t, v, ht, h.completes, hrun⟩, hu, fun j => ?_⟩
    rw [later, first, h.settings.chips, Function.iterate_succ_apply]
    split <;> rfl

/-- `SHIFT_UP` then `SHIFT_DOWN` with rotation restores every byte. -/
theorem shiftUp_shiftDown {s : State} (hs : s.Ready) : ∃ u, RunsTo [.shiftUp true, .shiftDown true] s u ∧ u.buf = s.buf := by
  obtain ⟨t, v, ht, up, first, -⟩ := vertical_completes hs (i := .shiftUp true) (shiftByteUp true) rfl
  obtain ⟨t', u, ht', down, second, -⟩ := vertical_completes up.ready (i := .shiftDown true) (shiftByteDown true) rfl
  refine ⟨u, ⟨t, v, ht, up.completes, t', u, ht', down.completes, rfl⟩, ?_⟩
  refine Memory.eq_of_read down.ready.inv.bufWf hs.inv.bufWf fun j _ => ?_
  rw [second, first, up.settings.chips]
  split
  · exact shiftByteDown_shiftByteUp _
  · rfl

/-- `SHIFT_LEFT` then `SHIFT_RIGHT` with rotation: the byte that left at index 0 comes back from index 79. -/
theorem shiftLeft_shiftRight {s : State} (hs : s.Ready) :
    ∃ u, RunsTo [.shiftLeft true false, .shiftRight true false] s u ∧ u.buf = s.buf := by
  obtain ⟨t, v, ht, left, down, shiftedOut, -⟩ := shiftLeft_completes hs true false
  obtain ⟨t', u, ht', right, up, back, -⟩ := shiftRight_completes left.ready true false
  refine ⟨u, ⟨t, v, ht, left.completes, t', u, ht', right.completes, rfl⟩, ?_⟩
  refine Memory.eq_of_read right.ready.inv.bufWf hs.inv.bufWf fun j hj => ?_
  cases j with
  | zero => rw [back, if_pos rfl, shiftedOut, if_pos rfl]
  | succ j => rw [up (j + 1) (by omega) hj, Nat.add_sub_cancel, down j (by omega)]

/-! ### Encoding -/

/-- The flag byte of the horizontal shifts (30_encoding.md R51). -/
theorem flagByte_eq_inBits10 (r f : Bool) : flagByte r f = inBits10 f r := by cases r <;> cases f <;> rfl

/-- The flag byte of the vertical shifts, which has no `fill_zero` (30_encoding.md R51). -/
theorem flagByte_eq_inBit0 (r : Bool) : flagByte r false = inBit0 r := by cases r <;> rfl

end Sys2Proof.Machine

open Sys2Proof Sys2Proof.Machine

/-- Settles O20: the sweep and the edge write read back index by index (`shiftLeft_completes`). -/
theorem shiftLeftMovesAllBytesDown : Obligations.ShiftLeftMovesAllBytesDown := by
  intro s r f hs
  obtain ⟨t, u, ht, h, moved, edge, written⟩ := shiftLeft_completes hs r f
  exact ⟨flagByte_eq_inBits10 r f ▸ decode_encode (.shiftLeft r f), t, u, ht, h.completes, h.settings, moved, edge,
    written ▸ h.queue, h.trace, h.load, h.clk⟩

/-- Settles O21: as O20, upward (`shiftRight_completes`). -/
theorem shiftRightMovesAllBytesUp : Obligations.ShiftRightMovesAllBytesUp := by
  intro s r f hs
  obtain ⟨t, u, ht, h, moved, edge, written⟩ := shiftRight_completes hs r f
  exact ⟨flagByte_eq_inBits10 r f ▸ decode_encode (.shiftRight r f), t, u, ht, h.completes, h.settings, moved, edge,
    written ▸ h.queue, h.trace, h.load, h.clk⟩

/-- Settles O22: every active byte is shifted (`vertical_completes`), and `shiftByteUp_bits` says how its bits move. -/
theorem shiftUpMovesBitsTowardZero : Obligations.ShiftUpMovesBitsTowardZero := by
  intro s r hs
  obtain ⟨t, u, ht, h, read, written⟩ := vertical_completes hs (i := .shiftUp r) (shiftByteUp r) rfl
  refine ⟨flagByte_eq_inBit0 r ▸ decode_encode (.shiftUp r), t, u, ht, h.completes, h.settings, fun c hc => ?_, fun j hj => ?_,
    written ▸ h.queue, h.trace, h.load, h.clk⟩
  · rw [read, if_pos hc]
    exact shiftByteUp_bits _ r
  · rw [read, if_neg hj.not_gt]

/-- Settles O23: every active byte is shifted (`vertical_completes`), and `shiftByteDown_bits` says how its bits move. -/
theorem shiftDownMovesBitsTowardSeven : Obligations.ShiftDownMovesBitsTowardSeven := by
  intro s r hs
  obtain ⟨t, u, ht, h, read, written⟩ := vertical_completes hs (i := .shiftDown r) (shiftByteDown r) rfl
  refine ⟨flagByte_eq_inBit0 r ▸ decode_encode (.shiftDown r), t, u, ht, h.completes, h.settings, fun c hc => ?_, fun j hj => ?_,
    written ▸ h.queue, h.trace, h.load, h.clk⟩
  · rw [read, if_pos hc]
    exact shiftByteDown_bits _ r
  · rw [read, if_neg hj.not_gt]

/-- Settles O24: the two pairs of rotations undo each other, and eight rotations of a byte are a full cycle
(`iterate_shiftByteUp_eight`). -/
theorem rotationsRoundTrip : Obligations.RotationsRoundTrip := by
  intro s hs
  refine ⟨shiftLeft_shiftRight hs, ?_, shiftUp_shiftDown hs⟩
  obtain ⟨u, hrun, hu, read⟩ := shiftUps_complete 8 hs
  refine ⟨u, hrun, Memory.eq_of_read hu.inv.bufWf hs.inv.bufWf fun j _ => ?_⟩
  rw [read, iterate_shiftByteUp_eight, ite_self]
end

section
/-! PROOFS. The reference machines follow the queue (44_driver_ops.md R115, 41_broadcaster.md R86, 40_serializer.md R75): what each
command and each request makes the three machines perform, without the queue, is its action list. -/

namespace Sys2Proof.Machine

/-! ### Actions the reference machines perform -/

theorem writes_append (ws ws' : List (Nat × Byte)) : writes (ws ++ ws') = writes ws ++ writes ws' := List.map_append

/-- From the registers `q` and the framebuffer `buf` the machines perform the actions `as`, each write done before the next action,
and are then in `q'`. -/
def Performs (cfg : Config) (n : BitVec 4) (draws : Nat) (buf : Memory) (q : SeqRegs) (as : List Action) (q' : SeqRegs) : Prop :=
  ∀ fuel, seqUnroll cfg n draws (fuel + as.length) buf q =
    (as ++ (seqUnroll cfg n draws fuel (Memory.writeAll buf (writesOf as)) q').1,
      (seqUnroll cfg n draws fuel (Memory.writeAll buf (writesOf as)) q').2)

section
variable {cfg : Config} {n : BitVec 4} {draws : Nat} {buf : Memory}

theorem Performs.refl (q : SeqRegs) : Performs cfg n draws buf q [] q := fun _ => rfl

theorem Performs.trans {q q' q'' : SeqRegs} {as as' : List Action} (h : Performs cfg n draws buf q as q')
    (h' : Performs cfg n draws (Memory.writeAll buf (writesOf as)) q' as' q'') : Performs cfg n draws buf q (as ++ as') q'' := by
  intro fuel
  rw [List.length_append, Nat.add_comm as.length, ← Nat.add_assoc, h, h', writesOf_append, Memory.writeAll_append,
    List.append_assoc]

/-- One action. -/
theorem Performs.of_seqAdvance {q q' : SeqRegs} {a : Action} (h : seqAdvance cfg n buf draws q = some (a, q')) :
    Performs cfg n draws buf q [a] q' := by
  intro fuel
  simp only [List.length_singleton, seqUnroll, h]
  cases a <;> rfl

/-- Pin events leave the framebuffer as it was. -/
theorem Emits.performs {q q' : SeqRegs} {es : List PinEvent} (h : Emits cfg n draws buf q es q') :
    Performs cfg n draws buf q (pins es) q' := by
  intro fuel
  rw [writesOf_pins, Memory.writeAll_nil, pins, List.length_map]
  exact h fuel

/-- Machines that perform the queue and are then idle agree with it. -/
theorem Performs.seqAgrees {t : State} {q : SeqRegs} (h : Performs t.config t.chainLen t.draws t.buf t.seqRegs t.queue q)
    (hq : q.idle = true) : t.SeqAgrees := by
  have unrolled : t.unrolled = (t.queue, q) := by simpa [State.unrolled, seqUnroll] using h 0
  exact ⟨by rw [unrolled], by rw [unrolled]; exact hq⟩

/-- As many actions as are pending, performed without the queue. -/
theorem seqAgrees_of_unroll {t : State} {k : Nat} (hk : t.queue.length = k)
    (hq : (seqUnroll t.config t.chainLen t.draws k t.buf t.seqRegs).1 = t.queue)
    (hi : (seqUnroll t.config t.chainLen t.draws k t.buf t.seqRegs).2.idle = true) : t.SeqAgrees := by
  subst hk
  exact ⟨hq, hi⟩

theorem seqAgrees_of_idle {t : State} (hq : t.queue = []) (hi : t.seqRegs.idle = true) : t.SeqAgrees :=
  Performs.seqAgrees (hq ▸ Performs.refl _) hi

theorem SeqRegs.idle_iff {q : SeqRegs} : q.idle = true ↔ q.ser.ph = .idle ∧ q.bc.fph = .idle ∧ q.drv.cmdreg = 0 := by
  simp [SeqRegs.idle, and_assoc]

/-! ### The requests (R74, R86) -/

/-- In `F_IDLE` three events of the serializer are a cell of the byte requested at its own port. -/
theorem Emits.cell {o : BitOrder} {v : Byte} {i : Nat} {b : BcRegs} {d : DrvRegs} (hi : i < 8) (hb : b.fph = .idle) :
    Emits cfg n draws buf ⟨serAtCell o v i, b, d⟩ (Machine.cell (cellBit o v i)) ⟨serAtCell o v (i + 1), b, d⟩ := by
  obtain ⟨count, phase⟩ := count_after_cell i hi
  have line {r r' : SerRegs} {e : PinEvent} (h : serLine r = some (e, r')) :
      Emits cfg n draws buf ⟨r, b, d⟩ [e] ⟨r', b, d⟩ :=
    Emits.of_seqAdvance (seqAdvance_idle hb h)
  refine (line (r' := { serAtCell o v i with ph := .high }) ?_).trans
    ((line (r' := { serAtCell o v i with ph := .low }) rfl).trans (line ?_))
  · simp only [serLine, serAtCell, hi, if_true, serBit_shifted o v hi]
  · simp only [serLine, serAtCell, serShift_shifted, count, phase]

/-- A byte requested at the serializer's own port (R75). -/
theorem Emits.ownByte {o : BitOrder} {v : Byte} {b : BcRegs} {d : DrvRegs} (hb : b.fph = .idle) :
    Emits cfg n draws buf ⟨serLoad o v, b, d⟩ (serEvents o v) ⟨serAtCell o v 8, b, d⟩ := by
  have cells (i : Nat) (hi : i ≤ 8) : Emits cfg n draws buf ⟨serAtCell o v 0, b, d⟩
      ((List.range i).flatMap fun j => Machine.cell (cellBit o v j)) ⟨serAtCell o v i, b, d⟩ := by
    induction i with
    | zero => exact Emits.refl _
    | succ i ih =>
      rw [List.range_succ, List.flatMap_append, List.flatMap_singleton]
      exact (ih (by omega)).trans (Emits.cell hi hb)
  have loaded : serLoad o v = serAtCell o v 0 := by cases o <;> simp [serLoad, serAtCell, shifted]
  rw [loaded]
  exact cells 8 (Nat.le_refl 8)

/-! ### The driver's moves (R115) -/

/-- In the command `i` the driver, its next move settled as `p` says and the two machines under it idle, performs the actions `as`
and has then settled its next move as `p'` says. -/
def Drives (cfg : Config) (n : BitVec 4) (draws : Nat) (i : Instr) (buf : Memory) (p : DrvRegs × DriverNext) (as : List Action)
    (p' : DrvRegs × DriverNext) : Prop :=
  ∀ r b, r.ph = .idle → b.fph = .idle → ∃ r' b', r'.ph = .idle ∧ b'.fph = .idle ∧
    Performs cfg n draws buf (driverSettle cfg buf i p.2 ⟨r, b, p.1⟩) as
      (driverSettle cfg (Memory.writeAll buf (writesOf as)) i p'.2 ⟨r', b', p'.1⟩)

variable {i : Instr}

theorem Drives.refl (p : DrvRegs × DriverNext) : Drives cfg n draws i buf p [] p :=
  fun r b hr hb => ⟨r, b, hr, hb, Performs.refl _⟩

theorem Drives.trans {p p' p'' : DrvRegs × DriverNext} {as as' : List Action} (h : Drives cfg n draws i buf p as p')
    (h' : Drives cfg n draws i (Memory.writeAll buf (writesOf as)) p' as' p'') : Drives cfg n draws i buf p (as ++ as') p'' := by
  intro r b hr hb
  obtain ⟨r', b', hr', hb', first⟩ := h r b hr hb
  obtain ⟨r'', b'', hr'', hb'', second⟩ := h' r' b' hr' hb'
  refine ⟨r'', b'', hr'', hb'', ?_⟩
  rw [writesOf_append, Memory.writeAll_append]
  exact first.trans second

/-- Moves one after the other, `as j` the actions of the move from `p j` to `p (j + 1)`. -/
theorem Drives.iterate {p : Nat → DrvRegs × DriverNext} {as : Nat → List Action} {k : Nat}
    (h : ∀ j < k, Drives cfg n draws i (Memory.writeAll buf (writesOf ((List.range j).flatMap as))) (p j) (as j) (p (j + 1))) :
    Drives cfg n draws i buf (p 0) ((List.range k).flatMap as) (p k) := by
  induction k with
  | zero => exact Drives.refl _
  | succ k ih =>
    rw [List.range_succ, List.flatMap_append, List.flatMap_singleton]
    exact (ih fun j hj => h j (by omega)).trans (h k (by omega))

/-- A line of the driver's own, after which a frame is requested from the same registers whether or not the line's write has been
done. -/
theorem Drives.line {d : DrvRegs} {a : Action} {p : DrvRegs × DriverNext} (hd : decodeCommand d.cmdreg = .ok i)
    (hl : driverLine cfg n.toNat buf i d = some (a, p))
    (hf : driverFrame cfg (Memory.writeAll buf (writesOf [a])) i p.1 = driverFrame cfg buf i p.1) :
    Drives cfg n draws i buf (d, .stay) [a] p := by
  intro r b hr hb
  have advance : seqAdvance cfg n buf draws ⟨r, b, d⟩ = some (a, driverSettle cfg buf i p.2 ⟨r, b, p.1⟩) := by
    simp [seqAdvance, bcLine, serLine, hr, hb, hd, hl]
  have settled : driverSettle cfg (Memory.writeAll buf (writesOf [a])) i p.2 ⟨r, b, p.1⟩ =
      driverSettle cfg buf i p.2 ⟨r, b, p.1⟩ := by
    cases p.2 <;> simp only [driverSettle, hf]
  exact ⟨r, b, hr, hb, settled ▸ Performs.of_seqAdvance advance⟩

/-- A sweep of `k` buffer writes, the driver in `d j` before the write `j`. -/
theorem Drives.sweep {d : Nat → DrvRegs} {w : Nat → Nat × Byte} {k : Nat} {last : Nat → DrvRegs × DriverNext} (hk : 0 < k)
    (hd : ∀ j, decodeCommand (d j).cmdreg = .ok i) (hf : ∀ buf buf' d, driverFrame cfg buf i d = driverFrame cfg buf' i d)
    (hl : ∀ j < k, driverLine cfg n.toNat (Memory.writeAll buf ((List.range j).map w)) i (d j) =
      if j + 1 = k then some (.wr (w j).1 (w j).2, last j) else some (.wr (w j).1 (w j).2, d (j + 1), .stay)) :
    Drives cfg n draws i buf (d 0, .stay) (writes ((List.range k).map w)) (last (k - 1)) := by
  have written (j : Nat) : ((List.range j).flatMap fun j => [Action.wr (w j).1 (w j).2]) = writes ((List.range j).map w) := by
    rw [writes, List.map_map, ← List.map_eq_flatMap]
    rfl
  have sweep := Drives.iterate (cfg := cfg) (n := n) (draws := draws) (i := i) (buf := buf) (k := k)
    (p := fun j => if j = k then last (k - 1) else (d j, .stay)) (as := fun j => [Action.wr (w j).1 (w j).2]) fun j hj => by
      rw [written, writesOf_writes, if_neg hj.ne]
      refine Drives.line (hd j) ((hl j hj).trans ?_) (hf _ _ _)
      split
      · next h => rw [← h, Nat.add_sub_cancel]
      · rfl
  rw [written] at sweep
  simpa [hk.ne] using sweep

/-- The frame that the driver has requested, up to its next move. -/
theorem Drives.frame {d : DrvRegs} {mode : PairMode} {tgt : BitVec 4} {a v : Byte} (hn : 1 ≤ n.toNat)
    (hd : decodeCommand d.cmdreg = .ok i) (hf : driverFrame cfg buf i d = bcLoad mode tgt a v) :
    Drives cfg n draws i buf (d, .frame)
      (pins (frameEvents ((List.range n.toNat).map (bcPairAt buf draws (bcLoad mode tgt a v))))) (driverAfterFrame i d) := by
  intro r b hr hb
  obtain ⟨r', b', hr', hb', sent⟩ :=
    Emits.untilEndOfFrame (cfg := cfg) (draws := draws) (buf := buf) (d := d) mode tgt a v hn hr
  have ends : Emits cfg n draws buf ⟨r', b', d⟩ [.l true]
      (driverSettle cfg buf i (driverAfterFrame i d).2 ⟨r', { b' with fph := .idle }, (driverAfterFrame i d).1⟩) :=
    Emits.of_seqAdvance (by simp [seqAdvance, bcLine, hb', hd])
  have frame := (sent.trans ends).performs
  refine ⟨r', { b' with fph := .idle }, hr', rfl, ?_⟩
  simpa [driverSettle, hf, frameEvents] using frame

/-- The eight frames of a command that counts its columns in `kcnt`. -/
theorem Drives.columns {d : DrvRegs} {mode : PairMode} {last : DriverNext} (hn : 1 ≤ n.toNat)
    (hd : decodeCommand d.cmdreg = .ok i)
    (hf : ∀ k, driverFrame cfg buf i { d with kcnt := k } = bcLoad mode 0 (regAddr k.toNat) 0)
    (ha : ∀ k, driverAfterFrame i { d with kcnt := k } = ({ d with kcnt := k + 1 }, if k = 7 then last else .frame)) :
    Drives cfg n draws i buf ({ d with kcnt := 0 }, .frame)
      (pins ((List.range 8).flatMap fun k =>
        frameEvents ((List.range n.toNat).map (bcPairAt buf draws (bcLoad mode 0 (regAddr k) 0)))))
      ({ d with kcnt := 8 }, last) := by
  let events (k : Nat) : List PinEvent :=
    frameEvents ((List.range n.toNat).map (bcPairAt buf draws (bcLoad mode 0 (regAddr k) 0)))
  have pinned (k : Nat) : ((List.range k).flatMap fun k => pins (events k)) = pins ((List.range k).flatMap events) :=
    (List.map_flatMap ..).symm
  have frames := Drives.iterate (cfg := cfg) (n := n) (draws := draws) (i := i) (buf := buf) (k := 8)
    (p := fun k => ({ d with kcnt := BitVec.ofNat 4 k }, if k = 8 then last else .frame)) (as := fun k => pins (events k))
    fun k hk => by
      have column : (BitVec.ofNat 4 k).toNat = k := by bv_omega
      have count : BitVec.ofNat 4 k + 1 = BitVec.ofNat 4 (k + 1) := by bv_omega
      have seventh : BitVec.ofNat 4 k = 7 ↔ k + 1 = 8 := by bv_omega
      have one := Drives.frame (draws := draws) (d := { d with kcnt := BitVec.ofNat 4 k }) hn hd (hf _)
      rw [ha, column, count] at one
      simpa only [pinned, writesOf_pins, Memory.writeAll_nil, hk.ne, seventh, if_false] using one
  rw [pinned] at frames
  exact frames

/-- The eight frames of `CLEAR` (R95). -/
theorem Drives.clearColumns {d : DrvRegs} {last : DriverNext} (hn : 1 ≤ n.toNat) (hd : decodeCommand d.cmdreg = .ok i)
    (hf : ∀ k, driverFrame cfg buf i { d with kcnt := k } = bcLoad .same 0 (regAddr k.toNat) 0)
    (ha : ∀ k, driverAfterFrame i { d with kcnt := k } = ({ d with kcnt := k + 1 }, if k = 7 then last else .frame)) :
    Drives cfg n draws i buf ({ d with kcnt := 0 }, .frame) (pins (clearEvents n.toNat)) ({ d with kcnt := 8 }, last) := by
  have columns := Drives.columns (draws := draws) hn hd hf ha
  simp only [bcPairAt_same] at columns
  exact columns

/-- One frame that carries the same pair to every chip (R82). -/
theorem Drives.sameFrame {d : DrvRegs} {a v : Byte} (hn : 1 ≤ n.toNat) (hd : decodeCommand d.cmdreg = .ok i)
    (hf : driverFrame cfg buf i d = bcLoad .same 0 a v) :
    Drives cfg n draws i buf (d, .frame) (pins (frameEvents (samePairs n.toNat a v))) (driverAfterFrame i d) :=
  bcPairAt_same buf draws a v n.toNat ▸ Drives.frame hn hd hf

/-- One frame that carries a pair to the chip of a column in range (R84). -/
theorem Drives.columnFrame {d : DrvRegs} {col v : Byte} (hn : 1 ≤ n.toNat) (hn' : n.toNat ≤ 10)
    (hc : columnInRange n.toNat col = true) (hd : decodeCommand d.cmdreg = .ok i)
    (hf : driverFrame cfg buf i d =
      bcLoad .addressed (BitVec.ofNat 4 (chipIndex col)) (regAddr (localCol col)) v) :
    Drives cfg n draws i buf (d, .frame) (pins (Machine.columnFrame n.toNat col v)) (driverAfterFrame i d) := by
  have chip : (BitVec.ofNat 4 (chipIndex col)).toNat = chipIndex col := by
    have := columnInRange_iff.1 hc
    have : chipIndex col = col.toNat / 8 := rfl
    rw [BitVec.toNat_ofNat]
    omega
  have frame := Drives.frame (draws := draws) hn hd hf
  rwa [bcPairAt_addressed buf draws _ _ _ _ hn', chip] at frame

/-! ### The commands (R115) -/

/-- The driver, started with the command `i`, performs the actions `q` and is then done. -/
def CarriesOut (cfg : Config) (n : BitVec 4) (draws : Nat) (buf : Memory) (i : Instr) (q : List Action) : Prop :=
  ∃ d, Drives cfg n draws i buf (driverStart buf i, driverFirst i) q (d, .done)

theorem decodeCommand_commandWord {w : CmdWord} (h : encode i = .cmd w) : decodeCommand (commandWord i) = .ok i := by
  have own : decode (encode i) = .ok i := decode_encode i
  rw [commandWord, h]
  rwa [h] at own

/-- The command `i` ends with the eight frames of `RELOAD`: the column that `kcnt` counts, for `kcnt` from 0 to 7 (R100, R111). -/
structure EndsWithReload (i : Instr) : Prop where
  word : decodeCommand (commandWord i) = .ok i
  frame : ∀ cfg buf d, driverFrame cfg buf i d = bcLoad .buffer 0 (regAddr d.kcnt.toNat) 0
  next : ∀ d, driverAfterFrame i d = ({ d with kcnt := d.kcnt + 1 }, if d.kcnt = 7 then .done else .frame)

theorem endsWithReload_reload : EndsWithReload .reload := ⟨decodeCommand_commandWord rfl, fun _ _ _ => rfl, fun _ => rfl⟩

theorem endsWithReload_shiftLeft (r f : Bool) : EndsWithReload (.shiftLeft r f) :=
  ⟨decodeCommand_commandWord rfl, fun _ _ _ => rfl, fun _ => rfl⟩

theorem endsWithReload_shiftRight (r f : Bool) : EndsWithReload (.shiftRight r f) :=
  ⟨decodeCommand_commandWord rfl, fun _ _ _ => rfl, fun _ => rfl⟩

theorem endsWithReload_shiftUp (r : Bool) : EndsWithReload (.shiftUp r) :=
  ⟨decodeCommand_commandWord rfl, fun _ _ _ => rfl, fun _ => rfl⟩

theorem endsWithReload_shiftDown (r : Bool) : EndsWithReload (.shiftDown r) :=
  ⟨decodeCommand_commandWord rfl, fun _ _ _ => rfl, fun _ => rfl⟩

/-- The frames of `RELOAD` are of the framebuffer as it is when the first of them is requested. -/
theorem EndsWithReload.drives (hi : EndsWithReload i) (hn : 1 ≤ n.toNat) (hn' : n.toNat ≤ 10) (idx : BitVec 7) (saved : Byte) :
    Drives cfg n draws i buf (⟨commandWord i, 0, idx, 0, saved⟩, .frame) (pins (reloadEvents n.toNat buf))
      (⟨commandWord i, 8, idx, 0, saved⟩, .done) := by
  have sent : reloadEvents n.toNat buf = (List.range 8).flatMap fun k =>
      frameEvents ((List.range n.toNat).map (bcPairAt buf draws (bcLoad .buffer 0 (regAddr k) 0))) :=
    List.flatMap_congr fun k hk => by
      simp only [bcPairAt_buffer buf draws _ n.toNat hn', bufferPairs,
        columnByte_of_column (List.mem_range.1 hk) (regAddr_toNat (List.mem_range.1 hk))]
  rw [sent]
  exact Drives.columns (d := ⟨commandWord i, 0, idx, 0, saved⟩) hn hi.word (fun _ => hi.frame ..) fun _ => hi.next _

/-- A shift: the driver's sweep for its writes, then the frames of `RELOAD` from the framebuffer they leave (R100). -/
theorem EndsWithReload.shiftCarriedOut (hi : EndsWithReload i) (hn : 1 ≤ n.toNat) (hn' : n.toNat ≤ 10) {ws : List (Nat × Byte)}
    {idx : BitVec 7} {saved : Byte} (hws : Drives cfg n draws i buf (driverStart buf i, driverFirst i) (writes ws)
      (⟨commandWord i, 0, idx, 0, saved⟩, .frame)) : CarriesOut cfg n draws buf i (shiftActions n.toNat buf ws) := by
  have frames := hi.drives (cfg := cfg) (draws := draws) (buf := Memory.writeAll buf ws) hn hn' idx saved
  rw [← writesOf_writes ws] at frames
  exact ⟨_, writesOf_writes ws ▸ hws.trans frames⟩

/-- A horizontal shift: after its sweep comes the line for the vacated edge, when the flags ask for one; with both flags false the
sweep goes over to the frames at once (R101, R102). -/
theorem EndsWithReload.horizontalShiftCarriedOut (hi : EndsWithReload i) (hn : 1 ≤ n.toNat) (hn' : n.toNat ≤ 10)
    {ws : List (Nat × Byte)} {r f : Bool} {e : Nat} {b saved saved' : Byte} {idx idx' : BitVec 7}
    (hws : Drives cfg n draws i buf (driverStart buf i, driverFirst i) (writes ws)
      (if r || f then (⟨commandWord i, 0, idx, 0, saved⟩, .stay) else (⟨commandWord i, 0, idx', 0, saved'⟩, .frame)))
    (hl : ∀ buf, driverLine cfg n.toNat buf i ⟨commandWord i, 0, idx, 0, saved⟩ =
      some (.wr e (if r then b else 0), ⟨commandWord i, 0, idx, 0, saved⟩, .frame)) :
    CarriesOut cfg n draws buf i (shiftActions n.toNat buf (ws ++ edgeWrite r f e b)) := by
  have edge {buf : Memory} : Drives cfg n draws i buf (⟨commandWord i, 0, idx, 0, saved⟩, .stay)
      [.wr e (if r then b else 0)] (⟨commandWord i, 0, idx, 0, saved⟩, .frame) :=
    Drives.line hi.word (hl buf) ((hi.frame ..).trans (hi.frame ..).symm)
  cases r <;> cases f
  case false.false => exact hi.shiftCarriedOut hn hn' (by rw [writes_append]; exact hws.trans (Drives.refl _))
  all_goals exact hi.shiftCarriedOut hn hn' (by rw [writes_append]; exact hws.trans edge)

/-- The driver's sweep counter tells the indices of the framebuffer apart. -/
theorem idx_toNat {j : Nat} (hj : j < 80) : (BitVec.ofNat 7 j).toNat = j := by bv_omega

theorem idx_succ {j : Nat} : BitVec.ofNat 7 j + 1 = BitVec.ofNat 7 (j + 1) := (BitVec.ofNat_add ..).symm

/-- A byte that the first `j` writes of a sweep do not name reads as before the sweep. -/
theorem read_duringSweep {m : Memory} (hm : Memory.wf m = true) {w : Nat → Nat × Byte} {j k : Nat}
    (hlt : ∀ i < j, (w i).1 < 80) (hne : ∀ i < j, (w i).1 ≠ k) :
    Memory.read (Memory.writeAll m ((List.range j).map w)) k = Memory.read m k :=
  Memory.read_writeAll_other hm (by simpa using hlt) (by simpa using hne)

/-- The 80 zero writes of `CLEAR`, also within `INIT` (R95). -/
theorem Drives.clearSweep {d : DrvRegs} {last : BitVec 7 → DrvRegs × DriverNext} (hd : decodeCommand d.cmdreg = .ok i)
    (hf : ∀ buf buf' d, driverFrame cfg buf i d = driverFrame cfg buf' i d)
    (hl : ∀ buf x, driverLine cfg n.toNat buf i { d with idx := x } =
      if x = 79 then some (.wr x.toNat 0, last x) else some (.wr x.toNat 0, { d with idx := x + 1 }, .stay)) :
    Drives cfg n draws i buf ({ d with idx := 0 }, .stay) (writes clearWrites) (last 79) := by
  refine Drives.sweep (d := fun j => { d with idx := BitVec.ofNat 7 j }) (w := fun j => (j, 0)) (k := 80)
    (last := fun j => last (BitVec.ofNat 7 j)) (by decide) (fun _ => hd) hf fun j hj => ?_
  have atEnd : BitVec.ofNat 7 j = 79 ↔ j + 1 = 80 := by bv_omega
  simp only [hl, idx_toNat hj, idx_succ, atEnd]

theorem updateBufferAt_carriedOut (col row : Byte) (val : Bool) :
    CarriesOut cfg n draws buf (.updateBufferAt col row val)
      (writes [(col.toNat, updatedByte (Memory.read buf col.toNat) row val)]) := by
  have hd : decodeCommand (driverStart buf (.updateBufferAt col row val)).cmdreg = .ok (.updateBufferAt col row val) :=
    decodeCommand_commandWord rfl
  exact ⟨_, Drives.line hd rfl rfl⟩

section
variable (hn : 1 ≤ n.toNat) (hn' : n.toNat ≤ 10)
include hn

theorem setIntensity_carriedOut (level : Byte) :
    CarriesOut cfg n draws buf (.setIntensity level) (pins (intensityEvents cfg n.toNat level)) :=
  ⟨_, Drives.sameFrame hn (decodeCommand_commandWord rfl) rfl⟩

theorem clear_carriedOut : CarriesOut cfg n draws buf .clear (clearActions n.toNat) := by
  let d : DrvRegs := { driverStart buf .clear with kcnt := 8 }
  have hd : decodeCommand d.cmdreg = .ok .clear := decodeCommand_commandWord rfl
  have columns : Drives cfg n draws .clear buf (driverStart buf .clear, .frame) (pins (clearEvents n.toNat)) (d, .stay) :=
    Drives.clearColumns (d := driverStart buf .clear) hn hd (fun _ => rfl) fun _ => rfl
  exact ⟨_, columns.trans (Drives.clearSweep (d := d) hd (fun _ _ _ => rfl) fun _ _ => rfl)⟩

theorem init_carriedOut : CarriesOut cfg n draws buf .init
    (pins (initOpening cfg n.toNat) ++ clearActions n.toNat ++ pins (intensityEvents cfg n.toNat 0x0F)) := by
  let d (istep : BitVec 3) (kcnt : BitVec 4) (idx : BitVec 7) : DrvRegs := ⟨commandWord .init, kcnt, idx, istep, 0⟩
  have hd (istep : BitVec 3) (kcnt : BitVec 4) (idx : BitVec 7) : decodeCommand (d istep kcnt idx).cmdreg = .ok .init :=
    decodeCommand_commandWord rfl
  have opening : Drives cfg n draws .init buf (d 0 0 0, .stay) (pins (initOpening cfg n.toNat)) (d 5 0 0, .frame) := by
    have clock : Drives cfg n draws .init buf (d 0 0 0, .stay) [.pin (.c true)] (d 1 0 0, .frame) :=
      Drives.line (hd 0 0 0) rfl rfl
    have frame {buf : Memory} {istep : BitVec 3} {a v : Byte}
        (hf : driverFrame cfg buf .init (d istep 0 0) = bcLoad .same 0 a v)
        (ha : driverAfterFrame .init (d istep 0 0) = (d (istep + 1) 0 0, .frame)) :
        Drives cfg n draws .init buf (d istep 0 0, .frame) (pins (frameEvents (samePairs n.toNat a v)))
          (d (istep + 1) 0 0, .frame) :=
      ha ▸ Drives.sameFrame hn (hd istep 0 0) hf
    have frames := (((clock.trans (frame rfl rfl)).trans (frame rfl rfl)).trans (frame rfl rfl)).trans (frame rfl rfl)
    simpa [pins, initOpening] using frames
  have columns {buf : Memory} : Drives cfg n draws .init buf (d 5 0 0, .frame) (pins (clearEvents n.toNat)) (d 5 8 0, .stay) :=
    Drives.clearColumns (d := d 5 0 0) hn (hd 5 0 0) (fun _ => rfl) fun _ => rfl
  have sweep {buf : Memory} : Drives cfg n draws .init buf (d 5 8 0, .stay) (writes clearWrites) (d 6 8 79, .frame) :=
    Drives.clearSweep (d := d 5 8 0) (last := fun x => (d 6 8 x, .frame)) (hd 5 8 0) (fun _ _ _ => rfl) fun _ _ => rfl
  exact ⟨_, (opening.trans (columns.trans sweep)).trans (Drives.sameFrame hn (hd 6 8 79) rfl)⟩

include hn'

theorem reload_carriedOut : CarriesOut cfg n draws buf .reload (pins (reloadEvents n.toNat buf)) :=
  ⟨_, endsWithReload_reload.drives hn hn' 0 0⟩

theorem setColumn_carriedOut {col : Byte} (v : Byte) (hc : columnInRange n.toNat col = true) :
    CarriesOut cfg n draws buf (.setColumn col v) (writes [(col.toNat, v)] ++ pins (columnFrame n.toNat col v)) := by
  have hd : decodeCommand (driverStart buf (.setColumn col v)).cmdreg = .ok (.setColumn col v) :=
    decodeCommand_commandWord rfl
  exact ⟨_, (Drives.line hd rfl rfl).trans (Drives.columnFrame hn hn' hc hd rfl)⟩

/-- The frame carries the byte that the line before it has written: the update of a bit is the same when it is done again. -/
theorem setDot_carriedOut {col row : Byte} (val : Bool) (hm : Memory.wf buf = true)
    (hc : columnInRange n.toNat col = true) :
    CarriesOut cfg n draws buf (.setDot col row val)
      (writes [(col.toNat, updatedByte (Memory.read buf col.toNat) row val)] ++
        pins (columnFrame n.toNat col (updatedByte (Memory.read buf col.toNat) row val))) := by
  have hd : decodeCommand (driverStart buf (.setDot col row val)).cmdreg = .ok (.setDot col row val) :=
    decodeCommand_commandWord rfl
  have again : driverFrame cfg (Memory.writeAll buf [(col.toNat, updatedByte (Memory.read buf col.toNat) row val)])
      (.setDot col row val) (driverStart buf (.setDot col row val)) =
      driverFrame cfg buf (.setDot col row val) (driverStart buf (.setDot col row val)) := by
    simp [driverFrame, Memory.read_write hm, updatedByte_updatedByte]
  exact ⟨_, (Drives.line hd rfl again).trans (Drives.columnFrame hn hn' hc hd again)⟩

theorem setColumnAll_carriedOut (col v : Byte) :
    CarriesOut cfg n draws buf (.setColumnAll col v)
      (writes (columnAllWrites cfg.columnAllIndexing n.toNat col v) ++
        pins (frameEvents (samePairs n.toNat (regAddr col.toNat) v))) := by
  let d (j : Nat) : DrvRegs := ⟨commandWord (.setColumnAll col v), 0, BitVec.ofNat 7 j, 0, 0⟩
  have hd (j : Nat) : decodeCommand (d j).cmdreg = .ok (.setColumnAll col v) := decodeCommand_commandWord rfl
  have sweep : Drives cfg n draws (.setColumnAll col v) buf (d 0, .stay)
      (writes (columnAllWrites cfg.columnAllIndexing n.toNat col v)) (d (n.toNat - 1), .frame) :=
    Drives.sweep (last := fun j => (d j, .frame)) hn hd (fun _ _ _ => rfl) fun j hj => by
      simp only [driverLine, d, idx_toNat (show j < 80 by omega), idx_succ]
  exact ⟨_, sweep.trans (Drives.sameFrame hn (hd _) rfl)⟩

/-- A vertical shift, its sweep over the active window by the byte function `f` (R103, R104). -/
theorem verticalShift_carriedOut {f : Byte → Byte} (hi : EndsWithReload i) (hm : Memory.wf buf = true)
    (hstart : (driverStart buf i, driverFirst i) = (⟨commandWord i, 0, 0, 0, 0⟩, .stay))
    (hl : ∀ buf d, driverLine cfg n.toNat buf i d =
      if d.idx.toNat + 1 = 8 * n.toNat then some (.wr d.idx.toNat (f (Memory.read buf d.idx.toNat)), d, .frame)
      else some (.wr d.idx.toNat (f (Memory.read buf d.idx.toNat)), { d with idx := d.idx + 1 }, .stay)) :
    CarriesOut cfg n draws buf i (shiftActions n.toNat buf (verticalWrites n.toNat buf f)) := by
  let d (j : Nat) : DrvRegs := ⟨commandWord i, 0, BitVec.ofNat 7 j, 0, 0⟩
  have sweep : Drives cfg n draws i buf (d 0, .stay) (writes (verticalWrites n.toNat buf f)) (d (8 * n.toNat - 1), .frame) :=
    Drives.sweep (k := 8 * n.toNat) (last := fun j => (d j, .frame)) (by omega) (fun _ => hi.word)
      (fun _ _ _ => (hi.frame ..).trans (hi.frame ..).symm) fun j hj => by
        have ahead := read_duringSweep hm (w := fun c => (c, f (Memory.read buf c))) (j := j) (k := j)
          (fun c hc => by show c < 80; omega) (fun c hc => hc.ne)
        simp only [hl, d, idx_toNat (show j < 80 by omega), idx_succ, ahead]
  exact hi.shiftCarriedOut hn hn' (hstart ▸ sweep)

theorem shiftUp_carriedOut (r : Bool) (hm : Memory.wf buf = true) :
    CarriesOut cfg n draws buf (.shiftUp r) (shiftActions n.toNat buf (verticalWrites n.toNat buf (shiftByteUp r))) :=
  verticalShift_carriedOut hn hn' (endsWithReload_shiftUp r) hm rfl fun _ _ => rfl

theorem shiftDown_carriedOut (r : Bool) (hm : Memory.wf buf = true) :
    CarriesOut cfg n draws buf (.shiftDown r) (shiftActions n.toNat buf (verticalWrites n.toNat buf (shiftByteDown r))) :=
  verticalShift_carriedOut hn hn' (endsWithReload_shiftDown r) hm rfl fun _ _ => rfl

theorem shiftLeft_carriedOut (r f : Bool) (hm : Memory.wf buf = true) :
    CarriesOut cfg n draws buf (.shiftLeft r f) (shiftActions n.toNat buf (shiftLeftWrites buf r f)) := by
  have hi := endsWithReload_shiftLeft r f
  let d (j : Nat) : DrvRegs := ⟨commandWord (.shiftLeft r f), 0, BitVec.ofNat 7 j, 0, Memory.read buf 0⟩
  have sweep : Drives cfg n draws (.shiftLeft r f) buf (d 0, .stay)
      (writes ((List.range 79).map fun j => (j, Memory.read buf (j + 1))))
      (if r || f then (d 79, .stay) else (d 78, .frame)) :=
    Drives.sweep (last := fun j => if r || f then (d (j + 1), .stay) else (d j, .frame)) (by decide) (fun _ => hi.word)
      (fun _ _ _ => rfl) fun j hj => by
        have ahead := read_duringSweep hm (w := fun c => (c, Memory.read buf (c + 1))) (j := j) (k := j + 1)
          (fun c hc => by show c < 80; omega) (fun c hc => by show c ≠ j + 1; omega)
        have beforeEdge : BitVec.ofNat 7 j ≠ 79 := by bv_omega
        have atEnd : BitVec.ofNat 7 j = 78 ↔ j + 1 = 79 := by bv_omega
        simp only [driverLine, d, beforeEdge, if_false, atEnd, idx_toNat (show j < 80 by omega), idx_succ, ahead]
        cases r || f <;> by_cases h : j + 1 = 79 <;> simp [h]
  exact hi.horizontalShiftCarriedOut hn hn' sweep fun _ => rfl

theorem shiftRight_carriedOut (r f : Bool) (hm : Memory.wf buf = true) :
    CarriesOut cfg n draws buf (.shiftRight r f) (shiftActions n.toNat buf (shiftRightWrites buf r f)) := by
  have hi := endsWithReload_shiftRight r f
  let d (j : Nat) : DrvRegs := ⟨commandWord (.shiftRight r f), 0, BitVec.ofNat 7 (j + 1), 0, Memory.read buf j⟩
  let carried (idx : BitVec 7) : DrvRegs := ⟨commandWord (.shiftRight r f), 0, idx, 0, Memory.read buf 79⟩
  have sweep : Drives cfg n draws (.shiftRight r f) buf (d 0, .stay)
      (writes ((List.range 79).map fun j => (j + 1, Memory.read buf j)))
      (if r || f then (carried 0, .stay) else (carried 79, .frame)) :=
    Drives.sweep (last := fun _ => if r || f then (carried 0, .stay) else (carried 79, .frame)) (by decide) (fun _ => hi.word)
      (fun _ _ _ => rfl) fun j hj => by
        have ahead := read_duringSweep hm (w := fun c => (c + 1, Memory.read buf c)) (j := j) (k := j + 1)
          (fun c hc => by show c + 1 < 80; omega) (fun c hc => by show c + 1 ≠ j + 1; omega)
        have beforeEdge : BitVec.ofNat 7 (j + 1) ≠ 0 := by bv_omega
        have atEnd : BitVec.ofNat 7 (j + 1) = 79 ↔ j + 1 = 79 := by bv_omega
        simp only [driverLine, d, beforeEdge, if_false, atEnd, idx_toNat (show j + 1 < 80 by omega), idx_succ, ahead]
        cases r || f <;> by_cases h : j + 1 = 79 <;> simp [h, carried]
  exact hi.horizontalShiftCarriedOut hn hn' sweep fun _ => rfl

end
end

/-! ### Every step keeps the agreement -/

/-- A command that is accepted, or that takes its fault. -/
theorem acceptCommand_keepsAgreement {i : Instr} {inRange : Bool} {q : List Action} {s t : State} (hs : s.SeqAgrees)
    (hq : inRange = true → CarriesOut s.config s.chainLen s.draws s.buf i q) (h : acceptCommand i inRange q s = .next t) :
    t.SeqAgrees := by
  rcases acceptCommand_cases i inRange q s with ⟨-, ha⟩ | ⟨-, -, ha⟩ | ⟨-, -, -, ha⟩ | ⟨-, hn, hr, ha⟩ <;>
    rw [ha] at h <;> cases h
  · exact hs
  · exact ⟨hs.actions, hs.idleAfter⟩
  · obtain ⟨hser, hbc, -⟩ := SeqRegs.idle_iff.1 (hs.idle (canAccept_iff.1 hn).2.2)
    obtain ⟨d, drives⟩ := hq hr
    obtain ⟨r, b, hr', hb', performs⟩ := drives s.ser s.bc hser hbc
    exact Performs.seqAgrees performs (SeqRegs.idle_iff.2 ⟨hr', hb', rfl⟩)

/-- A request of the serializer that is taken (R75). -/
theorem serRequest_keepsAgreement {o : BitOrder} {v : Byte} {s t : State} (hs : s.SeqAgrees)
    (h : takeRequest s.serTakes (serEvents o v) (fun q => { q with ser := serLoad o v }) 0 s = .next t) : t.SeqAgrees := by
  rcases takeRequest_cases s.serTakes (serEvents o v) (fun q => { q with ser := serLoad o v }) 0 s with
    ⟨-, ha⟩ | ⟨-, -, ha⟩ | ⟨-, hn, ha⟩ <;> rw [ha] at h <;> cases h
  · exact hs
  · obtain ⟨-, hbc, hdrv⟩ := SeqRegs.idle_iff.1 (hs.idle (serTakes_iff.1 hn).1)
    exact Performs.seqAgrees (Emits.ownByte hbc).performs (SeqRegs.idle_iff.2 ⟨rfl, hbc, hdrv⟩)

/-- A request of the broadcaster that is taken: its machine sends the pairs that `Select` gives (R86). -/
theorem bcRequest_keepsAgreement {mode : PairMode} {tgt : BitVec 4} {a v : Byte} {drawn : Nat} {ps : List Pair} {s t : State}
    (hc : s.configured = true) (hs : s.SeqAgrees)
    (hps : (List.range s.chips).map (bcPairAt s.buf (s.draws + drawn) (bcLoad mode tgt a v)) = ps)
    (h : takeRequest s.bcTakes (frameEvents ps) (fun q => { q with bc := bcLoad mode tgt a v }) drawn s = .next t) :
    t.SeqAgrees := by
  rcases takeRequest_cases s.bcTakes (frameEvents ps) (fun q => { q with bc := bcLoad mode tgt a v }) drawn s with
    ⟨-, ha⟩ | ⟨-, -, ha⟩ | ⟨-, hn, ha⟩ <;> rw [ha] at h <;> cases h
  · exact hs
  · obtain ⟨hchips, -⟩ := configured_iff.1 hc
    have pending : (pins (frameEvents ps)).length = 3 + 48 * s.chips := by
      rw [pins, List.length_map, length_frameEvents, ← hps, List.length_map, List.length_range]
    obtain ⟨sent, idle⟩ := seqUnroll_frame (cfg := s.config) (draws := s.draws + drawn) (buf := s.buf)
      (hs.idle (bcTakes_iff.1 hn).1) hchips mode tgt a v
    exact seqAgrees_of_unroll pending (sent.trans (by rw [← hps]; rfl)) idle

/-- A `BC_BUF` request sends the bytes drawn for it, where it draws any (R85, log 8). -/
theorem bcPairAt_drawn (buf : Memory) (draws : Nat) (a : Byte) (n : Nat) (hn : n ≤ 10) :
    (List.range n).map (bcPairAt buf (draws + columnDraws a) (bcLoad .buffer 0 a 0)) = bufferPairs n buf draws a := by
  rw [bcPairAt_buffer _ _ _ _ hn, columnDraws]
  split
  · next h => simp only [bufferPairs, columnByte, if_pos h]
  · rw [Nat.add_sub_cancel]

/-- Every instruction that answers a next state. -/
theorem exec_keepsAgreement {i : Instr} {s t : State} (hs : s.Inv) (ha : s.SeqAgrees) (h : exec i s = .next t) : t.SeqAgrees := by
  obtain ⟨hn, hn', -⟩ := configured_iff.1 hs.configured
  have hm := hs.bufWf
  have command {inRange : Bool} {q : List Action} :=
    acceptCommand_keepsAgreement (i := i) (inRange := inRange) (q := q) (t := t) ha
  cases i
  case init => exact command (fun _ => init_carriedOut hn) h
  case clear => exact command (fun _ => clear_carriedOut hn) h
  case setIntensity level => exact command (fun _ => setIntensity_carriedOut hn level) h
  case setColumn col v => exact command (fun hr => setColumn_carriedOut hn hn' v hr) h
  case setColumnAll col v => exact command (fun _ => setColumnAll_carriedOut hn hn' col v) h
  case updateBufferAt col row val => exact command (fun _ => updateBufferAt_carriedOut col row val) h
  case setDot col row val =>
    exact command (fun hr => setDot_carriedOut hn hn' val hm (columnInRange_of_pixelInRange hr)) h
  case shiftLeft r f => exact command (fun _ => shiftLeft_carriedOut hn hn' r f hm) h
  case shiftRight r f => exact command (fun _ => shiftRight_carriedOut hn hn' r f hm) h
  case shiftUp r => exact command (fun _ => shiftUp_carriedOut hn hn' r hm) h
  case shiftDown r => exact command (fun _ => shiftDown_carriedOut hn hn' r hm) h
  case reload => exact command (fun _ => reload_carriedOut hn hn') h
  case serMsb v => exact serRequest_keepsAgreement ha h
  case serLsb v => exact serRequest_keepsAgreement ha h
  case bcSame a v => exact bcRequest_keepsAgreement hs.configured ha (bcPairAt_same _ _ a v _) h
  case bcAddr k a v => exact bcRequest_keepsAgreement hs.configured ha (bcPairAt_addressed _ _ k a v _ hn') h
  case bcBuf a => exact bcRequest_keepsAgreement hs.configured ha (bcPairAt_drawn _ _ a _ hn') h

theorem acceptIllegal_keepsAgreement {s t : State} (ha : s.SeqAgrees) (h : acceptIllegal s = .next t) : t.SeqAgrees := by
  rcases acceptIllegal_cases s with ⟨-, he⟩ | ⟨-, -, he⟩ | ⟨-, -, he⟩ <;> rw [he] at h <;> cases h <;>
    exact ⟨ha.actions, ha.idleAfter⟩

/-- The machines do not look at the host's moves. -/
theorem State.SeqAgrees.withInputs {s : State} (h : s.SeqAgrees) (ms : List HostMove) : { s with inputs := ms }.SeqAgrees :=
  ⟨h.actions, h.idleAfter⟩

theorem hostStep_keepsAgreement {s t : State} (hs : s.Inv) (ha : s.SeqAgrees)
    (hn : ∀ strap rest, s.inputs ≠ .reset strap :: rest) (h : hostStep s = .next t) : t.SeqAgrees := by
  rcases hostStep_cases hn with he | ⟨p, rest, i, -, -, -, he⟩ | ⟨w, rest, e, -, -, -, he⟩ | ⟨w, rest, e, -, -, -, he⟩ <;>
    rw [he] at h
  · cases h
    exact ha.withInputs _
  · exact exec_keepsAgreement (hs.withInputs rest) (ha.withInputs rest) h
  · exact acceptIllegal_keepsAgreement (ha.withInputs rest) h
  · cases h

/-- The machines perform the action that is next in the queue, and agree with what is left of it. -/
theorem State.SeqAgrees.afterAction {s u : State} {a : Action} {rest : List Action} (h : s.SeqAgrees) (hq : s.queue = a :: rest)
    (hbuf : u.buf = bufAfter a s.buf) (hc : u.config = s.config) (hn : u.chainLen = s.chainLen) (hd : u.draws = s.draws) :
    (s.afterAction u rest).SeqAgrees := by
  obtain ⟨actions, idle⟩ := h
  rw [State.unrolled, hq] at actions idle
  simp only [List.length_cons, seqUnroll] at actions idle
  cases advance : seqAdvance s.config s.chainLen s.buf s.draws s.seqRegs with
  | none => simp [advance] at actions
  | some m =>
    obtain ⟨a', q⟩ := m
    simp only [advance, List.cons.injEq] at actions idle
    obtain ⟨rfl, later⟩ := actions
    refine seqAgrees_of_unroll rfl ?_ ?_ <;>
      simp only [afterAction_config, afterAction_chainLen, afterAction_draws, afterAction_buf, afterAction_seqRegs,
        afterAction_queue, advanceSeq_eq advance, hbuf, hc, hn, hd]
    · exact later
    · exact idle

theorem step_keepsAgreement {s t : State} (hs : s.Inv) (ha : s.SeqAgrees) (h : step s = .next t) : t.SeqAgrees := by
  rcases step_next h with ⟨strap, rest, -, -, rfl⟩ | ⟨hn, ⟨e, rest, hq, rfl⟩ | ⟨i, v, rest, hq, -, rfl⟩ | ⟨-, hh⟩⟩
  · exact seqAgrees_of_idle rfl rfl
  · exact ha.afterAction hq (emit_buf e s) (emit_config e s) (emit_chainLen e s) (emit_draws e s)
  · exact ha.afterAction hq rfl rfl rfl rfl
  · exact hostStep_keepsAgreement hs ha hn hh

end Sys2Proof.Machine

open Sys2Proof Sys2Proof.Machine

/-- Settles O35: `step_next` says what a step can be. An action performed takes the machines one action on; the acceptance of an
instruction starts them so that they perform its action list, the driver move by move (`Drives`, `CarriesOut`); a reset leaves
nothing pending and the machines idle. -/
theorem referenceMachinesFollowTheQueue : Obligations.ReferenceMachinesFollowTheQueue := fun _ _ hs ha h =>
  step_keepsAgreement hs ha h
end

section
/-! PROOFS. The driver's own commands (44_driver_ops.md R111 to R113): what `RELOAD`, `INIT` and `SET_INTENSITY` send, and what they
leave in the framebuffer and on the lines. -/

namespace Sys2Proof.Machine

/-- A command that only sends, presented to a ready block: the framebuffer stays, and its events are appended to the trace. -/
theorem State.Ready.sends {s : State} (hs : s.Ready) {i : Instr} {es : List PinEvent} (hes : Settles (pins es)) :
    ∃ t u, acceptCommand i true (pins es) s = .next t ∧ CompletesTo t u ∧ SameSettings s u ∧ u.buf = s.buf ∧
      t.queue = pins es ∧ u.trace = s.trace ++ es ∧ u.latches = s.latches.afterAll es := by
  obtain ⟨t, u, ht, hq, hdone, he, -⟩ := hs.performs (i := i) rfl hes
  exact ⟨t, u, ht, hdone, he.settings, by simpa using he.buf, hq, by simpa using he.trace, by simpa using he.latches⟩

/-- The frames of `INIT` before its buffer writes, after the opening event: the global registers, then the columns of `CLEAR`. -/
theorem initOpening_clearEvents (cfg : Config) (n : Nat) : initOpening cfg n ++ clearEvents n = .c true ::
    ([(cfg.regScanLimit, 7), (cfg.regDecodeMode, 0), (cfg.regShutdown, 1), (cfg.regDisplayTest, 0),
      (1, 0), (2, 0), (3, 0), (4, 0), (5, 0), (6, 0), (7, 0), (8, 0)] : List Pair).flatMap
      (fun p => frameEvents (List.replicate n p)) := by
  simp [initOpening, clearEvents, samePairs, regAddr, List.range, List.range.loop]

/-- The whole action list of `INIT` (R112). -/
theorem settles_init (cfg : Config) {n : Nat} (hn : 1 ≤ n) :
    Settles (pins (initOpening cfg n) ++ clearActions n ++ pins (intensityEvents cfg n 0x0F)) :=
  ((settles_initOpening cfg hn).append (settles_clear hn)).append (settles_frame (samePairs_ne hn))

/-- `INIT` from a ready block: the framebuffer blank, and the lines as its last frame leaves them. -/
theorem init_completes {s : State} (hs : s.Ready) :
    ∃ t u, exec .init s = .next t ∧ CompletesTo t u ∧ SameSettings s u ∧ (∀ j, Memory.read u.buf j = 0) ∧
      t.queue = pins (initOpening s.config s.chips ++ clearEvents s.chips) ++ writes clearWrites ++
        pins (intensityEvents s.config s.chips 0x0F) ∧
      u.trace = s.trace ++ (initOpening s.config s.chips ++ clearEvents s.chips) ++ intensityEvents s.config s.chips 0x0F ∧
      u.load = .high ∧ u.clk = .low ∧ u.data = .high := by
  obtain ⟨hn, -⟩ := chips_bounds hs
  obtain ⟨t, u, ht, hq, hdone, he, -⟩ := hs.performs (i := .init) rfl (settles_init s.config hn)
  have blank : u.buf = Memory.writeAll s.buf clearWrites := by simpa [clearActions] using he.buf
  have trace := he.trace
  have latches := he.latches
  simp only [eventsOf_append, eventsOf_pins, eventsOf_clearActions] at trace latches
  rw [afterAll_append] at latches
  refine ⟨t, u, ht, hdone, he.settings, fun j => ?_, ?_, ?_, ?_, ?_, ?_⟩
  · rw [blank, read_clearWrites hs.inv.bufWf]
  · rw [hq]
    simp [pins, clearActions]
  · rw [trace, List.append_assoc s.trace]
  · exact (congrArg Levels.load latches).trans (afterAll_frameEvents_load _ _)
  · exact (congrArg Levels.clk latches).trans (afterAll_frameEvents_clk _ _ (samePairs_ne hn))
  · have bit : u.data = Level.ofBool ((0x0F : Byte).getLsbD 0) :=
      (congrArg Levels.data latches).trans (afterAll_frameEvents_data _ _ (s.config.regIntensity, 0x0F) (samePairs_getLast hn))
    rw [bit]
    decide

end Sys2Proof.Machine

open Sys2Proof Sys2Proof.Machine

/-- Settles O25: `RELOAD` only sends (`State.Ready.sends`), and after its frames the lines are as R87 (d) says. -/
theorem reloadSendsTheActiveWindow : Obligations.ReloadSendsTheActiveWindow := by
  intro s hs
  obtain ⟨hn, -⟩ := chips_bounds hs
  obtain ⟨t, u, ht, hdone, hset, hbuf, hq, htrace, hlatches⟩ := hs.sends (i := .reload) (settles_reload s.buf hn)
  exact ⟨decode_encode .reload, t, u, _, ht, hdone, hset, hbuf, rfl, hq, htrace,
    (congrArg Levels.load hlatches).trans (afterAll_reloadEvents_load _ _ _),
    (congrArg Levels.clk hlatches).trans (afterAll_reloadEvents_clk _ _ hn)⟩

/-- Settles O26: the actions and the end of `INIT` (`init_completes`), its frames written out (`initOpening_clearEvents`). -/
theorem initSendsThePowerUpSequence : Obligations.InitSendsThePowerUpSequence := by
  intro s hs
  obtain ⟨t, u, ht, hdone, hset, hblank, hq, htrace, hlines⟩ := init_completes hs
  exact ⟨decode_encode .init, t, u, _, _, ht, hdone, hset, hblank, initOpening_clearEvents _ _, rfl, hq, htrace, hlines⟩

/-- Settles O27: as O25, with the one frame of R113. -/
theorem setIntensitySendsTheLevelUnchanged : Obligations.SetIntensitySendsTheLevelUnchanged := by
  intro s level hs
  have hpairs : samePairs s.chips s.config.regIntensity level ≠ [] := samePairs_ne (chips_bounds hs).1
  obtain ⟨t, u, ht, hdone, hset, hbuf, hq, htrace, hlatches⟩ := hs.sends (i := .setIntensity level) (settles_frame hpairs)
  exact ⟨decode_encode (.setIntensity level), t, u, _, ht, hdone, hset, hbuf, rfl, hq, htrace,
    (congrArg Levels.load hlatches).trans (afterAll_frameEvents_load _ _),
    (congrArg Levels.clk hlatches).trans (afterAll_frameEvents_clk _ _ hpairs)⟩
end

section
/-! PROOFS. The block's faults (60_exceptions.md R120 to R125): which operands and which words raise one, that nothing else changes
the fault code, and that only a reset ends a fault. -/

namespace Sys2Proof.Machine

/-! ### Operands in range and out of range (R122) -/

/-- What `OperandRange` means for an instruction `i` presented in `s`, when its operands are out of range exactly if `bad`: the fault
before any effect, or acceptance with actions to perform. -/
def FaultsExactlyWhen (bad : Prop) (i : Instr) (s : State) : Prop :=
  (bad → exec i s = .next { s with fault := .operandRange }) ∧
  (¬ bad → ∃ t, exec i s = .next t ∧ t.fault = s.fault ∧ t.busy = true ∧ t.queue ≠ [])

theorem busyWith_of_ne_nil {q : List Action} (hq : q ≠ []) : busyWith q = true := by simpa [busyWith] using hq

section
variable {i : Instr} {s : State} (hc : s.configured = true)
include hc

/-- A command faults exactly when its range check fails. -/
theorem command_faultsExactlyWhen {bad : Prop} {inRange : Bool} {q : List Action} (ha : s.canAccept = true)
    (hi : exec i s = acceptCommand i inRange q s) (hr : inRange = true ↔ ¬ bad) (hq : q ≠ []) : FaultsExactlyWhen bad i s := by
  refine ⟨fun hbad => ?_, fun hgood => ?_⟩
  · rw [hi]
    exact acceptCommand_faults hc ha (Bool.eq_false_of_not_eq_true fun h => hr.1 h hbad)
  · rw [hi]
    exact ⟨_, acceptCommand_accepts hc ha (hr.2 hgood), rfl, busyWith_of_ne_nil hq, hq⟩

/-- A command without a range check never faults. -/
theorem command_neverFaults {q : List Action} (ha : s.canAccept = true) (hi : exec i s = acceptCommand i true q s) (hq : q ≠ []) :
    FaultsExactlyWhen False i s :=
  command_faultsExactlyWhen hc ha hi (by simp) hq

end

theorem frameEvents_ne_nil (ps : List Pair) : frameEvents ps ≠ [] := List.cons_ne_nil _ _

theorem reloadEvents_ne_nil (n : Nat) (buf : Memory) : reloadEvents n buf ≠ [] := List.cons_ne_nil _ _

theorem serEvents_ne_nil (o : BitOrder) (v : Byte) : serEvents o v ≠ [] := List.cons_ne_nil _ _

theorem pins_ne_nil {es : List PinEvent} (h : es ≠ []) : pins es ≠ [] := by simpa [pins] using h

/-- A list of writes followed by events that are none sends something. -/
theorem writes_append_pins_ne_nil (ws : List (Nat × Byte)) {es : List PinEvent} (h : es ≠ []) : writes ws ++ pins es ≠ [] :=
  List.append_ne_nil_of_right_ne_nil _ (pins_ne_nil h)

theorem shiftActions_ne_nil (n : Nat) (old : Memory) (ws : List (Nat × Byte)) : shiftActions n old ws ≠ [] :=
  writes_append_pins_ne_nil ws (reloadEvents_ne_nil n _)

theorem exec_serMsb (v : Byte) (s : State) : exec (.serMsb v) s =
    takeRequest s.serTakes (serEvents .msbFirst v) (fun q => { q with ser := serLoad .msbFirst v }) 0 s := rfl

theorem exec_serLsb (v : Byte) (s : State) : exec (.serLsb v) s =
    takeRequest s.serTakes (serEvents .lsbFirst v) (fun q => { q with ser := serLoad .lsbFirst v }) 0 s := rfl

/-- A request is taken at its port when that is free, and has events to make (40_serializer.md R70, R72, 41_broadcaster.md R81). -/
theorem exec_request {i : Instr} (hi : ∀ w, encode i ≠ .cmd w) (s : State) :
    ∃ es load drawn, exec i s = takeRequest (s.takes i) es load drawn s ∧ es ≠ [] := by
  cases i
  case serMsb v => exact ⟨_, _, _, exec_serMsb v s, serEvents_ne_nil _ _⟩
  case serLsb v => exact ⟨_, _, _, exec_serLsb v s, serEvents_ne_nil _ _⟩
  case bcSame a v => exact ⟨_, _, _, exec_bcSame a v s, frameEvents_ne_nil _⟩
  case bcAddr n a v => exact ⟨_, _, _, exec_bcAddr n a v s, frameEvents_ne_nil _⟩
  case bcBuf a => exact ⟨_, _, _, exec_bcBuf a s, frameEvents_ne_nil _⟩
  all_goals exact absurd rfl (hi _)

/-- A request never faults. -/
theorem request_neverFaults {i : Instr} {s : State} (hc : s.configured = true) (ht : s.takes i = true)
    (hi : ∀ w, encode i ≠ .cmd w) : FaultsExactlyWhen False i s := by
  obtain ⟨es, load, drawn, he, hes⟩ := exec_request hi s
  have hq := pins_ne_nil hes
  exact ⟨False.elim, fun _ => ⟨_, he.trans (takeRequest_takes hc ht), rfl, busyWith_of_ne_nil hq, hq⟩⟩

/-! ### The fault code of a step (R120) -/

/-- A request never touches the fault code (40_serializer.md R70). -/
theorem exec_request_fault {i : Instr} (hi : ∀ w, encode i ≠ .cmd w) {s t : State} (h : exec i s = .next t) : t.fault = s.fault := by
  obtain ⟨es, load, drawn, he, -⟩ := exec_request hi s
  rcases takeRequest_cases (s.takes i) es load drawn s with ⟨-, ha⟩ | ⟨-, -, ha⟩ | ⟨-, -, ha⟩ <;> rw [he, ha] at h <;> cases h <;> rfl

/-- The host's move changes the fault code only by the acceptance of a command word, which then changes nothing else. -/
theorem hostStep_faultChange {s t : State} (hn : ∀ strap rest, s.inputs ≠ .reset strap :: rest) (h : hostStep s = .next t)
    (hf : t.fault ≠ s.fault) :
    ∃ w rest, s.inputs = .command w :: rest ∧ s.fault = .none ∧ t = { s with inputs := rest, fault := t.fault } := by
  rcases hostStep_cases hn with he | ⟨p, rest, i, hi, htake, hd, he⟩ | ⟨w, rest, e, hi, hc, -, he⟩ | ⟨w, rest, e, -, -, -, he⟩ <;>
    rw [he] at h
  · cases h
    exact absurd rfl hf
  · cases p with
    | cmd w =>
      have faulted := exec_faultChange h hf
      exact ⟨w, rest, hi, (canAccept_iff.1 htake).2.1, by rw [faulted]; rfl⟩
    | ser w | bc w =>
      have request : ∀ w, encode i ≠ .cmd w := by
        rw [decode_eq_ok_iff.1 hd]
        exact nofun
      exact absurd (exec_request_fault request h) hf
  · rcases acceptIllegal_cases { s with inputs := rest } with ⟨-, ha⟩ | ⟨-, -, ha⟩ | ⟨-, -, ha⟩ <;> rw [ha] at h <;> cases h
    · exact absurd rfl hf
    · exact ⟨w, rest, hi, (canAccept_iff.1 hc).2.1, rfl⟩
  · cases h

/-- The whole of how a step can change the fault code: a reset clears it, and the acceptance of a command word sets it and changes
nothing else. -/
theorem step_faultChange {s t : State} (h : step s = .next t) (hf : t.fault ≠ s.fault) :
    (∃ strap rest, s.inputs = .reset strap :: rest ∧ t.fault = .none) ∨
    (∃ w rest, s.inputs = .command w :: rest ∧ s.fault = .none ∧ t = { s with inputs := rest, fault := t.fault }) := by
  rcases step_next h with ⟨strap, rest, hi, -, rfl⟩ | ⟨hn, ⟨e, rest, -, rfl⟩ | ⟨i, v, rest, -, -, rfl⟩ | ⟨-, hh⟩⟩
  · exact .inl ⟨strap, rest, hi, rfl⟩
  · exact absurd (by simp) hf
  · exact absurd rfl hf
  · exact .inr (hostStep_faultChange hn hh hf)

/-! ### Resets and illegal words -/

/-- An asserted reset is the whole step, whatever the block is doing (70_reset_and_hazards.md R141). -/
theorem step_of_reset {s : State} {strap : BitVec 4} {rest : List HostMove} (hi : s.inputs = .reset strap :: rest) :
    step s = resetBlock strap rest s := by
  rcases step_cases s with ⟨strap', rest', hi', hs⟩ | ⟨hn, -⟩
  · rw [hi] at hi'
    cases hi'
    exact hs
  · exact absurd hi (hn strap rest)

/-- A word that no row selects does not decode (30_encoding.md R52, R60). -/
theorem decode_error_of_no_row {w : CmdWord} (hw : ∀ r ∈ opcodeRows, r.selects w = false) : ∃ e, decode (.cmd w) = .error e := by
  cases hd : decode (.cmd w) with
  | error e => exact ⟨e, rfl⟩
  | ok i =>
    obtain ⟨r, hr, hs, -⟩ := row_of_encode (decode_eq_ok_iff.1 hd)
    rw [hw r hr] at hs
    cases hs

/-- A command word that is accepted and does not decode is taken off the port and run as illegal. -/
theorem hostStep_of_command_error {s : State} {w : CmdWord} {rest : List HostMove} {e : Reject}
    (hi : s.inputs = .command w :: rest) (ha : s.canAccept = true) (hd : decode (.cmd w) = .error e) :
    hostStep s = acceptIllegal { s with inputs := rest } := by
  simp only [hostStep, hi, ha, if_true, runCommandWord, hd]

/-- That raises `IllegalCommand` and has no other effect (R121). -/
theorem acceptIllegal_raises {s : State} (hc : s.configured = true) (ha : s.canAccept = true) :
    acceptIllegal s = .next { s with fault := .illegalCommand } := by
  simp only [acceptIllegal, hc, ha, Bool.true_eq_false, if_false]
  rfl

/-! ### A faulted block (R120, R125) -/

section
variable {s : State} (hf : s.fault ≠ .none)
include hf

theorem not_cmdReady_of_faulted : s.cmdReady = false := by simp [State.cmdReady, hf]

theorem not_canAccept_of_faulted : s.canAccept = false := by simp [State.canAccept, not_cmdReady_of_faulted hf]

/-- No step but a reset changes the fault code of a faulted block. -/
theorem fault_stays {t : State} (hn : ∀ strap rest, s.inputs ≠ .reset strap :: rest) (h : step s = .next t) : t.fault = s.fault := by
  by_contra hne
  rcases step_faultChange h hne with ⟨strap, rest, hi, -⟩ | ⟨w, rest, -, hnone, -⟩
  · exact hn strap rest hi
  · exact hf hnone

/-- No step but a reset changes the framebuffer of a faulted block: it has no write pending. -/
theorem buf_stays_of_faulted {t : State} (hs : s.Inv) (hn : ∀ strap rest, s.inputs ≠ .reset strap :: rest) (h : step s = .next t) :
    t.buf = s.buf := by
  rcases step_next h with ⟨strap, rest, hi, -⟩ | ⟨-, ⟨e, rest, -, rfl⟩ | ⟨i, v, rest, hq, -⟩ | ⟨-, hh⟩⟩
  · exact absurd hi (hn strap rest)
  · simp
  · exact absurd (hs.faultNoWrite hf) (by simp [hq])
  · exact (hostStep_sameOutputs hn hh).buf

/-- With nothing pending and no request taken a faulted block does nothing. -/
theorem step_quiet_of_faulted (hn : ∀ strap rest, s.inputs ≠ .reset strap :: rest) (hq : s.queue = [])
    (hp : ∀ p rest, s.inputs = presents p :: rest → (∃ w, p = .cmd w) ∨ s.takesWord p = false) :
    step s = .next { s with inputs := afterWait s.inputs } := by
  rw [step_of_queue_nil hq]
  refine hostStep_quiet hn fun p rest hi => ?_
  rcases hp p rest hi with ⟨w, rfl⟩ | hnot
  · exact not_canAccept_of_faulted hf
  · exact hnot

end

end Sys2Proof.Machine

open Sys2Proof Sys2Proof.Machine

/-- Settles O38, instruction by instruction: a command faults exactly when its range check fails, and a request never does. -/
theorem operandRangeIsRaisedBeforeAnyEffect : Obligations.OperandRangeIsRaisedBeforeAnyEffect := by
  intro i s hc ht
  show FaultsExactlyWhen _ i s
  cases i
  case setColumn col v => exact command_faultsExactlyWhen hc ht rfl (columnInRange_iff.trans not_le.symm) (List.cons_ne_nil _ _)
  case setColumnAll col v =>
    exact command_faultsExactlyWhen hc ht rfl (localColumnInRange_iff.trans not_le.symm)
      (writes_append_pins_ne_nil _ (frameEvents_ne_nil _))
  case updateBufferAt col row val | setDot col row val =>
    exact command_faultsExactlyWhen hc ht rfl (pixelInRange_iff.trans (by omega)) (List.cons_ne_nil _ _)
  case init | clear | setIntensity => exact command_neverFaults hc ht rfl (List.cons_ne_nil _ _)
  case reload => exact command_neverFaults hc ht rfl (pins_ne_nil (reloadEvents_ne_nil _ _))
  case shiftLeft | shiftRight | shiftUp | shiftDown => exact command_neverFaults hc ht rfl (shiftActions_ne_nil _ _ _)
  case serMsb | serLsb | bcSame | bcAddr | bcBuf => exact request_neverFaults hc ht nofun

/-- Settles O39: such a word does not decode, and the step that accepts it raises the fault (`acceptIllegal_raises`). -/
theorem illegalWordRaisesIllegalCommand : Obligations.IllegalWordRaisesIllegalCommand := by
  intro s w rest hi hc ha hw
  obtain ⟨e, hd⟩ := decode_error_of_no_row hw
  rw [step_of_queue_nil (canAccept_iff.1 ha).2.2, hostStep_of_command_error hi ha hd]
  exact acceptIllegal_raises hc ha

/-- Settles O41, by the whole of how a step can change the fault code (`step_faultChange`). -/
theorem faultsArePrecise : Obligations.FaultsArePrecise := fun _ _ => step_faultChange

/-- Settles O40: but for a reset a faulted block keeps its code (`fault_stays`) and its framebuffer (`buf_stays_of_faulted`), and does
nothing of itself (`step_quiet_of_faulted`). -/
theorem faultIsStickyUntilReset : Obligations.FaultIsStickyUntilReset := by
  intro s hs hf
  refine ⟨not_cmdReady_of_faulted hf, fun hn => ⟨fun t h => ⟨fault_stays hf hn h, buf_stays_of_faulted hf hs hn h⟩,
    step_quiet_of_faulted hf hn⟩, fun strap rest hi hlo hhi => ?_⟩
  rw [step_of_reset hi, resetBlock_eq, if_pos (strapLegal_iff.2 ⟨hlo, hhi⟩)]
  exact ⟨_, rfl, rfl, fun _ => rfl⟩

/-- Settles O43: the reset is the whole step (`step_of_reset`), and its strap is no configuration. -/
theorem illegalStrapIsRefused : Obligations.IllegalStrapIsRefused := by
  intro s strap rest hi hl
  rw [step_of_reset hi, resetBlock_eq, if_neg (mt strapLegal_iff.1 hl)]
end

section
/-! PROOFS. Pin writes that can fail (60_exceptions.md R124): the block does not see whether they do, and what the wires are then. -/

namespace Sys2Proof.Machine

/-! ### The block does not look at `PIN_CAN_FAIL` (R124, 40_serializer.md R76) -/

@[simp] theorem withPinCanFail_configured (s : State) (b : Bool) : (s.withPinCanFail b).configured = s.configured := rfl
@[simp] theorem withPinCanFail_canAccept (s : State) (b : Bool) : (s.withPinCanFail b).canAccept = s.canAccept := rfl
@[simp] theorem withPinCanFail_inputs (s : State) (b : Bool) : (s.withPinCanFail b).inputs = s.inputs := rfl
@[simp] theorem withPinCanFail_queue (s : State) (b : Bool) : (s.withPinCanFail b).queue = s.queue := rfl

theorem withPinCanFail_emit (e : PinEvent) (s : State) (b : Bool) : emit e (s.withPinCanFail b) = (emit e s).withPinCanFail b := by
  cases e <;> rfl

/-- Nor do the reference machines look at it, which a step that performs an action takes one action on. -/
theorem withPinCanFail_afterAction (s u : State) (rest : List Action) (b : Bool) :
    (s.withPinCanFail b).afterAction (u.withPinCanFail b) rest = (s.afterAction u rest).withPinCanFail b := rfl

/-- A broadcaster's word without meaning is refused (30_encoding.md R64). -/
theorem hostStep_of_bc_error {s : State} {w : BcWord} {rest : List HostMove} {e : Reject} (hi : s.inputs = .bcRequest w :: rest)
    (ht : s.bcTakes = true) (hd : decode (.bc w) = .error e) : hostStep s = .refused .requestWithoutMeaning := by
  simp only [hostStep, hi, ht, if_true, runRequestWord, hd]

section
variable (b : Bool) {s t : State}

theorem acceptCommand_withPinCanFail {i : Instr} {inRange : Bool} {q : List Action}
    (h : acceptCommand i inRange q s = .next t) :
    acceptCommand i inRange q (s.withPinCanFail b) = .next (t.withPinCanFail b) := by
  rcases acceptCommand_cases i inRange q s with ⟨-, ha⟩ | ⟨hc, hn, ha⟩ | ⟨hc, hn, hr, ha⟩ | ⟨hc, hn, hr, ha⟩ <;> rw [ha] at h <;>
    cases h
  · simp [acceptCommand, hc, hn]
  · exact acceptCommand_faults (s := s.withPinCanFail b) hc hn hr
  · exact acceptCommand_accepts (s := s.withPinCanFail b) hc hn hr

theorem takeRequest_withPinCanFail {free : Bool} {es : List PinEvent} {load : SeqRegs → SeqRegs} {drawn : Nat}
    (h : takeRequest free es load drawn s = .next t) :
    takeRequest free es load drawn (s.withPinCanFail b) = .next (t.withPinCanFail b) := by
  rcases takeRequest_cases free es load drawn s with ⟨-, ha⟩ | ⟨hc, hn, ha⟩ | ⟨hc, hn, ha⟩ <;> rw [ha] at h <;> cases h
  · simp [takeRequest, hc, hn]
  · exact takeRequest_takes (s := s.withPinCanFail b) hc hn

/-- An action list and a range check do not depend on the parameter, so neither does an instruction. -/
theorem exec_withPinCanFail {i : Instr} (h : exec i s = .next t) : exec i (s.withPinCanFail b) = .next (t.withPinCanFail b) := by
  cases i
  case serMsb | serLsb | bcSame | bcAddr | bcBuf =>
    simp only [exec_serMsb, exec_serLsb, exec_bcSame, exec_bcAddr, exec_bcBuf] at h
    exact takeRequest_withPinCanFail b h
  all_goals exact acceptCommand_withPinCanFail b h

theorem acceptIllegal_withPinCanFail (h : acceptIllegal s = .next t) :
    acceptIllegal (s.withPinCanFail b) = .next (t.withPinCanFail b) := by
  rcases acceptIllegal_cases s with ⟨-, ha⟩ | ⟨hc, hn, ha⟩ | ⟨hc, hn, ha⟩ <;> rw [ha] at h <;> cases h
  · simp [acceptIllegal, hc, hn]
  · exact acceptIllegal_raises (s := s.withPinCanFail b) hc hn

theorem hostStep_withPinCanFail (hn : ∀ strap rest, s.inputs ≠ .reset strap :: rest) (h : hostStep s = .next t) :
    hostStep (s.withPinCanFail b) = .next (t.withPinCanFail b) := by
  by_cases hp : ∀ p rest, s.inputs = presents p :: rest → s.takesWord p = false
  · rw [hostStep_quiet hn hp] at h
    cases h
    exact hostStep_quiet (s := s.withPinCanFail b) hn hp
  · push Not at hp
    obtain ⟨p, rest, hi, ht⟩ := hp
    have ht : s.takesWord p = true := by simpa using ht
    cases hd : decode p with
    | ok i =>
      rw [hostStep_runs hi ht hd] at h
      exact (hostStep_runs (s := s.withPinCanFail b) hi ht hd).trans (exec_withPinCanFail b h)
    | error e =>
      cases p with
      | cmd w =>
        rw [hostStep_of_command_error hi ht hd] at h
        exact (hostStep_of_command_error (s := s.withPinCanFail b) hi ht hd).trans (acceptIllegal_withPinCanFail b h)
      | ser w =>
        obtain ⟨i, hok⟩ := decode_ser w
        cases hok.symm.trans hd
      | bc w =>
        rw [hostStep_of_bc_error hi ht hd] at h
        cases h

theorem step_withPinCanFail (h : step s = .next t) : step (s.withPinCanFail b) = .next (t.withPinCanFail b) := by
  rcases step_next h with ⟨strap, rest, hi, hl, rfl⟩ | ⟨hn, ⟨e, rest, hq, rfl⟩ | ⟨i, v, rest, hq, hi, rfl⟩ | ⟨hq, hh⟩⟩
  · rw [step_of_reset (s := s.withPinCanFail b) hi, resetBlock_eq, if_pos hl]
    rfl
  · rw [step_of_queue_cons (s := s.withPinCanFail b) hn hq, performNext_pin, withPinCanFail_emit, withPinCanFail_afterAction]
  · rw [step_of_queue_cons (s := s.withPinCanFail b) hn hq, performNext_wr v rest _ hi]
    rfl
  · exact (step_of_queue_nil (s := s.withPinCanFail b) hq).trans (hostStep_withPinCanFail b hn hh)

end

/-! ### The wires (10_state.md R13, 92_eei_decisions.md D19) -/

/-- The wires after one more event: the request of that event, with the environment's draw for it, on the wires before. -/
theorem wires_emit (e : PinEvent) (s : State) (drawn : Nat → Option Level) :
    (emit e s).wires drawn = (s.wires drawn).request s.config.pinCanFail (drawn s.trace.length) e := by
  rw [State.wires, emit_config, emit_trace, wiresFrom_append, Nat.zero_add]
  rfl

/-- Where no write can fail the wires are the latches. -/
theorem wires_eq_latches {s : State} (hs : s.Inv) (hc : s.config.pinCanFail = false) (drawn : Nat → Option Level) :
    s.wires drawn = s.latches := by
  rw [State.wires, hc, wiresFrom_cannot_fail, hs.latchesOfTrace]

end Sys2Proof.Machine

open Sys2Proof Sys2Proof.Machine

/-- Settles O48, operation by operation (`step_withPinCanFail`). -/
theorem pinFailuresAreInvisibleToTheBlock : Obligations.PinFailuresAreInvisibleToTheBlock := fun _ _ b h => step_withPinCanFail b h

/-- Settles O49: without failures the wires are the latches (`wires_eq_latches`), and one more event is one more request on them
(`wires_emit`), which drives the wire of its own pin alone. -/
theorem wiresFollowTheLatches : Obligations.WiresFollowTheLatches := by
  intro s drawn hs
  refine ⟨fun hc => wires_eq_latches hs hc drawn, fun hc e => ⟨fun hd => ?_, fun l hd => ?_⟩⟩ <;> rw [wires_emit, hd, hc]
  · rw [request_carried]
  · rw [request_failed]
    cases e <;> rfl
end

section
/-! PROOFS. The display image (60_exceptions.md R131 to R133): what the frames of each instruction leave on it. -/

namespace Sys2Proof.Machine

/-! ### Outside a frame -/

/-- No frame is open on the bus while nothing is pending, faulted or not. -/
theorem outside_frame {s : State} (hs : s.Inv) (hq : s.queue = []) : (Observer.start.seeAll s.chips s.trace).frame = none :=
  ready_outside_frame (s := { s with fault := .none, inputs := [] })
    ⟨{ hs with faultNoWrite := fun h => absurd rfl h }, canAccept_iff.2 ⟨by rw [hs.busyIff, hq]; rfl, rfl, hq⟩, rfl⟩

/-- What an observer outside a frame, with the image `img` so far, has as the image after the events `es`. -/
def imageAfter (n : Nat) (img : Image) (es : List PinEvent) : Image := ((Observer.mk none img).seeAll n es).image

@[simp] theorem imageAfter_nil (n : Nat) (img : Image) : imageAfter n img [] = img := rfl

/-- A clock event outside a frame changes nothing. -/
@[simp] theorem imageAfter_clock (n : Nat) (img : Image) (b : Bool) (es : List PinEvent) :
    imageAfter n img (.c b :: es) = imageAfter n img es := rfl

/-- The cells of a serializer's request are no frame and change nothing (log 15). -/
theorem imageAfter_serEvents (n : Nat) (img : Image) (o : BitOrder) (v : Byte) : imageAfter n img (serEvents o v) = img := rfl

/-- A frame of one pair for each chip latches its pairs, and what comes after is outside a frame again. -/
theorem imageAfter_frame_append {n : Nat} {ps : List Pair} (hps : ps.length = n) (img : Image) (es : List PinEvent) :
    imageAfter n img (frameEvents ps ++ es) = imageAfter n (Image.latch ps img) es := by
  subst hps
  rw [imageAfter, seeAll_append, seeAll_frameEvents]
  rfl

theorem imageAfter_frame {n : Nat} {ps : List Pair} (hps : ps.length = n) (img : Image) :
    imageAfter n img (frameEvents ps) = Image.latch ps img := by
  rw [← List.append_nil (frameEvents ps), imageAfter_frame_append hps, imageAfter_nil]

/-- The image at the end of an instruction is the image before it with the events sent. -/
theorem EndsWith.image_eq {s u : State} {q : List Action} (he : EndsWith s q u) (hs : s.Inv) (hq : s.queue = []) :
    u.image = imageAfter s.chips s.image (eventsOf q) := by
  have before : Observer.start.seeAll s.chips s.trace = ⟨none, s.image⟩ := by
    rw [← outside_frame hs hq]
    rfl
  rw [State.image, he.settings.chips, he.trace, seeAll_append, before]
  rfl

/-! ### Frames that set one register of every chip (41_broadcaster.md R82, R85) -/

/-- The pairs of a frame that gives the register `a` of chip `i` the value `f i`. -/
def registerPairs (n : Nat) (a : Byte) (f : Nat → Byte) : List Pair := (List.range n).map fun i => (a, f i)

theorem samePairs_eq_registerPairs (n : Nat) (a v : Byte) : samePairs n a v = registerPairs n a fun _ => v := by
  rw [registerPairs, List.map_const', List.length_range, samePairs]

theorem bufferPairs_eq_registerPairs (n : Nat) (buf : Memory) (draw : Nat) (a : Byte) :
    bufferPairs n buf draw a = registerPairs n a (columnByte buf draw a) := rfl

theorem length_registerPairs (n : Nat) (a : Byte) (f : Nat → Byte) : (registerPairs n a f).length = n := by simp [registerPairs]

theorem latch_registerPairs (n : Nat) (a : Byte) (f : Nat → Byte) (img : Image) (i : Nat) (a' : Byte) :
    Image.latch (registerPairs n a f) img i a' = if i < n ∧ a' = a ∧ a ≠ 0 then some (f i) else img i a' := by
  rw [latch_at]
  by_cases hi : i < n
  · by_cases ha : a = a'
    · simp [registerPairs, hi, ha]
    · simp [registerPairs, hi, ha, Ne.symm ha]
  · simp [registerPairs, hi]

theorem latch_addressedPairs (n t : Nat) (a v : Byte) (img : Image) (i : Nat) (a' : Byte) :
    Image.latch (addressedPairs n t a v) img i a' = if i < n ∧ i = t ∧ a' = a ∧ a ≠ 0 then some v else img i a' := by
  rw [latch_at, addressedPairs_at]
  by_cases hi : i < n
  · by_cases ht : i = t
    · subst ht
      by_cases ha : a = a'
      · simp [hi, ha]
      · simp [hi, ha, Ne.symm ha]
    · have noOperation : ¬ (0 = a' ∧ a' ≠ 0) := fun ⟨h, h'⟩ => h' h.symm
      simp only [hi, ht, if_true, if_false, noOperation, false_and, and_false]
  · simp [hi]

/-- The image after the broadcast of one pair. -/
theorem imageAfter_same (n : Nat) (a v : Byte) (img : Image) (i : Nat) (a' : Byte) :
    imageAfter n img (frameEvents (samePairs n a v)) i a' = if i < n ∧ a' = a ∧ a ≠ 0 then some v else img i a' := by
  rw [samePairs_eq_registerPairs, imageAfter_frame (length_registerPairs _ _ _), latch_registerPairs]

/-- Frames one after the other, each by the register it sets and the value for each chip. -/
def registerFrames (n : Nat) (rs : List (Byte × (Nat → Byte))) : List PinEvent :=
  rs.flatMap fun r => frameEvents (registerPairs n r.1 r.2)

section
variable {n : Nat} {rs : List (Byte × (Nat → Byte))} {i : Nat} {a : Byte}

/-- A register that no frame sets stays as it was. -/
theorem imageAfter_registerFrames_other (ha : a ∉ rs.map Prod.fst) (img : Image) :
    imageAfter n img (registerFrames n rs) i a = img i a := by
  induction rs generalizing img with
  | nil => rfl
  | cons r rs ih =>
    obtain ⟨hr, hrs⟩ := List.ne_and_not_mem_of_not_mem_cons ha
    rw [registerFrames, List.flatMap_cons, imageAfter_frame_append (length_registerPairs _ _ _)]
    refine (ih hrs _).trans ?_
    rw [latch_registerPairs, if_neg fun h => hr h.2.1]

/-- Frames for different registers show, for each, the value that its frame carries. -/
theorem imageAfter_registerFrames {f : Nat → Byte} (hd : (rs.map Prod.fst).Nodup) (hf : (a, f) ∈ rs) (ha : a ≠ 0) (hi : i < n)
    (img : Image) : imageAfter n img (registerFrames n rs) i a = some (f i) := by
  induction rs generalizing img with
  | nil => cases hf
  | cons r rs ih =>
    obtain ⟨hr, hrs⟩ := List.nodup_cons.1 hd
    rw [registerFrames, List.flatMap_cons, imageAfter_frame_append (length_registerPairs _ _ _)]
    rcases List.mem_cons.1 hf with rfl | hf
    · refine (imageAfter_registerFrames_other hr _).trans ?_
      rw [latch_registerPairs, if_pos ⟨hi, rfl, ha⟩]
    · exact ih hrs hf _

end

/-! ### The frames of the commands -/

theorem regAddr_ne_zero {k : Nat} (hk : k < 8) : regAddr k ≠ 0 := by
  intro h
  have address := regAddr_toNat hk
  rw [h] at address
  cases address

/-- For each local column `k` the frame that carries the byte `g i k` to chip `i`. -/
def columnFrames (g : Nat → Nat → Byte) : List (Byte × (Nat → Byte)) := (List.range 8).map fun k => (regAddr k, fun i => g i k)

theorem columnFrames_regs (g : Nat → Nat → Byte) : (columnFrames g).map Prod.fst = (List.range 8).map regAddr := List.map_map

theorem mem_columnFrames (g : Nat → Nat → Byte) {k : Nat} (hk : k < 8) : (regAddr k, fun i => g i k) ∈ columnFrames g :=
  List.mem_map.2 ⟨k, List.mem_range.2 hk, rfl⟩

theorem reloadEvents_eq_registerFrames (n : Nat) (buf : Memory) :
    reloadEvents n buf = registerFrames n (columnFrames fun i k => Memory.read buf (i * 8 + k)) := by
  rw [registerFrames, columnFrames, List.flatMap_map]
  rfl

theorem clearEvents_eq_registerFrames (n : Nat) : clearEvents n = registerFrames n (columnFrames fun _ _ => 0) := by
  simp only [registerFrames, columnFrames, List.flatMap_map, ← samePairs_eq_registerPairs]
  rfl

section
variable {n i k : Nat} (hi : i < n) (hk : k < 8) (img : Image)
include hi hk

theorem imageAfter_columnFrames (g : Nat → Nat → Byte) :
    imageAfter n img (registerFrames n (columnFrames g)) i (regAddr k) = some (g i k) := by
  have different : ((columnFrames g).map Prod.fst).Nodup := by
    rw [columnFrames_regs]
    decide
  exact imageAfter_registerFrames different (mem_columnFrames g hk) (regAddr_ne_zero hk) hi img

/-- The image after `RELOAD`'s frames is the active window (44_driver_ops.md R111). -/
theorem imageAfter_reloadEvents (buf : Memory) :
    imageAfter n img (reloadEvents n buf) i (regAddr k) = some (Memory.read buf (i * 8 + k)) := by
  rw [reloadEvents_eq_registerFrames, imageAfter_columnFrames hi hk]

theorem imageAfter_clearEvents : imageAfter n img (clearEvents n) i (regAddr k) = some 0 := by
  rw [clearEvents_eq_registerFrames, imageAfter_columnFrames hi hk]

end

/-- The frames of `INIT`, by the register each sets on every chip (R112): four global registers, the columns, the intensity. -/
def initFrames (cfg : Config) : List (Byte × (Nat → Byte)) :=
  [(cfg.regScanLimit, fun _ => 7), (cfg.regDecodeMode, fun _ => 0), (cfg.regShutdown, fun _ => 1), (cfg.regDisplayTest, fun _ => 0)] ++
    columnFrames (fun _ _ => 0) ++ [(cfg.regIntensity, fun _ => 15)]

theorem mem_initFrames_column (cfg : Config) {k : Nat} (hk : k < 8) : (regAddr k, fun _ => 0) ∈ initFrames cfg := by
  rw [initFrames, List.mem_append, List.mem_append]
  exact .inl (.inr (mem_columnFrames (fun _ _ => 0) hk))

theorem initEvents_eq_registerFrames (cfg : Config) (n : Nat) :
    initOpening cfg n ++ clearEvents n ++ intensityEvents cfg n 0x0F = .c true :: registerFrames n (initFrames cfg) := by
  rw [clearEvents_eq_registerFrames]
  simp [initOpening, intensityEvents, registerFrames, initFrames, samePairs_eq_registerPairs]

/-- The global registers of legal parameters are no column registers and not the address 0 (D7). -/
theorem globalRegs_above {cfg : Config} (hc : configLegal cfg = true) {a : Byte} (ha : a ∈ globalRegs cfg) : 8 < a.toNat :=
  of_decide_eq_true (List.all_eq_true.1 (Bool.and_eq_true_iff.1 hc).2 a ha)

theorem globalReg_ne_zero {cfg : Config} (hc : configLegal cfg = true) {a : Byte} (ha : a ∈ globalRegs cfg) : a ≠ 0 := by
  rintro rfl
  exact absurd (globalRegs_above hc ha) (by decide)

theorem initFrames_regs (cfg : Config) :
    ((initFrames cfg).map Prod.fst).Perm (globalRegs cfg ++ (List.range 8).map regAddr) := by
  simp only [initFrames, globalRegs, List.map_append, columnFrames_regs, List.map_cons, List.map_nil]
  grind

/-- No two frames of `INIT` set the same register. -/
theorem initFrames_nodup {cfg : Config} (hc : configLegal cfg = true) : ((initFrames cfg).map Prod.fst).Nodup := by
  refine (initFrames_regs cfg).nodup_iff.2 (List.nodup_append.2 ⟨of_decide_eq_true (Bool.and_eq_true_iff.1 hc).1, by decide, ?_⟩)
  rintro a ha _ hb rfl
  obtain ⟨k, hk, rfl⟩ := List.mem_map.1 hb
  have column : k < 8 := List.mem_range.1 hk
  have above := globalRegs_above hc ha
  rw [regAddr_toNat column] at above
  omega

/-! ### From acceptance to the end -/

/-- The instruction `i`, presented in `s`, is taken without a fault in `t` and has run to its end in `u`. -/
structure RunsWhole (i : Instr) (s t u : State) : Prop where
  ready : s.ReadyFor i
  accepted : exec i s = .next t
  noFault : t.fault = s.fault
  performed : PerformedTo t u

/-- A request that its port takes runs whole. -/
theorem State.ReadyFor.runsWhole {i : Instr} {s : State} (hs : s.ReadyFor i) (hi : ∀ w, encode i ≠ .cmd w) :
    ∃ t u, RunsWhole i s t u := by
  obtain ⟨es, load, drawn, he, -⟩ := exec_request hi s
  obtain ⟨t, u, ht, -, hf, hp, -⟩ := takeRequest_completes hs.inv.configured hs.undisturbed hs.takes
  exact ⟨t, u, hs, he.trans ht, hf, hp⟩

namespace RunsWhole

section
variable {i : Instr} {s t u : State} (h : RunsWhole i s t u)
include h

theorem legal : configLegal s.config = true := (configured_iff.1 h.ready.inv.configured).2.2

/-- Whatever was left pending has been performed. -/
theorem ends : EndsWith s t.queue u := by
  have inv := exec_keeps_inv h.ready.inv h.accepted
  have same := exec_sameOutputs h.accepted
  have undisturbed : t.undisturbed = true := by
    rw [State.undisturbed, exec_inputs h.accepted]
    exact h.ready.undisturbed
  obtain ⟨v, hv, hd⟩ := run_queue inv.busyIff undisturbed inv.queueInRange
  cases hv.symm.trans h.performed.run
  exact ⟨⟨hd.config.trans same.config, hd.chainLen.trans same.chainLen⟩, same.buf ▸ hd.buf, same.trace ▸ hd.trace,
    same.latches ▸ hd.latches, hd.undisturbed⟩

theorem image : u.image = imageAfter s.chips s.image (eventsOf t.queue) := h.ends.image_eq h.ready.inv (takes_queue h.ready.takes)

/-- A command that raises no fault is in range, and its action list is what the end shows. -/
theorem command {inRange : Bool} {q : List Action} (ha : s.canAccept = true) (hi : exec i s = acceptCommand i inRange q s) :
    inRange = true ∧ u.buf = Memory.writeAll s.buf (writesOf q) ∧ u.image = imageAfter s.chips s.image (eventsOf q) := by
  have accepted := hi.symm.trans h.accepted
  cases hr : inRange with
  | true =>
    rw [acceptCommand_accepts h.ready.inv.configured ha hr] at accepted
    cases accepted
    exact ⟨rfl, h.ends.buf, h.image⟩
  | false =>
    rw [acceptCommand_faults h.ready.inv.configured ha hr] at accepted
    cases accepted
    have fault := h.noFault
    rw [raise_fault, (canAccept_iff.1 ha).2.1] at fault
    cases fault

/-- A request leaves the framebuffer alone, and its events are what the image shows at its end. -/
theorem request {es : List PinEvent} {load : SeqRegs → SeqRegs} {drawn : Nat}
    (hi : exec i s = takeRequest (s.takes i) es load drawn s) :
    u.buf = s.buf ∧ u.image = imageAfter s.chips s.image es := by
  have accepted := hi.symm.trans h.accepted
  rw [takeRequest_takes h.ready.inv.configured h.ready.takes] at accepted
  cases accepted
  refine ⟨?_, by rw [h.image, eventsOf_pins]⟩
  rw [h.ends.buf, writesOf_pins, Memory.writeAll_nil]

/-- After the writes of a shift, none for `RELOAD`, and the frames of `RELOAD`, the display shows the active window (R132, R133). -/
theorem shows_window {ws : List (Nat × Byte)} (ha : s.canAccept = true)
    (hi : exec i s = acceptCommand i true (shiftActions s.chips s.buf ws) s) {n k : Nat} (hn : n < s.chips) (hk : k < 8) :
    u.image n (regAddr k) = some (Memory.read u.buf (n * 8 + k)) := by
  obtain ⟨-, hbuf, himage⟩ := h.command ha hi
  have sent : eventsOf (shiftActions s.chips s.buf ws) = reloadEvents s.chips u.buf := by simp [hbuf, shiftActions]
  rw [himage, sent, imageAfter_reloadEvents hn hk]

/-- After a byte stored at a column and sent to its chip, the display shows the byte (42_buffer_ops.md R92, R93). -/
theorem shows_column {inRange : Bool} {col v : Byte} (ha : s.canAccept = true)
    (hi : exec i s = acceptCommand i inRange (writes [(col.toNat, v)] ++ pins (columnFrame s.chips col v)) s)
    (hr : inRange = true → columnInRange s.chips col = true) :
    u.image (chipIndex col) (regAddr (localCol col)) = some (Memory.read u.buf col.toNat) := by
  obtain ⟨hrange, hbuf, himage⟩ := h.command ha hi
  have chip : chipIndex col < s.chips := Nat.div_lt_of_lt_mul (columnInRange_iff.1 (hr hrange))
  have stored : Memory.read u.buf col.toNat = v := by
    have written : u.buf = Memory.write s.buf col.toNat v := by simpa using hbuf
    rw [written, Memory.read_write h.ready.inv.bufWf, if_pos rfl]
  rw [himage, eventsOf_append, eventsOf_writes, eventsOf_pins, List.nil_append, columnFrame,
    imageAfter_frame (length_addressedPairs _ _ _ _), latch_addressedPairs,
    if_pos ⟨chip, rfl, rfl, regAddr_ne_zero (localCol_lt col)⟩, stored]

end

theorem shows_clear {s t u : State} (h : RunsWhole .clear s t u) {n k : Nat} (hn : n < s.chips) (hk : k < 8) :
    u.image n (regAddr k) = some 0 := by
  obtain ⟨-, -, himage⟩ := h.command h.ready.takes rfl
  rw [himage, eventsOf_clearActions, imageAfter_clearEvents hn hk]

/-- After `SET_COLUMN_ALL` the column shows the value on every chip, by either index rule (42_buffer_ops.md R94). -/
theorem shows_columnAll {s t u : State} {col v : Byte} (h : RunsWhole (.setColumnAll col v) s t u) {n : Nat} (hn : n < s.chips) :
    u.image n (regAddr col.toNat) = some v := by
  obtain ⟨hr, -, himage⟩ := h.command h.ready.takes rfl
  rw [himage, eventsOf_append, eventsOf_writes, eventsOf_pins, List.nil_append,
    imageAfter_same, if_pos ⟨hn, rfl, regAddr_ne_zero (localColumnInRange_iff.1 hr)⟩]

/-- After `SET_INTENSITY` the intensity register shows the level on every chip (44_driver_ops.md R113). -/
theorem shows_intensity {s t u : State} {level : Byte} (h : RunsWhole (.setIntensity level) s t u) {n : Nat} (hn : n < s.chips) :
    u.image n s.config.regIntensity = some level := by
  obtain ⟨-, -, himage⟩ := h.command h.ready.takes rfl
  rw [himage, eventsOf_pins, intensityEvents, imageAfter_same, if_pos ⟨hn, rfl, globalReg_ne_zero h.legal (by simp [globalRegs])⟩]

/-- After `INIT` every register that a frame of it sets shows what that frame carries (R112). -/
theorem shows_init {s t u : State} (h : RunsWhole .init s t u) {a v : Byte} (hv : (a, fun _ => v) ∈ initFrames s.config)
    (ha : a ≠ 0) {n : Nat} (hn : n < s.chips) : u.image n a = some v := by
  obtain ⟨-, -, himage⟩ := h.command h.ready.takes rfl
  rw [himage, eventsOf_append, eventsOf_append, eventsOf_pins, eventsOf_pins, eventsOf_clearActions, initEvents_eq_registerFrames,
    imageAfter_clock, imageAfter_registerFrames (initFrames_nodup h.legal) hv ha hn]

theorem shows_initGlobal {s t u : State} (h : RunsWhole .init s t u) {a v : Byte} (hv : (a, fun _ => v) ∈ initFrames s.config)
    (ha : a ∈ globalRegs s.config) {n : Nat} (hn : n < s.chips) : u.image n a = some v :=
  h.shows_init hv (globalReg_ne_zero h.legal ha) hn

/-- After the broadcast of one pair the register shows its value on every chip; every other register is as before. -/
theorem image_same {s t u : State} {a v : Byte} (h : RunsWhole (.bcSame a v) s t u) (n : Nat) (a' : Byte) :
    u.image n a' = if n < s.chips ∧ a' = a ∧ a ≠ 0 then some v else s.image n a' := by
  rw [(h.request (exec_bcSame a v s)).2, imageAfter_same]

/-- After an addressed pair the register shows its value on the target alone. -/
theorem image_addressed {s t u : State} {k : BitVec 4} {a v : Byte} (h : RunsWhole (.bcAddr k a v) s t u) (n : Nat) (a' : Byte) :
    u.image n a' = if n < s.chips ∧ n = k.toNat ∧ a' = a ∧ a ≠ 0 then some v else s.image n a' := by
  rw [(h.request (exec_bcAddr k a v s)).2, imageAfter_frame (length_addressedPairs _ _ _ _), latch_addressedPairs]

/-- After the frame of a column the register shows each chip its own byte (41_broadcaster.md R85). -/
theorem image_buffer {s t u : State} {a : Byte} (h : RunsWhole (.bcBuf a) s t u) (n : Nat) (a' : Byte) :
    u.image n a' = if n < s.chips ∧ a' = a ∧ a ≠ 0 then some (columnByte s.buf s.draws a n) else s.image n a' := by
  rw [(h.request (exec_bcBuf a s)).2, bufferPairs_eq_registerPairs, imageAfter_frame (length_registerPairs _ _ _),
    latch_registerPairs]

/-- After the frame of a local column the display shows its bytes, which the framebuffer still holds. -/
theorem shows_bufferColumn {s t u : State} {a : Byte} (h : RunsWhole (.bcBuf a) s t u) {n k : Nat} (hk : k < 8) (ha : a.toNat = k + 1)
    (hn : n < s.chips) : u.image n (regAddr k) = some (Memory.read u.buf (n * 8 + k)) := by
  have own : regAddr k = a := BitVec.eq_of_toNat_eq (by rw [regAddr_toNat hk, ha])
  obtain ⟨kept, -⟩ := h.request (exec_bcBuf a s)
  rw [own, h.image_buffer, if_pos ⟨hn, rfl, own ▸ regAddr_ne_zero hk⟩, columnByte_of_column hk ha, kept]

end RunsWhole

end Sys2Proof.Machine

open Sys2Proof Sys2Proof.Machine

/-- Settles O47, instruction by instruction: what its frames carry is what the image shows at its end (`RunsWhole.command`,
`RunsWhole.request`). -/
theorem displayAfterEachCommand : Obligations.DisplayAfterEachCommand := by
  intro i s t u hs ht hf hp
  have h : RunsWhole i s t u := ⟨hs, ht, hf, hp⟩
  cases i
  case reload => exact fun n k hn hk => h.shows_window (ws := []) hs.takes rfl hn hk
  case shiftLeft | shiftRight | shiftUp | shiftDown => exact fun n k hn hk => h.shows_window hs.takes rfl hn hk
  case clear => exact fun n k hn hk => h.shows_clear hn hk
  case init =>
    refine ⟨fun n k hn hk => h.shows_init (mem_initFrames_column _ hk) (regAddr_ne_zero hk) hn, fun n hn => ⟨?_, ?_, ?_, ?_, ?_⟩⟩
    all_goals exact h.shows_initGlobal (by simp [initFrames]) (by simp [globalRegs]) hn
  case setDot col row val => exact h.shows_column hs.takes rfl columnInRange_of_pixelInRange
  case setColumn col v => exact h.shows_column hs.takes rfl id
  case setColumnAll col v => exact fun n hn => h.shows_columnAll hn
  case updateBufferAt col row val =>
    obtain ⟨-, -, himage⟩ := h.command hs.takes rfl
    rwa [eventsOf_writes, imageAfter_nil] at himage
  case setIntensity level => exact fun n hn => h.shows_intensity hn
  case serMsb v => exact (h.request (exec_serMsb v s)).2.trans (imageAfter_serEvents _ _ _ _)
  case serLsb v => exact (h.request (exec_serLsb v s)).2.trans (imageAfter_serEvents _ _ _ _)
  case bcSame a v =>
    refine ⟨fun ha n hn => ?_, fun ha => ?_, fun n a' ha => ?_⟩
    · rw [h.image_same, if_pos ⟨hn, rfl, ha⟩]
    · funext n a'
      rw [h.image_same, if_neg fun hw => hw.2.2 ha]
    · rw [h.image_same, if_neg fun hw => ha hw.2.1]
  case bcAddr k a v =>
    refine ⟨fun hk ha => ?_, fun n a' hne => ?_⟩
    · rw [h.image_addressed, if_pos ⟨hk, rfl, rfl, ha⟩]
    · rw [h.image_addressed, if_neg fun hw => hne ⟨hw.2.1, hw.2.2.1⟩]
  case bcBuf a =>
    refine ⟨fun k hk ha n hn => h.shows_bufferColumn hk ha hn, fun n a' ha => ?_⟩
    rw [h.image_buffer, if_neg fun hw => ha hw.2.1]

/-- Settles O46: the request runs whole (`State.ReadyFor.runsWhole`), and what it leaves on the display is said in O47. -/
theorem addressedAndBroadcastWritesOnTheDisplay : Obligations.AddressedAndBroadcastWritesOnTheDisplay := by
  refine fun s => ⟨fun n k v hs hn hk => ?_, fun a v hs ha => ?_⟩
  · obtain ⟨t, u, h⟩ := hs.runsWhole nofun
    obtain ⟨written, kept⟩ := displayAfterEachCommand _ s t u h.ready h.accepted h.noFault h.performed
    exact ⟨t, u, h.accepted, h.performed, written hn (regAddr_ne_zero hk), kept⟩
  · obtain ⟨t, u, h⟩ := hs.runsWhole nofun
    obtain ⟨written, -⟩ := displayAfterEachCommand _ s t u h.ready h.accepted h.noFault h.performed
    exact ⟨t, u, h.accepted, h.performed, written ha⟩
end

section
/-! PROOFS. The numbers of actions (70_reset_and_hazards.md R150): what an instruction leaves pending at a fault-free acceptance, counted
by its list of writes and its frames. -/

namespace Sys2Proof.Machine

/-! ### What is pending after an acceptance without a fault -/

section
variable {i : Instr} {s t : State} (hs : s.ReadyFor i) (h : exec i s = .next t)
include hs h

/-- A command accepted without a fault leaves exactly its action list pending. -/
theorem queue_of_command (hf : t.fault = s.fault) {inRange : Bool} {q : List Action} (ha : s.canAccept = true)
    (hi : exec i s = acceptCommand i inRange q s) : t.queue = q := by
  have accepted := hi.symm.trans h
  cases hr : inRange with
  | true =>
    rw [acceptCommand_accepts hs.inv.configured ha hr] at accepted
    cases accepted
    rfl
  | false =>
    rw [acceptCommand_faults hs.inv.configured ha hr] at accepted
    cases accepted
    rw [raise_fault, (canAccept_iff.1 ha).2.1] at hf
    cases hf

/-- A request leaves exactly its events pending. -/
theorem queue_of_request {es : List PinEvent} {load : SeqRegs → SeqRegs} {drawn : Nat}
    (hi : exec i s = takeRequest (s.takes i) es load drawn s) : t.queue = pins es := by
  have accepted := hi.symm.trans h
  rw [takeRequest_takes hs.inv.configured hs.takes] at accepted
  cases accepted
  rfl

end

/-! ### Counting (R150) -/

/-- How many buffer writes and how many pin events an action list has. -/
def countsOf (q : List Action) : Nat × Nat := ((writesOf q).length, (eventsOf q).length)

theorem countsOf_pins (es : List PinEvent) : countsOf (pins es) = (0, es.length) := by simp [countsOf]

theorem countsOf_writes (ws : List (Nat × Byte)) : countsOf (writes ws) = (ws.length, 0) := by simp [countsOf]

theorem countsOf_writes_pins (ws : List (Nat × Byte)) (es : List PinEvent) :
    countsOf (writes ws ++ pins es) = (ws.length, es.length) := by
  simp [countsOf]

theorem length_registerFrames (n : Nat) (rs : List (Byte × (Nat → Byte))) :
    (registerFrames n rs).length = rs.length * (3 + 48 * n) := by
  simp [registerFrames, length_registerPairs, List.length_flatMap]

theorem length_reloadEvents (n : Nat) (buf : Memory) : (reloadEvents n buf).length = 8 * (3 + 48 * n) := by
  rw [reloadEvents_eq_registerFrames, length_registerFrames]
  rfl

theorem length_clearEvents (n : Nat) : (clearEvents n).length = 8 * (3 + 48 * n) := by
  rw [clearEvents_eq_registerFrames, length_registerFrames]
  rfl

theorem length_clearWrites : clearWrites.length = 80 := by simp [clearWrites]

theorem countsOf_clear (n : Nat) : countsOf (clearActions n) = (80, 8 * (3 + 48 * n)) := by
  simp [countsOf, clearActions, length_clearWrites, length_clearEvents]

/-- The events of `INIT` are its opening event and the frames of `initFrames` (44_driver_ops.md R112). -/
theorem eventsOf_init (cfg : Config) (n : Nat) :
    eventsOf (pins (initOpening cfg n) ++ clearActions n ++ pins (intensityEvents cfg n 0x0F)) =
      .c true :: registerFrames n (initFrames cfg) := by
  rw [eventsOf_append, eventsOf_append, eventsOf_pins, eventsOf_pins, eventsOf_clearActions, initEvents_eq_registerFrames]

/-- Its buffer writes are those of `CLEAR`. -/
theorem writesOf_init (cfg : Config) (n : Nat) :
    writesOf (pins (initOpening cfg n) ++ clearActions n ++ pins (intensityEvents cfg n 0x0F)) = clearWrites := by
  simp [clearActions]

/-- The opening event and thirteen frames: four global registers, the eight columns, the intensity (44_driver_ops.md R112). -/
theorem countsOf_init (cfg : Config) (n : Nat) :
    countsOf (pins (initOpening cfg n) ++ clearActions n ++ pins (intensityEvents cfg n 0x0F)) =
      (80, 1 + 13 * (3 + 48 * n)) := by
  rw [countsOf, eventsOf_init, writesOf_init, length_clearWrites, List.length_cons, length_registerFrames, Nat.add_comm]
  rfl

theorem countsOf_shift (n : Nat) (old : Memory) (ws : List (Nat × Byte)) :
    countsOf (shiftActions n old ws) = (ws.length, 8 * (3 + 48 * n)) := by
  rw [shiftActions, countsOf_writes_pins, length_reloadEvents]

/-- A horizontal shift writes 79 bytes, and the edge byte under either flag (43_shift_ops.md R101). -/
theorem length_shiftLeftWrites (old : Memory) (r f : Bool) : (shiftLeftWrites old r f).length = if r || f then 80 else 79 := by
  rw [shiftLeftWrites, List.length_append, edgeWrite_length, List.length_map, List.length_range]
  split <;> rfl

theorem length_shiftRightWrites (old : Memory) (r f : Bool) : (shiftRightWrites old r f).length = if r || f then 80 else 79 := by
  rw [shiftRightWrites, List.length_append, edgeWrite_length, List.length_map, List.length_range]
  split <;> rfl

theorem length_verticalWrites (n : Nat) (old : Memory) (f : Byte → Byte) : (verticalWrites n old f).length = 8 * n := by
  simp [verticalWrites]

theorem length_columnAllWrites (rule : ColumnAllIndexing) (n : Nat) (col v : Byte) : (columnAllWrites rule n col v).length = n := by
  simp [columnAllWrites]

theorem length_columnFrame (n : Nat) (col v : Byte) : (columnFrame n col v).length = 3 + 48 * n := by
  rw [columnFrame, length_frameEvents, length_addressedPairs]

theorem length_sameFrame (n : Nat) (a v : Byte) : (frameEvents (samePairs n a v)).length = 3 + 48 * n := by
  rw [length_frameEvents, length_samePairs]

end Sys2Proof.Machine

open Sys2Proof Sys2Proof.Machine

/-- Settles O36, instruction by instruction: what is pending is the instruction's action list (`queue_of_command`,
`queue_of_request`), whose writes and frames are counted. -/
theorem actionCounts : Obligations.ActionCounts := by
  intro i s t hs h hf
  have command {inRange : Bool} {q : List Action} (ha : s.canAccept = true) (hi : exec i s = acceptCommand i inRange q s) :
      t.queue = q := queue_of_command hs h hf ha hi
  show countsOf t.queue = _
  cases i
  case serMsb v => rw [queue_of_request hs h (exec_serMsb v s), countsOf_pins, length_serEvents]
  case serLsb v => rw [queue_of_request hs h (exec_serLsb v s), countsOf_pins, length_serEvents]
  case bcSame a v => rw [queue_of_request hs h (exec_bcSame a v s), countsOf_pins, length_sameFrame]
  case bcAddr n a v =>
    rw [queue_of_request hs h (exec_bcAddr n a v s), countsOf_pins, length_frameEvents, length_addressedPairs]
  case bcBuf a => rw [queue_of_request hs h (exec_bcBuf a s), countsOf_pins, length_frameEvents, length_bufferPairs]
  case init => rw [command hs.takes rfl, countsOf_init]
  case clear => rw [command hs.takes rfl, countsOf_clear]
  case setIntensity level => rw [command hs.takes rfl, countsOf_pins, intensityEvents, length_sameFrame]
  case setColumn col v => rw [command hs.takes rfl, countsOf_writes_pins, length_columnFrame, List.length_singleton]
  case setColumnAll col v =>
    rw [command hs.takes rfl, countsOf_writes_pins, length_columnAllWrites, length_sameFrame]
  case updateBufferAt col row val => rw [command hs.takes rfl, countsOf_writes, List.length_singleton]
  case setDot col row val => rw [command hs.takes rfl, countsOf_writes_pins, length_columnFrame, List.length_singleton]
  case shiftLeft r f => rw [command hs.takes rfl, countsOf_shift, length_shiftLeftWrites]
  case shiftRight r f => rw [command hs.takes rfl, countsOf_shift, length_shiftRightWrites]
  case shiftUp r => rw [command hs.takes rfl, countsOf_shift, length_verticalWrites]
  case shiftDown r => rw [command hs.takes rfl, countsOf_shift, length_verticalWrites]
  case reload => rw [command hs.takes rfl, countsOf_pins, length_reloadEvents]
end

section
/-! PROOFS. Reset (70_reset_and_hazards.md R140, R141): the state that a reset gives, and the invariant and the agreement of the
reference machines in it. -/

namespace Sys2Proof.Machine

/-- The reset state of a configuration of the hardware satisfies the invariant, whatever the host's moves. -/
theorem resetWith_inv {cfg : Config} {strap : BitVec 4} (hl : strapLegal strap = true) (hc : configLegal cfg = true)
    (ms : List HostMove) : (State.resetWith cfg strap ms).Inv where
  configured := Bool.and_eq_true_iff.2 ⟨hl, hc⟩
  bufWf := rfl
  busyIff := rfl
  queueInRange := rfl
  faultNoWrite _ := rfl
  latchesOfTrace := rfl
  clockSettles := nofun
  loadSettles := nofun

/-- Nothing is pending and the three machines are idle. -/
theorem resetWith_seqAgrees (cfg : Config) (strap : BitVec 4) (ms : List HostMove) : (State.resetWith cfg strap ms).SeqAgrees :=
  seqAgrees_of_idle rfl (SeqRegs.idle_iff.2 ⟨rfl, rfl, rfl⟩)

end Sys2Proof.Machine

open Sys2Proof Sys2Proof.Machine

/-- Settles O42: the reset is the whole step (`step_of_reset`), and its state is `State.resetWith` with the count of free values kept;
with nothing presented that state does nothing (`step_idle`). -/
theorem resetGivesTheResetState : Obligations.ResetGivesTheResetState := by
  intro s strap rest hi hlo hhi
  rw [step_of_reset hi, resetBlock_eq, if_pos (strapLegal_iff.2 ⟨hlo, hhi⟩)]
  exact ⟨_, rfl, fun _ => rfl, rfl, rfl, rfl, rfl, rfl, rfl, rfl, rfl, rfl, rfl, rfl, rfl, rfl, rfl, rfl, rfl, rfl, rfl, rfl, rfl,
    rfl, rfl, rfl, rfl, rfl, rfl, fun _ _ => rfl, step_idle rfl rfl⟩

/-- Settles O44, by the reset state of a legal strap and legal parameters (`resetWith_inv`, `resetWith_seqAgrees`), of which
`State.reset` is one. -/
theorem invariantHoldsAtReset : Obligations.InvariantHoldsAtReset :=
  ⟨resetWith_inv (by decide) (by decide) [], resetWith_seqAgrees _ _ _, fun cfg _ ms hc hlo hhi =>
    ⟨resetWith_inv (strapLegal_iff.2 ⟨hlo, hhi⟩) hc ms, resetWith_seqAgrees cfg _ ms⟩⟩
end

section
/-! PROOFS. The display while pin writes can fail (70_reset_and_hazards.md R151, 60_exceptions.md R124, R131): it is `Img` where none
fails, frames all of whose writes are carried out repair it, and a failed write leaves it at whatever the environment draws. -/

namespace Sys2Proof.Machine

/-! ### No write fails -/

/-- Where no write fails the display shows `Img`. -/
theorem shown_eq_image {s : State} {drawn : Nat → Option Level} (h : ∀ k, writeFails s.config.pinCanFail (drawn k) = false)
    (shows : Nat → Image) : s.shown drawn shows = s.image := by
  rw [State.shown, Watch.start, watchFrom_carried _ _ _ _ _ _ _ fun j _ => h j]
  rfl

/-! ### A write fails -/

/-- Where every write of a trace fails, the display can show any image. -/
theorem shown_any_of_failure {u : State} (hc : u.config.pinCanFail = true) (ht : u.trace ≠ []) (img : Image) :
    u.shown (fun _ => some .x) (fun _ => img) = img := by
  rw [State.shown, hc, ← List.dropLast_append_getLast ht]
  exact watchFrom_last_fails _ _ _ _ _ _ _ rfl

/-! ### Frames that are carried out after failures -/

/-- The watch of a state: the observer to whom the pin writes of the trace have failed as drawn. -/
def State.watch (s : State) (drawn : Nat → Option Level) (shows : Nat → Image) : Watch :=
  watchFrom s.chips s.config.pinCanFail drawn shows 0 Watch.start s.trace

theorem shown_eq_watch (s : State) (drawn : Nat → Option Level) (shows : Nat → Image) :
    s.shown drawn shows = (s.watch drawn shows).obs.image := rfl

/-- Whatever has failed, no frame is open on the bus of a ready block. -/
theorem watch_outside_frame {s : State} (hs : s.Ready) (drawn : Nat → Option Level) (shows : Nat → Image) :
    (s.watch drawn shows).obs.frame = none :=
  (watchFrom_frame _ _ _ _ _ _ Observer.start _ rfl).trans (ready_outside_frame hs)

/-- The watch at the end of an instruction is the watch before it with the events sent. -/
theorem EndsWith.watch_eq {s u : State} {q : List Action} (he : EndsWith s q u) (drawn : Nat → Option Level) (shows : Nat → Image) :
    u.watch drawn shows =
      watchFrom s.chips s.config.pinCanFail drawn shows s.trace.length (s.watch drawn shows) (eventsOf q) := by
  rw [State.watch, he.settings.chips, he.settings.config, he.trace, watchFrom_append, Nat.zero_add, State.watch]

/-- Whole frames latch their pairs one frame after the other. -/
theorem imageAfter_frames {n : Nat} {fs : List (List Pair)} (hl : ∀ f ∈ fs, f.length = n) (img : Image) :
    imageAfter n img (fs.flatMap frameEvents) = fs.foldl (fun img ps => Image.latch ps img) img := by
  induction fs generalizing img with
  | nil => rfl
  | cons f fs ih =>
    rw [List.flatMap_cons, imageAfter_frame_append (hl f (by simp)), ih fun g hg => hl g (by simp [hg])]
    rfl

/-- Register frames that are carried out are seen as `Img` sees them, from whatever the display showed before. -/
theorem watchFrom_registerFrames {n k : Nat} {c : Bool} {drawn : Nat → Option Level} (shows : Nat → Image) {w : Watch}
    (rs : List (Byte × (Nat → Byte))) (hw : w.obs.frame = none) (h : ∀ j, k ≤ j → writeFails c (drawn j) = false) :
    (watchFrom n c drawn shows k w (registerFrames n rs)).obs.image = imageAfter n w.obs.image (registerFrames n rs) := by
  have frames : registerFrames n rs = (rs.map fun r => registerPairs n r.1 r.2).flatMap frameEvents := by
    rw [List.flatMap_map]
    rfl
  have lengths : ∀ f ∈ rs.map fun r => registerPairs n r.1 r.2, f.length = n := fun f hf => by
    obtain ⟨r, -, rfl⟩ := List.mem_map.1 hf
    exact length_registerPairs _ _ _
  rw [frames, watchFrom_frames n c drawn shows _ lengths k w hw h, imageAfter_frames lengths]

/-- Between `s` and `u` the registers of `rs` have been sent: if none of those writes fails, each shows its value for each chip,
whatever failed before. -/
def Repairs (s u : State) (rs : List (Byte × (Nat → Byte))) : Prop :=
  ∀ (drawn : Nat → Option Level) (shows : Nat → Image), (∀ k, s.trace.length ≤ k → drawn k = none) →
    ∀ a f, (a, f) ∈ rs → a ≠ 0 → ∀ n, n < s.chips → u.shown drawn shows n a = some (f n)

/-- Frames for different registers, after events `es` that open no frame, repair the display (R151). -/
theorem EndsWith.repairs {s u : State} {q : List Action} (he : EndsWith s q u) (hs : s.Ready) {es : List PinEvent}
    {rs : List (Byte × (Nat → Byte))} (hq : eventsOf q = es ++ registerFrames s.chips rs)
    (hes : (Observer.start.seeAll s.chips es).frame = none) (hd : (rs.map Prod.fst).Nodup) : Repairs s u rs := by
  intro drawn shows hdrawn a f hf ha n hn
  have carried : ∀ j, s.trace.length + es.length ≤ j → writeFails s.config.pinCanFail (drawn j) = false := fun j hj => by
    rw [hdrawn j (by omega), writeFails_carried]
  have outside := (watchFrom_frame s.chips s.config.pinCanFail drawn shows s.trace.length _ Observer.start es
    (watch_outside_frame hs drawn shows)).trans hes
  rw [shown_eq_watch, he.watch_eq, hq, watchFrom_append, watchFrom_registerFrames shows rs outside carried,
    imageAfter_registerFrames hd hf ha hn]

/-- `RELOAD` from a ready block sends every column of the buffer, which stays. -/
theorem reload_repairs {s : State} (hs : s.Ready) :
    ∃ t u, exec .reload s = .next t ∧ CompletesTo t u ∧ u.config = s.config ∧ u.trace ≠ [] ∧
      Repairs s u (columnFrames fun n k => Memory.read u.buf (n * 8 + k)) := by
  obtain ⟨t, u, ht, -, hdone, he, -⟩ := hs.performs (i := .reload) rfl (settles_reload s.buf (chips_bounds hs).1)
  have kept : u.buf = s.buf := by simpa using he.buf
  refine ⟨t, u, ht, hdone, he.settings.config, ?_, he.repairs hs (es := []) ?_ rfl ?_⟩
  · rw [he.trace, eventsOf_pins]
    exact List.append_ne_nil_of_right_ne_nil _ (reloadEvents_ne_nil _ _)
  · rw [eventsOf_pins, reloadEvents_eq_registerFrames, kept, List.nil_append]
  · rw [columnFrames_regs]
    decide

/-- `INIT` from a ready block sends the five global registers and every column, and leaves the buffer blank. -/
theorem init_repairs {s : State} (hs : s.Ready) :
    ∃ t u, exec .init s = .next t ∧ CompletesTo t u ∧ u.config = s.config ∧ u.trace ≠ [] ∧ (∀ j, Memory.read u.buf j = 0) ∧
      Repairs s u (initFrames s.config) := by
  obtain ⟨t, u, ht, -, hdone, he, -⟩ := hs.performs (i := .init) rfl (settles_init s.config (chips_bounds hs).1)
  have legal : configLegal s.config = true := (configured_iff.1 hs.inv.configured).2.2
  have blank : u.buf = Memory.writeAll s.buf clearWrites := by rw [he.buf, writesOf_init]
  refine ⟨t, u, ht, hdone, he.settings.config, ?_, fun j => ?_,
    he.repairs hs (es := [.c true]) (eventsOf_init _ _) rfl (initFrames_nodup legal)⟩
  · rw [he.trace, eventsOf_init]
    exact List.append_ne_nil_of_right_ne_nil _ (List.cons_ne_nil _ _)
  · rw [blank, read_clearWrites hs.inv.bufWf]

/-! ### A column that was sent (42_buffer_ops.md R93) -/

/-- An acceptance that leaves something pending raises no fault. -/
theorem exec_fault_of_pending {i : Instr} {s t : State} (h : exec i s = .next t) (hq : t.queue ≠ s.queue) : t.fault = s.fault := by
  by_contra hf
  exact hq (by rw [exec_faultChange h hf, raise_queue])

/-- At the end of `SET_COLUMN` the image shows the byte stored. -/
theorem setColumn_image {s t u : State} {col v : Byte} (hs : s.Ready) (ht : exec (.setColumn col v) s = .next t)
    (h : StoresAndSends s col v (columnFrame s.chips col v) t u) : u.image (chipIndex col) (regAddr (localCol col)) = some v := by
  have pending : t.queue ≠ s.queue := by
    rw [h.queue, (canAccept_iff.1 hs.accepts).2.2]
    exact List.cons_ne_nil _ _
  have fault := exec_fault_of_pending ht pending
  have kept : u.fault = t.fault := by rw [h.completes.fault, fault, (canAccept_iff.1 hs.accepts).2.1]
  have whole : RunsWhole (.setColumn col v) s t u :=
    ⟨⟨hs.inv, hs.accepts, hs.undisturbed⟩, ht, fault, h.completes.run, h.completes.queue, h.completes.idle, kept⟩
  rw [whole.shows_column hs.accepts rfl id, h.read_column]

end Sys2Proof.Machine

open Sys2Proof Sys2Proof.Machine

/-- Settles O51: where no write fails the display is `Img` (`shown_eq_image`); `RELOAD` and `INIT` repair it when they are carried out
(`reload_repairs`, `init_repairs`), and when their writes fail it can be anything (`shown_any_of_failure`). -/
theorem failedWritesPartTheDisplayFromTheBuffer : Obligations.FailedWritesPartTheDisplayFromTheBuffer := by
  intro s hs
  refine ⟨fun hc drawn shows => shown_eq_image (fun k => by rw [hc, writeFails_cannot]) shows, fun hc i hi => ?_⟩
  rcases hi with rfl | rfl
  · obtain ⟨t, u, ht, hdone, hcfg, htrace, hrep⟩ := reload_repairs hs
    refine ⟨t, u, ht, hdone, fun drawn shows hd => ⟨fun n k hn hk => ?_, nofun⟩, fun img =>
      ⟨_, _, shown_any_of_failure (hcfg ▸ hc) htrace img⟩⟩
    exact hrep drawn shows hd _ _ (mem_columnFrames _ hk) (regAddr_ne_zero hk) n hn
  · obtain ⟨t, u, ht, hdone, hcfg, htrace, hblank, hrep⟩ := init_repairs hs
    have legal : configLegal s.config = true := (configured_iff.1 hs.inv.configured).2.2
    refine ⟨t, u, ht, hdone, fun drawn shows hd => ⟨fun n k hn hk => ?_, fun _ n hn => ?_⟩, fun img =>
      ⟨_, _, shown_any_of_failure (hcfg ▸ hc) htrace img⟩⟩
    · rw [hblank]
      exact hrep drawn shows hd _ _ (mem_initFrames_column _ hk) (regAddr_ne_zero hk) n hn
    · have global {a v : Byte} (hf : (a, fun _ => v) ∈ initFrames s.config) (ha : a ∈ globalRegs s.config) :=
        hrep drawn shows hd a _ hf (globalReg_ne_zero legal ha) n hn
      refine ⟨?_, ?_, ?_, ?_, ?_⟩
      all_goals exact global (by simp [initFrames]) (by simp [globalRegs])

/-- Settles O52: the one end of `SET_COLUMN` shows the byte when no write fails (`setColumn_image`) and an unknown register when the
writes fail and that is what the environment draws (`shown_any_of_failure`). -/
theorem aFailedColumnWriteIsSilent : Obligations.AFailedColumnWriteIsSilent := by
  intro s col v hs hc hcol
  obtain ⟨t, u, ht, h⟩ := setColumn_completes hs (columnInRange_iff.2 hcol) v
  have canFail : u.config.pinCanFail = true := h.settings.config ▸ hc
  have sent : u.trace ≠ [] := by
    rw [h.trace]
    exact List.append_ne_nil_of_right_ne_nil _ (frameEvents_ne_nil _)
  refine ⟨t, u, ht, h.completes, h.read_column, h.completes.fault,
    ⟨fun _ => some .x, fun _ => Image.unknown, ?_⟩, fun _ => none, fun _ => Image.unknown, ?_⟩
  · rw [shown_any_of_failure canFail sent Image.unknown]
    exact nofun
  · rw [shown_eq_image fun _ => writeFails_carried _]
    exact setColumn_image hs ht h
end
